-- ==== Sys2Proof/Config.lean ====
section
/-! DEFINITION. The parameters the source fixes (R10), the defaults of the open ones (R11), and the
values nothing in the spec fixes: constants with no body, so that no proof can see what they are. -/

namespace Sys2Proof.Config

/-- Ring buffer slots (R10: "fixed capacity N (64 byte slots)"). -/
abbrev N : Nat := 64
/-- Data bits of a frame (R2, R10). -/
abbrev DATA_BITS : Nat := 8
/-- The stop bit is driven when the elapsed time reaches `STOP_AT * bit_time` (R10, R145). -/
abbrev STOP_AT : Nat := 9
/-- The guard delay after the stop bit, in bit periods (R10, R146). -/
abbrev GUARD_BITS : Nat := 6
/-- Positions of a frame: a start bit, eight data bits, a stop bit (R70). -/
abbrev FRAME_BITS : Nat := 10
/-- Level of the start bit (R10). -/
abbrev START_LEVEL : Bool := false
/-- Level of the stop bit (R10). -/
abbrev STOP_LEVEL : Bool := true
/-- Numerator of the bit-period division (R10, R95). -/
abbrev US_PER_S : Nat := 1000000
/-- Numerator of the rounding test (R10, R95). -/
abbrev US_PER_S_X100 : Nat := 100000000
/-- The rounding test of COMPUTE is `> ROUND_THRESHOLD` (R10, R95). -/
abbrev ROUND_THRESHOLD : Nat := 50

/-- `W`, the width of the microsecond counter: the default of the open parameter (R11, D1, log 2). -/
abbrev TIMER_WIDTH : Nat := 32
/-- Number of pin identifiers: the default of the open parameter (R11, D21, log 2). -/
abbrev NPINS : Nat := 32
/-- Number of instances after reset: the default of the open parameter (R11, D19).
A state may hold any number of them (log 3). -/
abbrev NINST : Nat := 1
/-- Level of every TX pin when no frame is being sent (R11, D15). -/
abbrev TX_IDLE_LEVEL : Bool := true
/-- Default of `LINE_TERM` (R11, D13, G1). -/
abbrev LINE_TERM : BitVec 8 := 0x0A
/-- Default of `SENTINEL` (R11, D26, G2). -/
abbrev SENTINEL : BitVec 8 := 0x00
/-- Default of `DIR_ASSERTED` (R11, D16, G3). -/
abbrev DIR_ASSERTED : Bool := true

/-- FREE VALUE (log 8): the level of an output pin after a failed write, and of the direction pin
after an abort (R37, R38, R151, U3, U4: "unspecified"), by instance and number of the draw. -/
opaque freeLevel : Nat → Nat → Bool
/-- FREE VALUE (log 6): the pin levels of a tick for which no input is listed (R42, U20), by tick. -/
opaque freePins : Nat → Nat
/-- FREE VALUE (log 6): the pin-write answers of a tick for which no input is listed (R42), by tick. -/
opaque freeWrFail : Nat → Nat
/-- FREE VALUE (log 6): the pin-configuration answer of a tick for which no input is listed
(R42, U17), by tick. -/
opaque freePinCfgOk : Nat → Bool
/-- FREE VALUE (log 26): the `VALUE` field of a READ or READLINE count above 255, by count: the spec
gives the count no bound and the field eight bits (R88, R165, R170, R186). -/
opaque wideCountValue : Nat → BitVec 8
/-- FREE VALUE (log 30): the `VALUE` field of an OverrunError: R186 records none, and R79 and R88 give
`VALUE` no meaning there. -/
opaque overrunErrorValue : BitVec 8

end Sys2Proof.Config
end

