-- ==== Sys2Proof/Word.lean ====
section
/-! DEFINITION. The word types of the block: bytes, counter stamps, pins, command and configuration
words. A quantity whose width is an open parameter (R11) is a `Nat`: a value of the microsecond counter
(`0 .. 2^W-1`, R13, R198), a pin identifier (`0 .. NPINS-1`, R50, R82), a set of pins, the word on the
`cfg` port. The state holds the parameters, and its invariant (Safety.lean) bounds the numbers by them
(log 2). -/

namespace Sys2Proof

/-- A data byte (R57, R110). -/
abbrev Byte := BitVec 8
/-- A set of pins as a number of `NPINS` bits: bit `p` is 1 exactly when `p` is in the set
(R17, R21). -/
abbrev PinSet := Nat
/-- A ring slot index, `0 .. N-1` (R40, R50). -/
abbrev SlotIx := BitVec 6
/-- A host command word `CW` (R79). -/
abbrev CommandWord := BitVec 16
/-- The word on the `cfg` port, read only by INIT (R80, R82): 80 bits for `NPINS = 32`. -/
abbrev CfgWord := Nat
/-- A host response word `RW` (R79). -/
abbrev ResponseWord := BitVec 16
/-- Ten line positions, bit 9 first on the wire: the pattern string of R70 read as one number. -/
abbrev FrameBits := BitVec 10

end Sys2Proof
end

