-- ==== Sys2Proof/Syntax.lean ====
section
/-! DEFINITION. The operations of the block (R75), one constructor for each row of the opcode table. -/

namespace Sys2Proof

/-- The configuration record `CFG`, the operand of INIT (R82). -/
structure CfgRecord where
  /-- `CFG[31:0]`, read as two's complement (R85). -/
  baud   : BitVec 32
  /-- `CFG[63:32]` for `NPINS = 32`; the places below are those of `NPINS = 32` too -/
  txPins : PinSet
  /-- `CFG[68:64]` -/
  rxPin  : Nat
  /-- `CFG[73:69]`, ignored when `hdx` is 0. -/
  dirPin : Nat
  /-- `CFG[74]`, RXEN -/
  rxen   : Bool
  /-- `CFG[75]`, TXEN -/
  txen   : Bool
  /-- `CFG[76]`, HDX -/
  hdx    : Bool
  /-- `CFG[77]`, NOTIFY -/
  notify : Bool
  /-- `CFG[79:78]`, must be 0, otherwise INIT is refused. -/
  zero   : BitVec 2
deriving DecidableEq, Repr

/-- The operations: host, wire, pseudo, component, and engine steps (R75, R70). -/
inductive Instr where
  /-- INIT (R175) -/
  | init (cfg : CfgRecord)
  /-- PUTCHAR (R140) -/
  | putchar (b : Byte)
  /-- GETC (R105) -/
  | getc
  /-- AVAILABLE (R106) -/
  | available
  /-- OVERRUN (R107) -/
  | overrun
  /-- FRAME: ten positions on the line (R70) -/
  | frame (b : Byte)
  /-- PUTS (R153) -/
  | puts (bs : List Byte)
  /-- READ (R165) -/
  | read (maxLen : Nat)
  /-- READLINE (R166) -/
  | readline (maxLen : Nat)
  /-- CLAIM (R90) -/
  | claim (txPins : PinSet) (rxPin : Nat)
  /-- COMPUTE (R95) -/
  | compute (baud : BitVec 32)
  /-- PUSH (R100) -/
  | push (b : Byte)
  /-- POP (R101) -/
  | pop
  /-- AVAIL (R102) -/
  | avail
  /-- TAKE_OVERRUN (R103) -/
  | takeOverrun
  /-- RXSTEP (R115) -/
  | rxStep (now : Nat) (level : Bool)
  /-- TXSTEP (R143) -/
  | txStep (now : Nat)
deriving DecidableEq, Repr

/-- The classes of operations (R75). -/
inductive OpClass where
  | host | wire | pseudo | component | engineStep
deriving DecidableEq, Repr

/-- The class of an operation (R75, and R70 for the wire frame). -/
def Instr.opClass : Instr → OpClass
  | .init _ | .putchar _ | .getc | .available | .overrun => .host
  | .frame _ => .wire
  | .puts _ | .read _ | .readline _ => .pseudo
  | .claim _ _ | .compute _ | .push _ | .pop | .avail | .takeOverrun => .component
  | .rxStep _ _ | .txStep _ => .engineStep

end Sys2Proof
end

