-- ==== Sys2Proof/Machine/State.lean ====
section
/-! DEFINITION. The state of the block as plain data (R20), its reset (R46), and the reasons a step
can stop. -/

namespace Sys2Proof.Machine

/-- The RX engine's sequencing states (R24, R89). -/
inductive RxState where
  | idle | samplingStartHalf | samplingBits | samplingStop
deriving DecidableEq, Repr

/-- The TX engine's sequencing states (R33, R89). -/
inductive TxState where
  | txIdle | txData | txStopWait | txGuard
deriving DecidableEq, Repr

/-- Which pin edge triggers the RX engine (R11, R129). -/
inductive EdgePolicy where
  | fallingOnly | anyEdge
deriving DecidableEq, Repr

/-- The status of a response (R186). -/
inductive Status where
  | ok | invalidBaud | pinOverlap | pinClaimed | pinConfigRejected | pinWriteError | overrunError
  | refused
deriving DecidableEq, Repr

/-- A response before it is encoded in a response word (R79). -/
structure Response where
  status : Status
  value  : Byte
deriving DecidableEq, Repr

/-- The configuration registers (R22) and `inited` (R23). -/
structure ConfigRegs where
  /-- `cfg_baud`, signed -/
  baud    : BitVec 32
  /-- `bit_time`, microseconds -/
  bitTime : BitVec 20
  /-- `cfg_rx_pin` -/
  rxPin   : Nat
  /-- `cfg_tx_pins` -/
  txPins  : PinSet
  /-- `cfg_dir_pin`, meaningful only with `hdx` -/
  dirPin  : Nat
  /-- `RXEN` -/
  rxen    : Bool
  /-- `TXEN` -/
  txen    : Bool
  /-- `HDX` -/
  hdx     : Bool
  /-- `NOTIFY` -/
  notify  : Bool
  /-- INIT has succeeded on this instance (R23). -/
  inited  : Bool
deriving DecidableEq, Repr

/-- The ring space: slot index and byte of every slot that has been written, indices strictly
rising (R50, R47: an unlisted slot holds no value). -/
abbrev Memory := List Host.Cell

/-- The ring buffer (R40). -/
structure Ring where
  slots   : Memory
  head    : SlotIx
  tail    : SlotIx
  overrun : Bool
deriving DecidableEq, Repr

/-- The RX engine's registers (R24 to R30). -/
structure RxRegs where
  state : RxState
  bit   : BitVec 3
  shift : Byte
  start : Nat
  t0    : Nat
  /-- `rx_ie`, the enable of the RX-edge interrupt (R29). -/
  ie    : Bool
  /-- `rx_prev`, the RX pin's level at the previous tick (R30). -/
  prev  : Bool
deriving DecidableEq, Repr

/-- The TX engine's registers (R32 to R36) and the levels it drives (R37, R38). -/
structure TxRegs where
  state    : TxState
  bit      : BitVec 3
  data     : Byte
  start    : Nat
  t0       : Nat
  /-- `tx_level[p]`, one bit per pin (R37). -/
  level    : PinSet
  /-- `dir_level` (R38). -/
  dirLevel : Bool
deriving DecidableEq, Repr

/-- What an instance emits in a tick (R43). The response of an accepted PUTCHAR, which comes at its
end, stands apart from that of the command applied in the same tick (log 17). -/
structure Outputs where
  resp     : Option Response
  txResp   : Option Response
  /-- The event `rx_notify` (R122, R192). -/
  rxNotify : Bool
deriving DecidableEq, Repr

/-- Ten positions that a far sender is putting on the RX line, and the tick of the first (R70,
log 11). -/
structure LineFrame where
  bits  : FrameBits
  start : Nat
deriving DecidableEq, Repr

/-- The host's PUTS loop (R153): nothing to do; a byte to issue; a byte in flight. -/
inductive PutsTask where
  | idle
  | ready (b : Byte) (rest : List Byte)
  | waiting (rest : List Byte)
deriving DecidableEq, Repr

/-- The host's READ or READLINE loop (R165, R166): nothing to do; AVAILABLE is the next command;
GETC is the next command. `line` says READLINE, `got` the bytes collected. -/
inductive ReadTask where
  | idle
  | checking (line : Bool) (maxLen : Nat) (got : List Byte)
  | taking (line : Bool) (maxLen : Nat) (got : List Byte)
deriving DecidableEq, Repr

/-- What READ and READLINE return (R88, R170): a count with the bytes written to the caller's
buffer, the sentinel among them, or the overrun error. -/
inductive ReadResult where
  | count (n : Nat) (out : List Byte)
  | overrunError
deriving DecidableEq, Repr

/-- What a component operation executed alone returned (log 16). -/
inductive OpResult where
  | none
  /-- CLAIM (R90) -/
  | claimed
  | pinConflictOverlap
  | pinConflictClaimed
  /-- COMPUTE (R95), and its ConfigError -/
  | bitTime (t : BitVec 20)
  | invalidBaud
  /-- PUSH (R100) -/
  | pushed (accepted : Bool)
  /-- POP (R101) -/
  | popped (b : Option Byte)
  /-- AVAIL (R102) -/
  | count (n : Nat)
  /-- TAKE_OVERRUN (R103) -/
  | overrunWas (b : Bool)
deriving DecidableEq, Repr

/-- One serial channel with its own pins, bit period, ring buffer and engines (R20, R205). -/
structure Inst where
  cfg        : ConfigRegs
  ring       : Ring
  rx         : RxRegs
  tx         : TxRegs
  out        : Outputs
  line       : Option LineFrame
  putsTask   : PutsTask
  putsResult : Option Status
  readTask   : ReadTask
  readResult : Option ReadResult
  /-- The number of free levels drawn so far (log 8). -/
  freeIx     : Nat
deriving DecidableEq, Repr

/-- The open parameters beside the number of instances (R11, D1, D5, D13, D16, D21, D26). No step
writes them (log 1, log 2). -/
structure Params where
  /-- `TIMER_WIDTH` (`W`): the counter counts modulo `2^W`; at least 23 (R198). -/
  timerWidth  : Nat
  /-- `NPINS`: pin identifiers are `0 .. NPINS-1`. -/
  npins       : Nat
  edgePolicy  : EdgePolicy
  lineTerm    : Byte
  sentinel    : Byte
  dirAsserted : Bool
deriving DecidableEq, Repr

/-- What the host asks for: a command word with the `cfg` port, or a call of a pseudo-operation,
which has no encoding of its own (R75, R79). -/
inductive HostReq where
  | word (cw : CommandWord) (cfg : CfgWord)
  | puts (bs : List Byte)
  | read (maxLen : Nat)
  | readline (maxLen : Nat)
deriving DecidableEq, Repr

/-- A host operation names its instance (R205). -/
structure HostCmd where
  chan : Nat
  req  : HostReq
deriving DecidableEq, Repr

/-- What the environment supplies in one tick (R42): the level of every pin, the pins whose writes
fail, the answer of the pin configuration, at most one host operation (R14; for the whole block:
DESIGN CHOICE, log 29), ten positions that a far sender begins to put on an instance's RX line (R70),
and the external reset (R217). -/
structure TickInput where
  pins     : PinSet
  wrFail   : PinSet
  pinCfgOk : Bool
  host     : Option HostCmd
  line     : Option (Nat × FrameBits)
  reset    : Bool
deriving DecidableEq, Repr

/-- The state of the block (R20), the inputs of the tick (R42), and the model's own fields. -/
structure State where
  params   : Params
  /-- `claimed` (R21) -/
  claimed  : PinSet
  insts    : List Inst
  /-- The microsecond counter (R13, R198). -/
  now      : Nat
  pins     : PinSet
  wrFail   : PinSet
  pinCfgOk : Bool
  /-- The environment's future tick inputs, the next one first (log 6). -/
  inputs   : List TickInput
  /-- The number of ticks taken; it indexes the free inputs (log 6) and dates a far sender's frame
  (log 11). -/
  ticks    : Nat
  /-- The instance that the operation being executed names (R205, log 3). -/
  cur      : Nat
  /-- What a component operation executed alone returned (log 16). -/
  result   : OpResult
deriving DecidableEq, Repr

/-- The reasons the machine stops with a fault. -/
inductive Fault where
  /-- POP, and so GETC, POP, READ and READLINE: the slot at `head` was never written (R47, R52, U7).
  Safe: the model stops where the spec gives no value; unreachable under the ring's invariant. -/
  | unwrittenSlot (index : SlotIx)
  /-- Every operation: it names an instance the block does not have (R205). Safe: the block has no
  port at which such an operation could be presented. -/
  | noSuchChannel (chan : Nat)
deriving DecidableEq, Repr

/-- The reasons the machine has no meaning for an operation. -/
inductive Refusal where
  /-- Raised by `exec` alone, for an operation with no meaning yet. Safe: the model stops. -/
  | notModelled (mnemonic : String)
deriving DecidableEq, Repr

/-- The parameters' defaults (R11). -/
def Params.default : Params where
  timerWidth  := Config.TIMER_WIDTH
  npins       := Config.NPINS
  edgePolicy  := .fallingOnly
  lineTerm    := Config.LINE_TERM
  sentinel    := Config.SENTINEL
  dirAsserted := Config.DIR_ASSERTED

/-- An instance after reset (R46). DESIGN CHOICE: where R46 says unspecified the value is 0
(log 4). -/
def Inst.reset : Inst where
  cfg        := ⟨0, 0, 0, 0, 0, false, false, false, false, false⟩
  ring       := ⟨[], 0, 0, false⟩
  rx         := ⟨.idle, 0, 0, 0, 0, false, true⟩
  tx         := ⟨.txIdle, 0, 0, 0, 0, 0, false⟩
  out        := ⟨none, none, false⟩
  line       := none
  putsTask   := .idle
  putsResult := none
  readTask   := .idle
  readResult := none
  freeIx     := 0

/-- The machine right after reset (R46, R215). The counter and the latched inputs are the
environment's; their values here are DESIGN CHOICE (log 5). -/
def State.reset : State where
  params   := Params.default
  claimed  := 0
  insts    := List.replicate Config.NINST Inst.reset
  now      := 0
  pins     := 0
  wrFail   := 0
  pinCfgOk := false
  inputs   := []
  ticks    := 0
  cur      := 0
  result   := .none

end Sys2Proof.Machine
end

