-- ==== Sys2Proof/Machine/Flags.lean ====
section
/-! DEFINITION. The flags of R41 that are computed, and the conditions the engines wait on. -/

namespace Sys2Proof.Machine

/-- Guarded wait (R44): `now < start or now - start >= target`, unmasked. -/
def waitDone (start : Nat) (target : Nat) (now : Nat) : Bool :=
  decide (now < start) || decide (target ≤ now - start)

/-- `(now - t0) mod 2^W`, for a counter of `w` bits (R45). -/
def elapsed (w : Nat) (t0 now : Nat) : Nat := (((now : Int) - (t0 : Int)) % (2 ^ w : Nat)).toNat

/-- Plain delay (R45): `((now - t0) mod 2^W) >= d`. -/
def delayDone (w : Nat) (t0 : Nat) (d : Nat) (now : Nat) : Bool := decide (d ≤ elapsed w t0 now)

/-- The value of the counter at the next tick: `(now + 1) mod 2^W` (R13, R198). -/
def nextStamp (w : Nat) (now : Nat) : Nat := (now + 1) % 2 ^ w

/-- `Edge(prev, level)` (R115, R129). -/
def edge (policy : EdgePolicy) (prev level : Bool) : Bool :=
  match policy with
  | .fallingOnly => prev && !level
  | .anyEdge => prev != level

/-- `tx_busy` (R39). -/
def Inst.txBusy (c : Inst) : Bool := c.tx.state != .txIdle

/-- Admission of PUTCHAR (R141). -/
def Inst.acceptsPutchar (c : Inst) : Bool := c.cfg.inited && c.cfg.txen && !c.txBusy

/-- The ring holds `N - 1` bytes (R55). -/
def Ring.full (r : Ring) : Bool := r.tail + 1 == r.head

/-- The ring holds no byte (R55). -/
def Ring.empty (r : Ring) : Bool := r.head == r.tail

end Sys2Proof.Machine
end

