-- ==== Sys2Proof/WellFormed.lean ====
section
/-! DEFINITION. Which operation terms are well formed, for a block with a counter of `w` bits and
`npins` pins. -/

namespace Sys2Proof

/-- The set names pins that exist (R21). -/
def PinSet.exists? (npins : Nat) (S : PinSet) : Bool := decide (S < 2 ^ npins)

/-- `CFG[79:78]` must be 0, and the record names pins that exist (R22, R82); the direction pin is
ignored without `HDX`. -/
def CfgRecord.wf (npins : Nat) (c : CfgRecord) : Bool :=
  c.zero == 0 && PinSet.exists? npins c.txPins && decide (c.rxPin < npins) &&
    (!c.hdx || decide (c.dirPin < npins))

/-- READ and READLINE require `max_len >= 1` (R165, D26); INIT and CLAIM pins that exist and INIT a
record whose reserved bits are 0 (R82, R90); RXSTEP and TXSTEP a value of the counter (R115, R143).
Every other operand is legal (R77, R95). -/
def Instr.wf (w npins : Nat) : Instr → Bool
  | .init cfg => cfg.wf npins
  | .read n | .readline n => decide (1 ≤ n)
  | .claim txPins rxPin => PinSet.exists? npins txPins && decide (rxPin < npins)
  | .rxStep now _ | .txStep now => decide (now < 2 ^ w)
  | .putchar _ | .getc | .available | .overrun | .frame _ | .puts _ | .compute _ | .push _ | .pop
  | .avail | .takeOverrun => true

end Sys2Proof
end

