-- ==== Sys2Proof/Decode.lean ====
section
/-! DEFINITION. The decoder of the command port (R79 to R82) and of the wire frame (R70), total and
rejecting by name, and after it the encoder, written from the same tables. -/

namespace Sys2Proof

/-! ## Decoding -/

/-- Why a word is no operation: the reserved words of R81, and ten line positions that are no
well-formed frame (R76). -/
inductive DecodeError where
  /-- `OP` is `0x0` or `0x6 .. 0xF`. -/
  | reservedOp (op : BitVec 4)
  /-- `CW[11:8]` is not 0. -/
  | zeroFieldSet (field : BitVec 4)
  /-- `DATA` is not 0 on an operation that has no operand. -/
  | dataFieldSet (data : Byte)
  /-- The first position is not the start bit, or the last is not the stop bit. -/
  | malformedFrame (bits : FrameBits)
deriving DecidableEq, Repr

/-- `CW[15:12]` (R79). -/
def opField (cw : CommandWord) : BitVec 4 := cw.extractLsb' 12 4
/-- `CW[11:8]` (R79). -/
def zeroField (cw : CommandWord) : BitVec 4 := cw.extractLsb' 8 4
/-- `CW[7:0]` (R79). -/
def dataField (cw : CommandWord) : Byte := cw.extractLsb' 0 8

/-- `ceil(log2 NPINS)`, the width of a pin field (R22, R82). -/
def pinIdBits (npins : Nat) : Nat := if npins ≤ 1 then 0 else Nat.log2 (npins - 1) + 1

/-- The width of the `cfg` port: 80 for 32 pins (R82). -/
def cfgBits (npins : Nat) : Nat := 32 + npins + 2 * pinIdBits npins + 6

/-- The `n` bits of `w` from bit `lo` up. -/
def cfgField (w : CfgWord) (lo n : Nat) : Nat := w / 2 ^ lo % 2 ^ n

/-- The fields of `CFG` for `npins` pins: packed in the order of the table, the sets `npins` bits and
the pin fields `ceil(log2 npins)` bits (R82). -/
def decodeCfg (npins : Nat) (w : CfgWord) : CfgRecord :=
  let b := pinIdBits npins
  let flags := 32 + npins + 2 * b
  { baud   := BitVec.ofNat 32 (cfgField w 0 32)
    txPins := cfgField w 32 npins
    rxPin  := cfgField w (32 + npins) b
    dirPin := cfgField w (32 + npins + b) b
    rxen   := w.testBit flags
    txen   := w.testBit (flags + 1)
    hdx    := w.testBit (flags + 2)
    notify := w.testBit (flags + 3)
    zero   := BitVec.ofNat 2 (cfgField w (flags + 4) 2) }

/-- The operations that have a command word (R80). -/
inductive HostOp where
  | init | putchar | getc | available | overrun
deriving DecidableEq, Repr

/-- A row of the operation codes (R80): a word `w` selects it when `w & mask = pattern`. -/
structure OpRow where
  op      : HostOp
  pattern : CommandWord
  mask    : CommandWord
deriving DecidableEq, Repr

/-- The table of R80. -/
def opRows : List OpRow :=
  [⟨.init,      0x1000, 0xFFFF⟩,
   ⟨.putchar,   0x2000, 0xFF00⟩,
   ⟨.getc,      0x3000, 0xFFFF⟩,
   ⟨.available, 0x4000, 0xFFFF⟩,
   ⟨.overrun,   0x5000, 0xFFFF⟩]

/-- The row a word selects (R80). -/
def OpRow.selects (r : OpRow) (cw : CommandWord) : Bool := cw &&& r.mask == r.pattern

/-- The operation of a row with the operands the word and the `cfg` port give it (R80). -/
def HostOp.build (npins : Nat) (op : HostOp) (cw : CommandWord) (cfg : CfgWord) : Instr :=
  match op with
  | .init => .init (decodeCfg npins cfg)
  | .putchar => .putchar (dataField cw)
  | .getc => .getc
  | .available => .available
  | .overrun => .overrun

/-- The name of the reason for which a word that selects no row is reserved (R81). -/
def reservedBecause (cw : CommandWord) : DecodeError :=
  if opField cw = 0 ∨ 6 ≤ (opField cw).toNat then .reservedOp (opField cw)
  else if zeroField cw ≠ 0 then .zeroFieldSet (zeroField cw)
  else .dataFieldSet (dataField cw)

/-- The decoder of the command port: a command word and the word on the `cfg` port of a block with
`npins` pins (R80, R81). -/
def decode (npins : Nat) (cw : CommandWord) (cfg : CfgWord) : Except DecodeError Instr :=
  match opRows.find? (·.selects cw) with
  | some r => .ok (r.op.build npins cw cfg)
  | none => .error (reservedBecause cw)

/-- The decoder of ten line positions: start bit 0 first, data bits least significant first, stop
bit 1 (R70). -/
def decodeFrame (bits : FrameBits) : Except DecodeError Instr :=
  if bits.getLsbD 9 = Config.START_LEVEL ∧ bits.getLsbD 0 = Config.STOP_LEVEL then
    .ok (.frame (bits.extractLsb' 1 8).reverse)
  else .error (.malformedFrame bits)

/-! ## Encoding -/

/-- The bits of an operation that has an encoding: a command word with the word on the `cfg` port,
or ten line positions (R75: the others have none of their own). -/
inductive Words where
  | command (cw : CommandWord) (cfg : CfgWord)
  | wire (bits : FrameBits)
deriving DecidableEq, Repr

/-- The bits of a one-bit field. -/
def bitOf (b : Bool) : BitVec 1 := BitVec.ofBool b

/-- The record's sets and pins fit in the fields of `CFG` (R82). -/
def CfgRecord.fits (npins : Nat) (c : CfgRecord) : Bool :=
  decide (c.txPins < 2 ^ npins) && decide (c.rxPin < 2 ^ pinIdBits npins) &&
    decide (c.dirPin < 2 ^ pinIdBits npins)

/-- Fields put one above the other, the first, of the width beside it, lowest. -/
def packFields : List (Nat × Nat) → Nat
  | [] => 0
  | (width, v) :: rest => v + 2 ^ width * packFields rest

/-- The `CFG` word of a record (R82). -/
def encodeCfg (npins : Nat) (c : CfgRecord) : CfgWord :=
  packFields [(32, c.baud.toNat), (npins, c.txPins), (pinIdBits npins, c.rxPin),
    (pinIdBits npins, c.dirPin), (1, c.rxen.toNat), (1, c.txen.toNat), (1, c.hdx.toNat),
    (1, c.notify.toNat), (2, c.zero.toNat)]

/-- The ten positions of the frame that carries `b` (R70). -/
def encodeFrame (b : Byte) : FrameBits :=
  bitOf Config.START_LEVEL ++ b.reverse ++ bitOf Config.STOP_LEVEL

/-- The command word of PUTCHAR (R140: `CW = 0x2000 | b`). -/
def putcharWord (b : Byte) : CommandWord := 0x2000 ||| b.setWidth 16

/-- The operands fit in the fields of the operation's encoding. -/
def Instr.fits (npins : Nat) : Instr → Bool
  | .init cfg => cfg.fits npins
  | .putchar _ | .getc | .available | .overrun | .frame _ | .puts _ | .read _ | .readline _
  | .claim _ _ | .compute _ | .push _ | .pop | .avail | .takeOverrun | .rxStep _ _ | .txStep _ => true

/-- The encoder for `npins` pins (R70, R80, R82); the `cfg` port is 0 where the operation does not
read it. -/
def encode (npins : Nat) : Instr → Option Words
  | .init cfg => some (.command 0x1000 (encodeCfg npins cfg))
  | .putchar b => some (.command (putcharWord b) 0)
  | .getc => some (.command 0x3000 0)
  | .available => some (.command 0x4000 0)
  | .overrun => some (.command 0x5000 0)
  | .frame b => some (.wire (encodeFrame b))
  | .puts _ | .read _ | .readline _ | .claim _ _ | .compute _ | .push _ | .pop | .avail
  | .takeOverrun | .rxStep _ _ | .txStep _ => none

/-- The decoder of either kind of bits. -/
def Words.decode (npins : Nat) : Words → Except DecodeError Instr
  | .command cw cfg => Sys2Proof.decode npins cw cfg
  | .wire bits => decodeFrame bits

/-- The command words of PUTS: those of its PUTCHARs (R87, R153). -/
def putsWords (bs : List Byte) : List CommandWord := bs.map putcharWord

/-! ## Bits numbered as the opcode table numbers them -/

/-- The command word and `cfg` word in a number whose bit 0 is bit 0 of the command word; the `cfg`
word counts on from bit 16 (log 24). -/
def tableCommand (nbits w : Nat) : CommandWord × CfgWord :=
  let v := w % 2 ^ nbits
  (BitVec.ofNat 16 v, v / 65536)

/-- The bits are those of the FRAME row: ten bits, or ten bits in two whole bytes. The second is told
from a command word by its start bit 0, its stop bit 1 and the zeros above, since a command word with
those zeros is reserved (R81, log 23). -/
def isFrameRow (nbits w : Nat) : Bool :=
  nbits == Config.FRAME_BITS || (nbits == 16 && decide (w < 2 ^ 9) && w % 2 == 1)

/-- The instruction the decoder reads from bits numbered as the opcode table numbers them (log 23,
log 24), with the default number of pins, that of the reset state. -/
def decodeTableWord (nbits w : Nat) : Option Instr :=
  if isFrameRow nbits w then (decodeFrame (BitVec.ofNat 10 w)).toOption
  else (decode Config.NPINS (tableCommand nbits w).1 (tableCommand nbits w).2).toOption

end Sys2Proof
end

