-- ==== Sys2Proof/Machine/Operands.lean ====
section
/-! DEFINITION. Operand assembly: sets of pins, the bits of a byte on the line, status codes and the
response word. -/

namespace Sys2Proof.Machine

/-! ## Sets of pins (R17) -/

/-- `p ∈ S` -/
def PinSet.has (S : PinSet) (p : Nat) : Bool := S.testBit p

/-- `{p}` -/
def PinSet.only (p : Nat) : PinSet := 2 ^ p

/-- The levels `S` with that of pin `p` replaced by `v`. -/
def PinSet.put (S : PinSet) (p : Nat) (v : Bool) : PinSet :=
  if v then S ||| PinSet.only p else (S ||| PinSet.only p) ^^^ PinSet.only p

/-- The members of a set in ascending order (R137). -/
def PinSet.members (S : PinSet) : List Nat := (List.range (Nat.log2 S + 1)).filter (PinSet.has S)

/-! ## The bits of a byte (R56, R73, R74) -/

/-- `(v >> 1) | (level << 7)`: the receiver's assembly (R73). -/
def shiftIn (v : Byte) (level : Bool) : Byte := (v >>> 1) ||| ((BitVec.ofBool level).setWidth 8 <<< 7)

/-- `tx_data[i]`: the transmitter's assembly (R74). -/
def dataBit (b : Byte) (i : BitVec 3) : Bool := b.getLsbD i.toNat

/-- The level of position `k` of ten line positions (R70); 1, the idle level, beyond the last. -/
def framePosition (bits : FrameBits) (k : Nat) : Bool :=
  if k < Config.FRAME_BITS then bits.getLsbD (9 - k) else Config.STOP_LEVEL

/-! ## Status codes and response words (R79, R186) -/

/-- The numeric code of a status (R186). -/
def Status.code : Status → BitVec 4
  | .ok => 0x0
  | .invalidBaud => 0x1
  | .pinOverlap => 0x2
  | .pinClaimed => 0x3
  | .pinConfigRejected => 0x4
  | .pinWriteError => 0x5
  | .overrunError => 0x6
  | .refused => 0xF

/-- The response word: `STATUS`, four zeros, `VALUE` (R79). -/
def Response.word (r : Response) : ResponseWord := r.status.code ++ (0 : BitVec 4) ++ r.value

/-- `VALUE` of a count `n` of READ or READLINE (R88). A count above 255, which a long buffer and bytes
that arrive while the loop runs allow (R165), does not fit the eight bits and the spec states no
`VALUE` for it: a free value. DESIGN CHOICE (log 26). -/
def countValue (n : Nat) : Byte := if n < 256 then BitVec.ofNat 8 n else Config.wideCountValue n

/-- The result of READ and READLINE in the response-word encoding: the tag is `STATUS`, the count is
`VALUE` (R88). `VALUE` is a free value for a count above 255 (log 26) and for OverrunError, which
records none (R186; DESIGN CHOICE, log 30). -/
def ReadResult.word : ReadResult → ResponseWord
  | .count n _ => Response.word ⟨.ok, countValue n⟩
  | .overrunError => Response.word ⟨.overrunError, Config.overrunErrorValue⟩

end Sys2Proof.Machine
end

