-- ==== Sys2Proof/Machine/Ops.lean ====
section
/-! DEFINITION. The shared operations: the ring space, the ring buffer, the pin registry, the bit
period, the addressed instance, responses, pin writes and the abort, and entry into and return from
the RX edge interrupt. -/

namespace Sys2Proof.Machine

/-- What every step of the machine answers. -/
abbrev Answer := Host.Outcome State Fault Refusal

/-- Go on with a next state; a fault or a refusal stays. -/
def andThen (o : Answer) (f : State → Answer) : Answer :=
  match o with
  | .next s => f s
  | .fault r => .fault r
  | .refused r => .refused r

/-! ## Ring space (R50 to R53) -/

/-- `MemRead(i, 1)` (R52): no value where nothing was written (R47). -/
def Memory.read (m : Memory) (a : Nat) : Option Byte :=
  match m with
  | [] => none
  | (b, v) :: rest => if a = b then some v else Memory.read rest a

/-- `MemWrite(i, 1, v)` (R53), keeping the indices strictly rising. -/
def Memory.write (m : Memory) (a : Nat) (v : Byte) : Memory :=
  match m with
  | [] => [(a, v)]
  | (b, w) :: rest =>
    if a < b then (a, v) :: (b, w) :: rest
    else if a = b then (a, v) :: rest
    else (b, w) :: Memory.write rest a v

/-- Every listed index is at least `lo`, and the indices rise strictly. -/
def Memory.risesFrom (lo : Nat) : Memory → Bool
  | [] => true
  | (b, _) :: rest => decide (lo ≤ b) && Memory.risesFrom (b + 1) rest

/-- The canonical form: indices strictly rising, each a slot of the ring (R50, R58). An unlisted
slot holds no value, so no entry equals what an unlisted one reads as. -/
def Memory.wf (m : Memory) : Bool := Memory.risesFrom 0 m && m.all fun c => decide (c.1 < Config.N)

/-! ## Ring buffer (R100 to R103) -/

/-- PUSH: the ring afterwards, and whether the byte was taken (R100). -/
def Ring.push (r : Ring) (b : Byte) : Ring × Bool :=
  if r.full then ({ r with overrun := true }, false)
  else ({ r with slots := Memory.write r.slots r.tail.toNat b, tail := r.tail + 1 }, true)

/-- POP: the ring afterwards, and the oldest byte if there is one (R101). A slot nothing has written
faults (R47). -/
def Ring.pop (r : Ring) : Except Fault (Ring × Option Byte) :=
  if r.empty then .ok (r, none)
  else
    match Memory.read r.slots r.head.toNat with
    | some b => .ok ({ r with head := r.head + 1 }, some b)
    | none => .error (.unwrittenSlot r.head)

/-- AVAIL: `(tail - head + N) mod N` (R102). -/
def Ring.avail (r : Ring) : Nat := (r.tail.toNat + Config.N - r.head.toNat) % Config.N

/-- TAKE_OVERRUN: the ring afterwards, and the flag as it was (R103). -/
def Ring.takeOverrun (r : Ring) : Ring × Bool := ({ r with overrun := false }, r.overrun)

/-! ## Pin registry and bit period (R90, R95) -/

/-- The outcomes of CLAIM: PinConflict with its two causes, or the new claimed set (R90). -/
inductive ClaimOutcome where
  | overlap
  | alreadyClaimed
  | ok (claimed : PinSet)
deriving DecidableEq, Repr

/-- CLAIM (R90). -/
def claimPins (claimed txPins : PinSet) (rxPin : Nat) : ClaimOutcome :=
  if PinSet.has txPins rxPin then .overlap
  else if (txPins ||| PinSet.only rxPin) &&& claimed ≠ 0 then .alreadyClaimed
  else .ok (claimed ||| txPins ||| PinSet.only rxPin)

/-- COMPUTE: the bit period in microseconds, or none for a baud that is not positive (R95). -/
def computeBitTime (baud : Int) : Option Nat :=
  if baud ≤ 0 then none
  else
    let d := baud.toNat
    let base := Config.US_PER_S / d
    if Config.US_PER_S_X100 / d - 100 * base > Config.ROUND_THRESHOLD then some (base + 1)
    else some base

/-! ## The addressed instance (R205) -/

/-- The instance that the operation names. -/
def State.inst? (s : State) : Option Inst := s.insts[s.cur]?

/-- The state with the addressed instance replaced. -/
def State.setInst (s : State) (c : Inst) : State := { s with insts := s.insts.set s.cur c }

/-- The state with the operations that follow addressed to instance `k`. -/
def State.address (s : State) (k : Nat) : State := { s with cur := k }

/-- Go on with the addressed instance; an instance the block does not have faults. -/
def State.onInst (s : State) (f : Inst → Answer) : Answer :=
  match s.inst? with
  | some c => f c
  | none => .fault (.noSuchChannel s.cur)

/-- Update the addressed instance. -/
def State.update (s : State) (f : Inst → Inst) : Answer := s.onInst fun c => .next (s.setInst (f c))

/-- Update the addressed instance by an operation that may fault. -/
def State.updateE (s : State) (f : Inst → Except Fault Inst) : Answer :=
  s.onInst fun c =>
    match f c with
    | .ok c' => .next (s.setInst c')
    | .error e => .fault e

/-! ## Responses (R79, R185, R196) -/

/-- Emit the response of the command applied in this tick (R79). -/
def Inst.respond (c : Inst) (st : Status) (v : Byte) : Inst :=
  { c with out := { c.out with resp := some ⟨st, v⟩ } }

/-- Refused: no state changes, and the response says so (R81, R180, R196). -/
def Inst.refuse (c : Inst) : Inst := c.respond .refused 0

/-- Emit the response of the PUTCHAR that ends in this tick (R79, R147, R151). -/
def Inst.respondTx (c : Inst) (st : Status) : Inst :=
  { c with out := { c.out with txResp := some ⟨st, 0⟩ } }

/-! ## Pin reads and writes (R136, R137, R200) -/

/-- An output pin of an instance. -/
inductive OutPin where
  | tx (p : Nat)
  | dir
deriving DecidableEq, Repr

/-- The level of the far sender's frame in a tick: position `k` from `k` bit periods after its start
to `k + 1`; none when it is over (R70). Ticks are counted without a wrap (log 11). -/
def LineFrame.levelAt (f : LineFrame) (bitTime tick : Nat) : Option Bool :=
  let e := tick - f.start
  if e < Config.FRAME_BITS * bitTime then some (framePosition f.bits (e / bitTime)) else none

/-- `PinRead()`: the level of the instance's RX pin in this tick (R42, R200), which is the far
sender's while it is sending a frame (log 11). -/
def Inst.pinRead (c : Inst) (pins : PinSet) (tick : Nat) : Bool :=
  match c.line with
  | some f => (f.levelAt c.cfg.bitTime.toNat tick).getD (PinSet.has pins c.cfg.rxPin)
  | none => PinSet.has pins c.cfg.rxPin

/-- The level register of an output pin takes `v`. -/
def Inst.setLevel (c : Inst) (o : OutPin) (v : Bool) : Inst :=
  match o with
  | .tx p => { c with tx := { c.tx with level := PinSet.put c.tx.level p v } }
  | .dir => { c with tx := { c.tx with dirLevel := v } }

/-- The pin identifier of an output pin. -/
def Inst.outPinId (c : Inst) : OutPin → Nat
  | .tx p => p
  | .dir => c.cfg.dirPin

/-- `PinWrite(p, v)`: the instance afterwards, and the pin if the write failed (R136). -/
def Inst.pinWrite (wrFail : PinSet) (o : OutPin) (v : Bool) (c : Inst) : Inst × Option OutPin :=
  if PinSet.has wrFail (c.outPinId o) then (c, some o) else (c.setLevel o v, none)

/-- Write pins in the order given; the first failure ends it (R137). -/
def Inst.pinWrites (wrFail : PinSet) (v : Bool) : List Nat → Inst → Inst × Option OutPin
  | [], c => (c, none)
  | p :: ps, c =>
    match c.pinWrite wrFail (.tx p) v with
    | (c', none) => Inst.pinWrites wrFail v ps c'
    | (c', some o) => (c', some o)

/-- `WriteTx(v)`: every TX pin of the instance, in ascending order (R137). -/
def Inst.writeTx (wrFail : PinSet) (v : Bool) (c : Inst) : Inst × Option OutPin :=
  Inst.pinWrites wrFail v (PinSet.members c.cfg.txPins) c

/-- The level register of a pin takes an unspecified value: a FREE VALUE (R136, R151, U3, U4,
log 8). `k` is the instance's place in the block. -/
def Inst.loseLevel (k : Nat) (o : OutPin) (c : Inst) : Inst :=
  { c.setLevel o (Config.freeLevel k c.freeIx) with freeIx := c.freeIx + 1 }

/-- `Abort(p)` (R151). -/
def Inst.abort (k : Nat) (o : OutPin) (c : Inst) : Inst :=
  let c1 := c.loseLevel k o
  let c2 := if c1.cfg.hdx then c1.loseLevel k .dir else c1
  { c2 with tx := { c2.tx with state := .txIdle } }.respondTx .pinWriteError

/-- Go on after a write, or abort where it failed (R151: "ends the step at once"). -/
def Inst.orAbort (k : Nat) (r : Inst × Option OutPin) (f : Inst → Inst) : Inst :=
  match r.2 with
  | some o => r.1.abort k o
  | none => f r.1

/-- Whether the block drives pin `p` from this instance: from a successful INIT with `TXEN` on, its
TX pins, and its direction pin in half-duplex (R37, R179, R216). -/
def Inst.drives (c : Inst) (p : Nat) : Bool :=
  c.cfg.inited && c.cfg.txen && (PinSet.has c.cfg.txPins p || (c.cfg.hdx && p == c.cfg.dirPin))

/-- The level on an output pin as a receiver sees it in a tick, read as the tick begins (log 22, R37,
R38); none where the instance does not drive it. -/
def Inst.lineLevel (c : Inst) (p : Nat) : Option Bool :=
  if c.drives p then
    some (if PinSet.has c.cfg.txPins p then PinSet.has c.tx.level p else c.tx.dirLevel)
  else none

/-! ## The RX edge interrupt (R191, R194, R195) -/

/-- Step 1: disable further RX-edge interrupts (R116). -/
def Inst.maskRx (c : Inst) : Inst := { c with rx := { c.rx with ie := false } }

/-- Restore interrupt enablement, as every exit path must (R117, R123, R195). -/
def Inst.unmaskRx (c : Inst) : Inst := { c with rx := { c.rx with ie := true } }

/-- Entry into the RX edge interrupt (R194): `rx_ie <- 0`; with the pin low `rx_t0 <- now` and
`rx_state <- SamplingStartHalf` (R116), otherwise the noise-rejection exit (R117). -/
def Inst.takeRxEdge (now : Nat) (level : Bool) (c : Inst) : Inst :=
  let c1 := c.maskRx
  if level then c1.unmaskRx
  else { c1 with rx := { c1.rx with t0 := now, state := .samplingStartHalf } }

/-- Return from the RX edge interrupt (R123, R195): `rx_ie <- 1`, `rx_state <- Idle`. -/
def Inst.leaveRxEdge (c : Inst) : Inst :=
  let c1 := c.unmaskRx
  { c1 with rx := { c1.rx with state := .idle } }

/-- The event `rx_notify` (R122, R204). -/
def Inst.emitNotify (c : Inst) : Inst := { c with out := { c.out with rxNotify := true } }

end Sys2Proof.Machine
end

