-- ==== Sys2Proof/Machine/BitTiming.lean ====
section
/-! DEFINITION. BitTimingCalculator: COMPUTE (41_bit_timing.md). -/

namespace Sys2Proof.Machine

/-- COMPUTE executed alone (R95): nothing is written but the result. -/
def execCompute (baud : BitVec 32) (s : State) : Answer :=
  match computeBitTime baud.toInt with
  | none => .next { s with result := .invalidBaud }
  | some t => .next { s with result := .bitTime (BitVec.ofNat 20 t) }

end Sys2Proof.Machine
end

