-- ==== Sys2Proof/Machine/Init.lean ====
section
/-! DEFINITION. Initialisation: INIT (46_init.md). -/

namespace Sys2Proof.Machine

/-- The pins INIT claims beside the RX pin: the TX pins, and with `HDX` the direction pin (R175,
R176). -/
def initTxSet (cfg : CfgRecord) : PinSet :=
  if cfg.hdx then cfg.txPins ||| PinSet.only cfg.dirPin else cfg.txPins

/-- What the tests of INIT come to: a cause of ConfigError, or the claimed set and the bit period to
commit. -/
inductive InitOutcome where
  | fails (cause : Status)
  | commits (claimed : PinSet) (bitTime : Nat)
deriving DecidableEq, Repr

/-- Every pin INIT claims exists. With `NPINS` a power of two every record has this. -/
def initPinsExist (npins : Nat) (cfg : CfgRecord) : Bool :=
  PinSet.exists? npins (initTxSet cfg) && decide (cfg.rxPin < npins)

/-- The four tests of INIT in the order overlap, claimed, baud, platform; the first that applies is
reported (R175, R177). DESIGN CHOICE (log 28): the platform rejects a pin it does not have. -/
def initTests (npins : Nat) (cfg : CfgRecord) (claimed : PinSet) (pinCfgOk : Bool) : InitOutcome :=
  if cfg.hdx && (PinSet.has cfg.txPins cfg.dirPin || cfg.dirPin == cfg.rxPin) then
    .fails .pinOverlap
  else
    match claimPins claimed (initTxSet cfg) cfg.rxPin with
    | .overlap => .fails .pinOverlap
    | .alreadyClaimed => .fails .pinClaimed
    | .ok claimed' =>
      match computeBitTime cfg.baud.toInt with
      | none => .fails .invalidBaud
      | some t =>
        if pinCfgOk && initPinsExist npins cfg then .commits claimed' t
        else .fails .pinConfigRejected

/-- The configuration registers INIT commits (R175). -/
def initRegs (cfg : CfgRecord) (bitTime : Nat) : ConfigRegs where
  baud    := cfg.baud
  bitTime := BitVec.ofNat 20 bitTime
  rxPin   := cfg.rxPin
  txPins  := cfg.txPins
  dirPin  := cfg.dirPin
  rxen    := cfg.rxen
  txen    := cfg.txen
  hdx     := cfg.hdx
  notify  := cfg.notify
  inited  := true

/-- The commit of INIT on the instance (R175, R178, R179): the ring, the engines' state registers
and `rx_prev` are not touched (R182). -/
def Inst.initCommit (p : Params) (cfg : CfgRecord) (bitTime : Nat) (c : Inst) : Inst :=
  { c with
    cfg := initRegs cfg bitTime
    rx := { c.rx with ie := if cfg.rxen then true else c.rx.ie }
    tx := { c.tx with
      level := if cfg.txen then c.tx.level ||| cfg.txPins else c.tx.level
      dirLevel := if cfg.txen && cfg.hdx then !p.dirAsserted else c.tx.dirLevel } }

/-- INIT (R175): refused on an instance already initialised and for a record with reserved bits set
(R181, R82); all or nothing otherwise. -/
def execInit (cfg : CfgRecord) (s : State) : Answer :=
  s.onInst fun c =>
    if c.cfg.inited || cfg.zero != 0 then .next (s.setInst c.refuse)
    else
      match initTests s.params.npins cfg s.claimed s.pinCfgOk with
      | .fails cause => .next (s.setInst (c.respond cause 0))
      | .commits claimed t =>
        .next { s.setInst ((c.initCommit s.params cfg t).respond .ok 0) with claimed := claimed }

end Sys2Proof.Machine
end

