-- ==== Sys2Proof/Machine/RingBuffer.lean ====
section
/-! DEFINITION. RingBuffer: PUSH, POP, AVAIL, TAKE_OVERRUN, and the host operations GETC, AVAILABLE,
OVERRUN (42_ring_buffer.md). -/

namespace Sys2Proof.Machine

/-! ## Component operations -/

/-- PUSH executed alone (R100). -/
def execPush (b : Byte) (s : State) : Answer :=
  s.onInst fun c =>
    let (r, accepted) := c.ring.push b
    .next { s.setInst { c with ring := r } with result := .pushed accepted }

/-- POP executed alone (R101). -/
def execPop (s : State) : Answer :=
  s.onInst fun c =>
    match c.ring.pop with
    | .ok (r, b) => .next { s.setInst { c with ring := r } with result := .popped b }
    | .error e => .fault e

/-- AVAIL executed alone (R102). -/
def execAvail (s : State) : Answer :=
  s.onInst fun c => .next { s with result := .count c.ring.avail }

/-- TAKE_OVERRUN executed alone (R103). -/
def execTakeOverrun (s : State) : Answer :=
  s.onInst fun c =>
    let (r, was) := c.ring.takeOverrun
    .next { s.setInst { c with ring := r } with result := .overrunWas was }

/-! ## Host operations -/

/-- The effect of an admitted GETC, and the byte it returns, 0 when the ring is empty (R105). -/
def Inst.getc (c : Inst) : Except Fault (Inst × Byte) :=
  match c.ring.pop with
  | .ok (r, b) =>
    let v := b.getD 0
    .ok ({ c with ring := r }.respond .ok v, v)
  | .error e => .error e

/-- The effect of an admitted AVAILABLE, and the count it returns (R106). -/
def Inst.available (c : Inst) : Inst × Nat :=
  (c.respond .ok (BitVec.ofNat 8 c.ring.avail), c.ring.avail)

/-- The effect of an admitted OVERRUN, and the flag it returns (R107). -/
def Inst.overrun (c : Inst) : Inst × Bool :=
  let (r, was) := c.ring.takeOverrun
  ({ c with ring := r }.respond .ok (if was then 0x01 else 0x00), was)

/-- Whether the host may consume from the instance: after a successful INIT (R180), and while no READ
or READLINE loop of the instance runs, which is the one consumer then (R65, R228, U10, log 13). -/
def Inst.admitsConsumer (c : Inst) : Bool := c.cfg.inited && c.readTask == .idle

/-- GETC (R105); refused before a successful INIT (R180) and to a second consumer (R65). -/
def execGetc (s : State) : Answer :=
  s.updateE fun c =>
    if c.admitsConsumer then c.getc.map Prod.fst else .ok c.refuse

/-- AVAILABLE (R106); refused before a successful INIT (R180). -/
def execAvailable (s : State) : Answer :=
  s.update fun c => if c.cfg.inited then c.available.1 else c.refuse

/-- OVERRUN (R107); refused before a successful INIT (R180) and to a second consumer (R65). -/
def execOverrun (s : State) : Answer :=
  s.update fun c => if c.admitsConsumer then c.overrun.1 else c.refuse

end Sys2Proof.Machine
end

