-- ==== Sys2Proof/Machine/LineReader.lean ====
section
/-! DEFINITION. LineReader: READ and READLINE, loops of the host operations OVERRUN, AVAILABLE and
GETC, one command per tick (45_line_reader.md, R87). -/

namespace Sys2Proof.Machine

/-- The loop ends: the sentinel is written after the `n` bytes collected (R165). -/
def Inst.readFinish (p : Params) (got : List Byte) (c : Inst) : Inst :=
  { c with readTask := .idle, readResult := some (.count got.length (got ++ [p.sentinel])) }

/-- The call of READ (`line = false`) or READLINE (`line = true`): its first command, OVERRUN.
If the flag was set the call returns OverrunError and takes no byte (R165, R168). Refused before
INIT (R180), while another READ or READLINE of the instance runs (R65, log 13) and with
`max_len = 0` (U8). -/
def Inst.readBegin (line : Bool) (maxLen : Nat) (c : Inst) : Inst :=
  if !c.admitsConsumer || maxLen == 0 then c.refuse
  else
    let (c1, was) := c.overrun
    if was then { c1 with readResult := some .overrunError }
    else { c1 with readTask := .checking line maxLen [], readResult := none }

/-- The loop's next command, if a loop runs: AVAILABLE, then GETC while there is a byte and room for
it; a line terminator read by READLINE is dropped and ends the loop (R165, R166). DESIGN CHOICE
(log 27): the loop's test evaluates AVAILABLE first, so that a closing AVAILABLE is issued also when
`max_len - 1` bytes are collected. -/
def Inst.readAdvance (p : Params) (c : Inst) : Except Fault Inst :=
  match c.readTask with
  | .idle => .ok c
  | .checking line maxLen got =>
    let (c1, n) := c.available
    if n > 0 ∧ got.length < maxLen - 1 then .ok { c1 with readTask := .taking line maxLen got }
    else .ok (c1.readFinish p got)
  | .taking line maxLen got =>
    match c.getc with
    | .error e => .error e
    | .ok (c1, b) =>
      if line && b == p.lineTerm then .ok (c1.readFinish p got)
      else .ok { c1 with readTask := .checking line maxLen (got ++ [b]) }

/-- READ (R165). -/
def execRead (maxLen : Nat) (s : State) : Answer := s.update (Inst.readBegin false maxLen)

/-- READLINE (R166). -/
def execReadline (maxLen : Nat) (s : State) : Answer := s.update (Inst.readBegin true maxLen)

end Sys2Proof.Machine
end

