-- ==== Sys2Proof/Machine/PinRegistry.lean ====
section
/-! DEFINITION. PinRegistry: CLAIM (40_pin_registry.md). -/

namespace Sys2Proof.Machine

/-- CLAIM executed alone (R90): `claimed` grows on success and is unchanged on PinConflict. -/
def execClaim (txPins : PinSet) (rxPin : Nat) (s : State) : Answer :=
  match claimPins s.claimed txPins rxPin with
  | .overlap => .next { s with result := .pinConflictOverlap }
  | .alreadyClaimed => .next { s with result := .pinConflictClaimed }
  | .ok claimed => .next { s with claimed := claimed, result := .claimed }

end Sys2Proof.Machine
end

