-- ==== Sys2Proof/Machine/RxSampler.lean ====
section
/-! DEFINITION. RxSampler: RXSTEP (43_rx_sampler.md). -/

namespace Sys2Proof.Machine

/-- `Idle`: an edge with the interrupt enabled enters (R115, R116, R117). -/
def Inst.rxIdle (p : Params) (now : Nat) (level : Bool) (c : Inst) : Inst :=
  if c.rx.ie && edge p.edgePolicy c.rx.prev level then c.takeRxEdge now level else c

/-- `SamplingStartHalf` (R118). -/
def Inst.rxStartHalf (p : Params) (now : Nat) (c : Inst) : Inst :=
  if delayDone p.timerWidth c.rx.t0 (c.cfg.bitTime.toNat / 2) now then
    { c with rx := { c.rx with start := now, bit := 0, shift := 0, state := .samplingBits } }
  else c

/-- `SamplingBits`: one sample, and with the eighth the push, whose result is ignored (R119,
R120). -/
def Inst.rxSample (now : Nat) (level : Bool) (c : Inst) : Inst :=
  if waitDone c.rx.start ((c.rx.bit.toNat + 1) * c.cfg.bitTime.toNat) now then
    let v := shiftIn c.rx.shift level
    if c.rx.bit = 7 then
      { c with
        rx := { c.rx with shift := v, t0 := now, state := .samplingStop }
        ring := (c.ring.push v).1 }
    else { c with rx := { c.rx with shift := v, bit := c.rx.bit + 1 } }
  else c

/-- `SamplingStop`: the notification before the exit (R121, R122, R123). -/
def Inst.rxStop (p : Params) (now : Nat) (c : Inst) : Inst :=
  if delayDone p.timerWidth c.rx.t0 c.cfg.bitTime.toNat now then
    let c1 := if c.cfg.notify && c.rx.shift == p.lineTerm then c.emitNotify else c
    c1.leaveRxEdge
  else c

/-- RXSTEP of one instance (R115). -/
def Inst.rxStep (p : Params) (now : Nat) (level : Bool) (c : Inst) : Inst :=
  match c.rx.state with
  | .idle => c.rxIdle p now level
  | .samplingStartHalf => c.rxStartHalf p now
  | .samplingBits => c.rxSample now level
  | .samplingStop => c.rxStop p now

/-- RXSTEP (R115) with its operands `now` and `level`, of the addressed instance. -/
def execRxStep (now : Nat) (level : Bool) (s : State) : Answer :=
  s.update (Inst.rxStep s.params now level)

end Sys2Proof.Machine
end

