-- ==== Sys2Proof/Machine/TxEncoder.lean ====
section
/-! DEFINITION. TxEncoder: PUTCHAR, TXSTEP, PUTS (44_tx_encoder.md). -/

namespace Sys2Proof.Machine

/-! ## PUTCHAR -/

/-- Step 3 of PUTCHAR: drive the start bit on every TX pin (R140). -/
def Inst.txDriveStart (k : Nat) (wrFail : PinSet) (c : Inst) : Inst :=
  Inst.orAbort k (c.writeTx wrFail Config.START_LEVEL) fun c' =>
    { c' with tx := { c'.tx with bit := 0, state := .txData } }

/-- An accepted PUTCHAR in its acceptance tick: steps 1 to 3 (R140). -/
def Inst.txAccept (k : Nat) (p : Params) (wrFail : PinSet) (now : Nat) (b : Byte) (c : Inst) :
    Inst :=
  let c1 := { c with tx := { c.tx with start := now, data := b } }
  if c1.cfg.hdx then
    Inst.orAbort k (c1.pinWrite wrFail .dir p.dirAsserted) (Inst.txDriveStart k wrFail)
  else c1.txDriveStart k wrFail

/-- PUTCHAR of one instance: accepted, or refused at once (R140, R141). -/
def Inst.putchar (k : Nat) (p : Params) (wrFail : PinSet) (now : Nat) (b : Byte) (c : Inst) :
    Inst :=
  if c.acceptsPutchar then c.txAccept k p wrFail now b else c.refuse

/-- PUTCHAR (R140, R141). -/
def execPutchar (b : Byte) (s : State) : Answer :=
  s.update (Inst.putchar s.cur s.params s.wrFail s.now b)

/-! ## TXSTEP -/

/-- `TxData`: drive the next data bit (R144). -/
def Inst.txSend (k : Nat) (wrFail : PinSet) (now : Nat) (c : Inst) : Inst :=
  if waitDone c.tx.start ((c.tx.bit.toNat + 1) * c.cfg.bitTime.toNat) now then
    Inst.orAbort k (c.writeTx wrFail (dataBit c.tx.data c.tx.bit)) fun c' =>
      if c'.tx.bit = 7 then { c' with tx := { c'.tx with state := .txStopWait } }
      else { c' with tx := { c'.tx with bit := c'.tx.bit + 1 } }
  else c

/-- `TxStopWait`: drive the stop bit (R145). -/
def Inst.txStop (k : Nat) (wrFail : PinSet) (now : Nat) (c : Inst) : Inst :=
  if waitDone c.tx.start (Config.STOP_AT * c.cfg.bitTime.toNat) now then
    Inst.orAbort k (c.writeTx wrFail Config.STOP_LEVEL) fun c' =>
      { c' with tx := { c'.tx with t0 := now, state := .txGuard } }
  else c

/-- Completion: `TxIdle` and the response OK (R147). -/
def Inst.txComplete (c : Inst) : Inst :=
  { c with tx := { c.tx with state := .txIdle } }.respondTx .ok

/-- `TxGuard`: hold the guard delay, then deassert the direction pin and complete (R146, R147). -/
def Inst.txGuard (k : Nat) (p : Params) (wrFail : PinSet) (now : Nat) (c : Inst) : Inst :=
  if delayDone p.timerWidth c.tx.t0 (Config.GUARD_BITS * c.cfg.bitTime.toNat) now then
    if c.cfg.hdx then
      Inst.orAbort k (c.pinWrite wrFail .dir (!p.dirAsserted)) Inst.txComplete
    else c.txComplete
  else c

/-- TXSTEP of one instance, the `k`-th of the block (R143). -/
def Inst.txStep (k : Nat) (p : Params) (wrFail : PinSet) (now : Nat) (c : Inst) : Inst :=
  match c.tx.state with
  | .txIdle => c
  | .txData => c.txSend k wrFail now
  | .txStopWait => c.txStop k wrFail now
  | .txGuard => c.txGuard k p wrFail now

/-- TXSTEP (R143) with its operand `now`, of the addressed instance; the answers of its pin writes
are those of the current tick (R136). -/
def execTxStep (now : Nat) (s : State) : Answer :=
  s.update (Inst.txStep s.cur s.params s.wrFail now)

/-! ## PUTS -/

/-- The PUTS loop issues PUTCHAR `b`; a refusal ends it (R153). -/
def Inst.putsIssue (k : Nat) (p : Params) (wrFail : PinSet) (now : Nat) (b : Byte)
    (rest : List Byte) (c : Inst) : Inst :=
  let c1 := c.putchar k p wrFail now b
  if c.acceptsPutchar then { c1 with putsTask := .waiting rest, putsResult := none }
  else { c1 with putsTask := .idle, putsResult := some .refused }

/-- The PUTS loop at the end of a tick: a byte that ended OK is followed by the next in a later
tick; any other status ends the loop and is returned (R153). -/
def Inst.putsSettle (c : Inst) : Inst :=
  match c.putsTask, c.out.txResp with
  | .waiting rest, some r =>
    if r.status = .ok then
      match rest with
      | [] => { c with putsTask := .idle, putsResult := some .ok }
      | b :: bs => { c with putsTask := .ready b bs }
    else { c with putsTask := .idle, putsResult := some r.status }
  | _, _ => c

/-- The call `PUTS b0 .. bk` of one instance, which issues PUTCHAR `b0` in its tick (R153, P5).
Refused before INIT (R180, log 15) and while another PUTS of the instance runs (R65, log 13). -/
def Inst.putsBegin (k : Nat) (p : Params) (wrFail : PinSet) (now : Nat) (bs : List Byte)
    (c : Inst) : Inst :=
  if !c.cfg.inited || c.putsTask != .idle then c.refuse
  else
    match bs with
    | [] => { c with putsResult := some .ok }
    | b :: rest => c.putsIssue k p wrFail now b rest

/-- PUTS (R153). -/
def execPuts (bs : List Byte) (s : State) : Answer :=
  s.update (Inst.putsBegin s.cur s.params s.wrFail s.now bs)

end Sys2Proof.Machine
end

