-- ==== Sys2Proof/Machine/Wire.lean ====
section
/-! DEFINITION. The wire frame on the RX line: FRAME (30_encoding.md section 1, log 11). -/

namespace Sys2Proof.Machine

/-- A far sender begins, in this tick, to put ten positions on the instance's RX line, each lasting
one `bit_time` (R70). -/
def Inst.sendPositions (bits : FrameBits) (tick : Nat) (c : Inst) : Inst :=
  { c with line := some ⟨bits, tick⟩ }

/-- The far sender's frame is dropped when its tenth position is over (R70). -/
def Inst.lineExpire (tick : Nat) (c : Inst) : Inst :=
  match c.line with
  | some f => if (f.levelAt c.cfg.bitTime.toNat tick).isSome then c else { c with line := none }
  | none => c

/-- FRAME: the well-formed frame that carries `b` (R70). -/
def execFrame (b : Byte) (s : State) : Answer :=
  s.update (Inst.sendPositions (encodeFrame b) s.ticks)

end Sys2Proof.Machine
end

