-- ==== Sys2Proof/Machine/Dispatch.lean ====
section
/-! DEFINITION. The meaning of every operation, one arm per constructor. -/

namespace Sys2Proof.Machine

def exec (i : Instr) (s : State) : Host.Outcome State Fault Refusal :=
  match i with
  -- host operations
  | .init cfg => Sys2Proof.Machine.execInit cfg s
  | .putchar b => Sys2Proof.Machine.execPutchar b s
  | .getc => Sys2Proof.Machine.execGetc s
  | .available => Sys2Proof.Machine.execAvailable s
  | .overrun => Sys2Proof.Machine.execOverrun s
  -- the wire
  | .frame b => Sys2Proof.Machine.execFrame b s
  -- pseudo-operations
  | .puts bs => Sys2Proof.Machine.execPuts bs s
  | .read maxLen => Sys2Proof.Machine.execRead maxLen s
  | .readline maxLen => Sys2Proof.Machine.execReadline maxLen s
  -- component operations
  | .claim txPins rxPin => Sys2Proof.Machine.execClaim txPins rxPin s
  | .compute baud => Sys2Proof.Machine.execCompute baud s
  | .push b => Sys2Proof.Machine.execPush b s
  | .pop => Sys2Proof.Machine.execPop s
  | .avail => Sys2Proof.Machine.execAvail s
  | .takeOverrun => Sys2Proof.Machine.execTakeOverrun s
  -- engine steps
  | .rxStep now level => Sys2Proof.Machine.execRxStep now level s
  | .txStep now => Sys2Proof.Machine.execTxStep now s

end Sys2Proof.Machine
end

