-- ==== Sys2Proof/Machine/Tick.lean ====
section
/-! DEFINITION. One tick (R13, R14): the inputs are sampled, at most one host operation is applied,
every RX engine and every TX engine takes one step, `rx_prev` takes the pin's level, and the counter
advances. -/

namespace Sys2Proof.Machine

/-! ## Inputs of a tick (R42) -/

/-- The inputs of a tick for which none is listed: no operation, and FREE VALUES for the rest
(log 6). -/
def TickInput.free (t : Nat) : TickInput where
  pins     := Config.freePins t
  wrFail   := Config.freeWrFail t
  pinCfgOk := Config.freePinCfgOk t
  host     := none
  line     := none
  reset    := false

/-- The inputs of the coming tick. -/
def State.nextInput (s : State) : TickInput :=
  match s.inputs with
  | i :: _ => i
  | [] => TickInput.free s.ticks

/-- The events of the tick before are gone (R20, R43). -/
def Inst.clearOutputs (c : Inst) : Inst := { c with out := ⟨none, none, false⟩ }

/-- The tick begins: its inputs are sampled, and the events of the tick before are gone. -/
def State.latch (s : State) (i : TickInput) : State :=
  { s with
    pins := i.pins
    wrFail := i.wrFail
    pinCfgOk := i.pinCfgOk
    inputs := s.inputs.tail
    insts := s.insts.map Inst.clearOutputs }

/-! ## (a) the host operation, and the far sender -/

/-- The operation a request asks for: a command word is decoded, a call is itself (R75, R79). -/
def HostReq.decode (npins : Nat) : HostReq → Except DecodeError Instr
  | .word cw cfg => Sys2Proof.decode npins cw cfg
  | .puts bs => .ok (.puts bs)
  | .read n => .ok (.read n)
  | .readline n => .ok (.readline n)

/-- A host operation addressed to its instance; a reserved word is refused: no state changes and the
response is Refused (R81). -/
def applyCommand (cmd : HostCmd) (s : State) : Answer :=
  match cmd.req.decode s.params.npins with
  | .ok i => exec i (s.address cmd.chan)
  | .error _ => (s.address cmd.chan).update Inst.refuse

/-- A host loop of the instance has a command to issue in this tick. -/
def Inst.hasCommand (c : Inst) : Bool :=
  (match c.putsTask with
    | .ready _ _ => true
    | .idle | .waiting _ => false) || c.readTask != .idle

/-- The command of the instance's running host loop: PUTS before READ or READLINE (log 12). -/
def issueLoopCommand (k : Nat) (s : State) : Answer :=
  (s.address k).updateE fun c =>
    match c.putsTask with
    | .ready b rest => .ok (c.putsIssue k s.params s.wrFail s.now b rest)
    | .idle | .waiting _ => c.readAdvance s.params

/-- At most one host operation per tick (R14, R84), for the whole block and not for each instance
(DESIGN CHOICE, log 29): the one the host presents, or else the next command of a running loop, the
lowest instance first (log 12). -/
def hostPhase (i : TickInput) (s : State) : Answer :=
  match i.host with
  | some cmd => applyCommand cmd s
  | none =>
    match s.insts.findIdx? Inst.hasCommand with
    | some k => issueLoopCommand k s
    | none => .next s

/-- A far sender begins to send: a frame, or positions that form none, which the receiver cannot
tell from one (R70, R76). -/
def wirePhase (i : TickInput) (s : State) : Answer :=
  match i.line with
  | none => .next s
  | some (k, bits) =>
    match decodeFrame bits with
    | .ok instr => exec instr (s.address k)
    | .error _ => (s.address k).update (Inst.sendPositions bits s.ticks)

/-! ## (b) to (d) the engines and the edge detector -/

/-- The instance's part of a tick after the host operation (R14). `before` is the instance as the
tick began: an INIT of this tick arms the receiver from the next tick on (R178, log 9), and a
PUTCHAR accepted in this tick takes no TXSTEP in it (R14 c, R140). `rx_prev` takes the pin's level
before INIT too (R30 over R69 and R46: DESIGN CHOICE, log 32; the pin: log 10). -/
def Inst.engines (s : State) (k : Nat) (c before : Inst) : Inst :=
  let level := c.pinRead s.pins s.ticks
  let c1 := if before.cfg.inited then c.rxStep s.params s.now level else c
  let c2 := if before.txBusy then c1.txStep k s.params s.wrFail s.now else c1
  let c3 := { c2 with rx := { c2.rx with prev := level } }
  c3.putsSettle.lineExpire (s.ticks + 1)

/-- The rest of the tick that began as `start`: the engines of every instance, and the counter
(R13, R14, R205). -/
def State.endTick (start s : State) : State :=
  { s with
    insts := s.insts.mapIdx fun k c => c.engines s k ((start.insts[k]?).getD c)
    now := nextStamp s.params.timerWidth s.now
    ticks := s.ticks + 1 }

/-- The external reset (R217): every instance and `claimed` at their reset values (R46); the
counter and the environment go on (log 20). -/
def State.externalReset (s : State) : State :=
  { s with
    claimed := 0
    insts := s.insts.map fun _ => Inst.reset
    inputs := s.inputs.tail
    now := nextStamp s.params.timerWidth s.now
    ticks := s.ticks + 1
    result := .none }

/-- One tick (R14). -/
def tick (s : State) : Answer :=
  let i := s.nextInput
  if i.reset then .next s.externalReset
  else
    let s0 := s.latch i
    andThen (wirePhase i s0) fun s1 =>
    andThen (hostPhase i s1) fun s2 => .next (s0.endTick s2)

/-! ## Placing bits where the next tick takes its operation -/

/-- The coming tick's input with the bits of a table row placed in it: the ten positions of FRAME go
to the RX line of the addressed instance, every other row to the command port (log 7, log 23). -/
def TickInput.place (i : TickInput) (k nbits w : Nat) : TickInput :=
  if isFrameRow nbits w then
    { i with line := some (k, BitVec.ofNat 10 w), host := none, reset := false }
  else
    { i with
      host := some ⟨k, .word (tableCommand nbits w).1 (tableCommand nbits w).2⟩
      line := none
      reset := false }

/-- The state with those bits placed in the coming tick's input. -/
def State.placeWord (s : State) (nbits w : Nat) : State :=
  { s with inputs := s.nextInput.place s.cur nbits w :: s.inputs.tail }

end Sys2Proof.Machine
end

