-- ==== Sys2Proof/Machine/Step.lean ====
section
/-! DEFINITION. The step of the machine: one tick of the block (R13, R14). -/

namespace Sys2Proof.Machine

/-- One step is one tick. -/
def step (s : State) : Host.Outcome State Fault Refusal := tick s

/-- The state whose very next step takes the operation with these bits, numbered as the opcode table
numbers them. -/
def State.withFetchWord (s : State) (nbits w : Nat) : State := s.placeWord nbits w

end Sys2Proof.Machine
end

