-- ==== Sys2Proof/Safety.lean ====
section
/-! DEFINITION. What a safe run keeps, in the terms the statements use: the contents of the ring as a
queue, the pins an instance owns, the invariant of the block, and runs of the engines alone. -/

namespace Sys2Proof.Machine

/-! ## The ring as a queue (R54, R57, R104) -/

/-- The indices of the queued bytes, oldest first (R54, R104). -/
def Ring.queued (r : Ring) : List Nat :=
  (List.range r.avail).map fun i => (r.head.toNat + i) % Config.N

/-- The queued bytes, oldest first (R104). -/
def Ring.contents (r : Ring) : List Byte := r.queued.filterMap (Memory.read r.slots)

/-- The ring's memory is canonical and every queued slot was written (R47, R104). -/
structure Ring.Inv (r : Ring) : Prop where
  canonical : Memory.wf r.slots = true
  written   : ∀ a ∈ r.queued, (Memory.read r.slots a).isSome = true

/-! ## The invariant of the block -/

/-- The pins that belong to the instance (R69): none before INIT, then its RX and TX pins, and with
`HDX` its direction pin. -/
def Inst.owns (c : Inst) : PinSet :=
  if c.cfg.inited then
    c.cfg.txPins ||| PinSet.only c.cfg.rxPin |||
      (if c.cfg.hdx then PinSet.only c.cfg.dirPin else 0)
  else 0

/-- The invariant of an instance, in a block whose counter has `w` bits. -/
structure Inst.Inv (w : Nat) (c : Inst) : Prop where
  /-- R104, R47 -/
  ring : c.ring.Inv
  /-- R31: with the receiver enabled, `rx_ie = 1` exactly in `Idle`. -/
  armed : c.cfg.inited = true → c.cfg.rxen = true → (c.rx.ie = true ↔ c.rx.state = .idle)
  /-- R31: otherwise `rx_ie = 0` and `rx_state = Idle`. -/
  disarmed : (c.cfg.inited && c.cfg.rxen) = false → c.rx.ie = false ∧ c.rx.state = .idle
  /-- R46: the feature flags are 0 until INIT. -/
  fresh : c.cfg.inited = false →
    c.cfg.rxen = false ∧ c.cfg.txen = false ∧ c.cfg.hdx = false ∧ c.cfg.notify = false
  /-- R141: the transmitter runs only with `TXEN`. -/
  silent : c.cfg.txen = false → c.tx.state = .txIdle
  /-- R22, R175: the bit period is the one COMPUTE gives for the baud rate. -/
  timed : c.cfg.inited = true → computeBitTime c.cfg.baud.toInt = some c.cfg.bitTime.toNat
  /-- R92: the RX, TX and direction pins are mutually distinct. -/
  distinct : c.cfg.inited = true → PinSet.has c.cfg.txPins c.cfg.rxPin = false ∧
    (c.cfg.hdx = true →
      PinSet.has c.cfg.txPins c.cfg.dirPin = false ∧ c.cfg.dirPin ≠ c.cfg.rxPin)
  /-- R27, R28, R35, R36: the captured times are values of the counter. -/
  stamps : c.rx.start < 2 ^ w ∧ c.rx.t0 < 2 ^ w ∧ c.tx.start < 2 ^ w ∧ c.tx.t0 < 2 ^ w

/-- The invariant of the block: the counter is wide enough (R198) and holds `W` bits (R13); claimed
pins exist (R21); every instance has its own invariant; every owned pin is claimed (R69, R175); no pin
belongs to two instances (R21, R92). -/
structure State.Inv (s : State) : Prop where
  timer    : 23 ≤ s.params.timerWidth
  counter  : s.now < 2 ^ s.params.timerWidth
  pins     : s.claimed < 2 ^ s.params.npins
  insts    : ∀ c ∈ s.insts, c.Inv s.params.timerWidth
  claimed  : ∀ c ∈ s.insts, c.owns &&& s.claimed = c.owns
  disjoint : s.insts.Pairwise fun c d => c.owns &&& d.owns = 0

/-- The invariant of the host loops of an instance. -/
structure Inst.LoopsInv (c : Inst) : Prop where
  /-- R180: a loop runs only on an instance that INIT has configured. -/
  ready : c.putsTask ≠ .idle ∨ c.readTask ≠ .idle → c.cfg.inited = true
  /-- R153: a PUTS loop that waits for a response waits for a byte that is in flight. -/
  puts : ∀ rest, c.putsTask = .waiting rest → c.txBusy = true
  /-- R165: a reading loop about to issue GETC has a byte to take and room for it. -/
  taking : ∀ line maxLen got, c.readTask = .taking line maxLen got →
    c.ring.head ≠ c.ring.tail ∧ got.length < maxLen - 1

/-- Every running host loop can go on (R153, R165). -/
def State.LoopsServed (s : State) : Prop := ∀ c ∈ s.insts, c.LoopsInv

/-- The coming tick's operations name instances the block has (R205). -/
def TickInput.namesChannels (i : TickInput) (n : Nat) : Prop :=
  (∀ cmd, i.host = some cmd → cmd.chan < n) ∧ (∀ l, i.line = some l → l.1 < n)

/-! ## Runs of one engine alone -/

/-- `n` TXSTEPs of the addressed instance in consecutive ticks, the first at `now`, while the counter
does not wrap; the answers of the pin writes stay those of the state (R143). -/
def txRun (now : Nat) : Nat → State → Answer
  | 0, s => .next s
  | n + 1, s => andThen (exec (.txStep now) s) (txRun (now + 1) n)

/-- RXSTEP in tick `now` with the level given, then `rx_prev` takes that level (R14 b, d). -/
def rxTick (now : Nat) (level : Bool) (s : State) : Answer :=
  andThen (exec (.rxStep now level) s) fun t =>
    t.update fun c => { c with rx := { c.rx with prev := level } }

/-- One RXSTEP per tick from `now` on, while the counter does not wrap, the level of tick `now + j`
being `levels (j0 + j)`. -/
def rxRun (levels : Nat → Bool) : Nat → Nat → Nat → State → Answer
  | _, 0, _, s => .next s
  | j, n + 1, now, s => andThen (rxTick now (levels j) s) (rxRun levels (j + 1) n (now + 1))

/-- The level of an ideal sender's line `j` ticks after its start bit: position `j / T` of the frame,
then idle (R70, R133). -/
def idealLine (b : Byte) (bitTime j : Nat) : Bool := framePosition (encodeFrame b) (j / bitTime)

/-- The host's READ or READLINE loop run for `n` of its commands with no other agent acting. -/
def readRun (p : Params) : Nat → Inst → Except Fault Inst
  | 0, c => .ok c
  | n + 1, c => (c.readAdvance p).bind (readRun p n)

/-! ## What READ and READLINE deliver (R165, R166) -/

/-- The bytes READ or READLINE with room for `room` bytes collects from a queue, and the bytes it
leaves queued. -/
def collect (line : Bool) (term : Byte) : Nat → List Byte → List Byte × List Byte
  | 0, q => ([], q)
  | _ + 1, [] => ([], [])
  | room + 1, b :: q =>
    if line && b == term then ([], q)
    else
      let (got, left) := collect line term room q
      (b :: got, left)

end Sys2Proof.Machine
end

