-- ==== Sys2Proof/Certificates/Slice0/Obligations.lean ====
section
/-! DEFINITION. The statements about the block, for the provers. Every statement about a next state
gives it in full, as an update of the state before: what the update does not name is unchanged. -/

open Sys2Proof Sys2Proof.Machine

/-! ## Encoding -/

/-- R83, R82, V24: words written out from the spec's encodings decode to the operations they stand
for, the configuration of R83 in its layout for 16 pins too, and reserved words are rejected by
name. -/
def Obligations.DecodeReadsTheWrittenOutWords : Prop :=
  decode 32 0x1000 0x0C040000000400002580 =
      .ok (.init ⟨9600, 0b100, 4, 0, true, true, false, false, 0⟩) ∧
  decode 32 0x1000 0x1CA40000000400002580 =
      .ok (.init ⟨9600, 0b100, 4, 5, true, true, true, false, 0⟩) ∧
  decode 16 0x1000 0x0304000400002580 =
      .ok (.init ⟨9600, 0b100, 4, 0, true, true, false, false, 0⟩) ∧
  decode 32 0x2041 0 = .ok (.putchar 0x41) ∧ decode 32 0x20FF 0 = .ok (.putchar 0xFF) ∧
  decode 32 0x3000 0 = .ok .getc ∧ decode 32 0x4000 0 = .ok .available ∧
  decode 32 0x5000 0 = .ok .overrun ∧
  decodeFrame 0b0100000101 = .ok (.frame 0x41) ∧
  decode 32 0x6000 0 = .error (.reservedOp 6) ∧ decode 32 0x2141 0 = .error (.zeroFieldSet 1) ∧
  decode 32 0x3001 0 = .error (.dataFieldSet 1)

/-- R70, R80, R82: decoding the bits of any operation that has an encoding gives the operation back,
with every operand at every value its field admits, for every number of pins. -/
def Obligations.DecodeInvertsEncode : Prop :=
  ∀ (npins : Nat) (i : Instr) (w : Words), i.fits npins = true → encode npins i = some w →
    w.decode npins = .ok i

/-- R80, R70, R82: a word has one meaning. An operation decoded from a command word encodes to that
word, with the bits of the `cfg` port where the operation reads it; one decoded from ten positions
encodes to them. -/
def Obligations.EncodeInvertsDecode : Prop :=
  (∀ (npins : Nat) (cw : CommandWord) (cfg : CfgWord) (i : Instr), decode npins cw cfg = .ok i →
    i.fits npins = true ∧
    encode npins i = some (.command cw (if cw = 0x1000 then cfg % 2 ^ cfgBits npins else 0))) ∧
  (∀ (npins : Nat) (bits : FrameBits) (i : Instr), decodeFrame bits = .ok i →
    encode npins i = some (.wire bits))

/-- R80: the rows of the table, their operands, and that they are disjoint. -/
def Obligations.EachWordSelectsItsRow : Prop :=
  (∀ (npins : Nat) (w : CommandWord) (cfg : CfgWord) (i : Instr), decode npins w cfg = .ok i ↔
    (w &&& 0xFFFF = 0x1000 ∧ i = .init (decodeCfg npins cfg)) ∨
    (w &&& 0xFF00 = 0x2000 ∧ i = .putchar (w.extractLsb' 0 8)) ∨
    (w &&& 0xFFFF = 0x3000 ∧ i = .getc) ∨
    (w &&& 0xFFFF = 0x4000 ∧ i = .available) ∨
    (w &&& 0xFFFF = 0x5000 ∧ i = .overrun)) ∧
  (∀ (w : CommandWord) (r r' : OpRow), r ∈ opRows → r' ∈ opRows →
    r.selects w = true → r'.selects w = true → r = r')

/-- R81: which words are reserved, and that a reserved word is refused: nothing changes but the
response, whose word is `0xF000`. -/
def Obligations.ReservedWordsAreRefused : Prop :=
  ∀ (npins : Nat) (cw : CommandWord) (cfg : CfgWord),
    ((∃ e, decode npins cw cfg = .error e) ↔
      cw.extractLsb' 12 4 = 0x0 ∨ 0x6 ≤ cw.extractLsb' 12 4 ∨ cw.extractLsb' 8 4 ≠ 0 ∨
        ((cw.extractLsb' 12 4 = 0x1 ∨ cw.extractLsb' 12 4 = 0x3 ∨ cw.extractLsb' 12 4 = 0x4 ∨
          cw.extractLsb' 12 4 = 0x5) ∧ cw.extractLsb' 0 8 ≠ 0)) ∧
    ∀ (s : State) (k : Nat) (c : Inst), s.insts[k]? = some c →
      (∃ e, decode s.params.npins cw cfg = .error e) →
      applyCommand ⟨k, .word cw cfg⟩ s = .next { s with
        cur := k
        insts := s.insts.set k { c with out := { c.out with resp := some ⟨.refused, 0⟩ } } } ∧
      Response.word ⟨.refused, 0⟩ = 0xF000

/-- R70: a frame is ten positions, each lasting one `bit_time`: start bit 0, the data bits least
significant first, stop bit 1; the idle level is 1; and there is no other frame. -/
def Obligations.FrameIsTenPositions : Prop :=
  (∀ (b : Byte),
    framePosition (encodeFrame b) 0 = false ∧
    (∀ i < 8, framePosition (encodeFrame b) (i + 1) = b.getLsbD i) ∧
    framePosition (encodeFrame b) 9 = true ∧
    (∀ k, 10 ≤ k → framePosition (encodeFrame b) k = true)) ∧
  (∀ (bits : FrameBits) (bitTime start n : Nat),
    (∀ k < 10, k * bitTime ≤ n → n < (k + 1) * bitTime →
      LineFrame.levelAt ⟨bits, start⟩ bitTime (start + n) =
        some (framePosition bits k)) ∧
    (10 * bitTime ≤ n →
      LineFrame.levelAt ⟨bits, start⟩ bitTime (start + n) = none)) ∧
  (∀ bits : FrameBits, (∃ i, decodeFrame bits = .ok i) ↔ ∃ b, bits = encodeFrame b)

/-- R79, R186, R88: the fields of a response word, the numeric codes of the statuses, and the result
of READ and READLINE as a response word. The `VALUE` of a count above 255 and that of
OverrunError, which the spec does not state, are free values (log 26, log 30): nothing is stated of
them. -/
def Obligations.ResponseWordFields : Prop :=
  (∀ r : Response, r.word.extractLsb' 12 4 = r.status.code ∧ r.word.extractLsb' 8 4 = 0 ∧
    r.word.extractLsb' 0 8 = r.value) ∧
  Status.code .ok = 0x0 ∧ Status.code .invalidBaud = 0x1 ∧ Status.code .pinOverlap = 0x2 ∧
  Status.code .pinClaimed = 0x3 ∧ Status.code .pinConfigRejected = 0x4 ∧
  Status.code .pinWriteError = 0x5 ∧ Status.code .overrunError = 0x6 ∧ Status.code .refused = 0xF ∧
  (∀ n out, (ReadResult.count n out).word.extractLsb' 12 4 = 0x0 ∧
    (n < 256 → ((ReadResult.count n out).word.extractLsb' 0 8).toNat = n)) ∧
  ReadResult.overrunError.word.extractLsb' 12 4 = 0x6 ∧
  ReadResult.overrunError.word.extractLsb' 8 4 = 0

/-! ## The tick -/

/-- R14, R42, R43: the tick. A tick without reset samples its inputs and drops the events of the tick
before; a far sender's positions go on the line (log 11); one host operation is applied; the rest of the
tick runs. The host operation is the one that the request decodes to, addressed to its instance; a
reserved word is refused (R81); with no request and no loop that has a command there is none, and a tick
with no far sender either is the rest of the tick alone. -/
def Obligations.StepRunsTheDecodedCommand : Prop :=
  ∀ s : State, s.nextInput.reset = false →
    (∀ i rest, s.inputs = i :: rest → s.nextInput = i) ∧
    s.latch s.nextInput = { s with
      pins := s.nextInput.pins
      wrFail := s.nextInput.wrFail
      pinCfgOk := s.nextInput.pinCfgOk
      inputs := s.inputs.tail
      insts := s.insts.map fun c => { c with out := ⟨none, none, false⟩ } } ∧
    (step s = andThen (wirePhase s.nextInput (s.latch s.nextInput)) fun s1 =>
      andThen (hostPhase s.nextInput s1) fun t => .next ((s.latch s.nextInput).endTick t)) ∧
    (s.nextInput.line = none →
      wirePhase s.nextInput (s.latch s.nextInput) = .next (s.latch s.nextInput)) ∧
    (∀ (k : Nat) (req : HostReq) (i : Instr), s.nextInput.host = some ⟨k, req⟩ →
      req.decode s.params.npins = .ok i →
      (step s = andThen (wirePhase s.nextInput (s.latch s.nextInput)) fun s1 =>
        andThen (exec i (s1.address k)) fun t => .next ((s.latch s.nextInput).endTick t)) ∧
      (s.nextInput.line = none →
        step s = andThen (exec i ((s.latch s.nextInput).address k)) fun t =>
          .next ((s.latch s.nextInput).endTick t))) ∧
    (∀ (k : Nat) (req : HostReq) (e : DecodeError), s.nextInput.host = some ⟨k, req⟩ →
      req.decode s.params.npins = .error e →
      step s = andThen (wirePhase s.nextInput (s.latch s.nextInput)) fun s1 =>
        andThen ((s1.address k).update fun c => { c with
          out := { c.out with resp := some ⟨.refused, 0⟩ } }) fun t =>
          .next ((s.latch s.nextInput).endTick t)) ∧
    (s.nextInput.host = none →
      (∀ c ∈ s.insts, c.readTask = .idle ∧ ∀ b rest, c.putsTask ≠ .ready b rest) →
      (step s = andThen (wirePhase s.nextInput (s.latch s.nextInput)) fun s1 =>
        .next ((s.latch s.nextInput).endTick s1)) ∧
      (s.nextInput.line = none →
        step s = .next ((s.latch s.nextInput).endTick (s.latch s.nextInput))))

/-- The model's own (log 11): a tick in which a far sender begins a frame runs FRAME, then the host
operation, then the rest of the tick; with no request and no loop that has a command the host does
nothing. Ten positions that form no frame go on the line as they are (R76, log 25). -/
def Obligations.StepRunsTheFrameOnTheWire : Prop :=
  ∀ (s : State) (k : Nat) (bits : FrameBits),
    s.nextInput.reset = false → s.nextInput.line = some (k, bits) →
    (∀ i : Instr, decodeFrame bits = .ok i →
      (step s = andThen (exec i ((s.latch s.nextInput).address k)) fun s1 =>
        andThen (hostPhase s.nextInput s1) fun t => .next ((s.latch s.nextInput).endTick t)) ∧
      (s.nextInput.host = none →
        (∀ c ∈ s.insts, c.readTask = .idle ∧ ∀ b rest, c.putsTask ≠ .ready b rest) →
        step s = andThen (exec i ((s.latch s.nextInput).address k)) fun t =>
          .next ((s.latch s.nextInput).endTick t))) ∧
    (∀ e : DecodeError, decodeFrame bits = .error e →
      step s = andThen (((s.latch s.nextInput).address k).update fun c =>
          { c with line := some ⟨bits, s.ticks⟩ }) fun s1 =>
        andThen (hostPhase s.nextInput s1) fun t => .next ((s.latch s.nextInput).endTick t))

/-- R87, R153, R165, R166: a running loop issues host operations, one in a tick with no command of
the host's, the lowest instance first (log 12): PUTS issues PUTCHAR of its next byte and waits, or ends
with Refused if PUTCHAR is not admitted; READ and READLINE issue AVAILABLE (before they test for room:
log 27), and GETC while there are a byte and room for it; READLINE drops a line terminator. GETC is
executed as the one consumer's, with no other loop running (log 13). -/
def Obligations.LoopsIssueHostOperations : Prop :=
  ∀ (s : State) (i : TickInput) (k : Nat) (c : Inst), i.host = none →
    s.insts[k]? = some c → c.cfg.inited = true →
    (∀ j d, j < k → s.insts[j]? = some d →
      d.readTask = .idle ∧ ∀ b rest, d.putsTask ≠ .ready b rest) →
    (∀ b rest, c.putsTask = .ready b rest → c.acceptsPutchar = true →
      hostPhase i s = andThen (exec (.putchar b) (s.address k)) fun t =>
        t.update fun d => { d with putsTask := .waiting rest, putsResult := none }) ∧
    (∀ b rest, c.putsTask = .ready b rest → c.acceptsPutchar = false →
      hostPhase i s = andThen (exec (.putchar b) (s.address k)) fun t =>
        t.update fun d => { d with putsTask := .idle, putsResult := some .refused }) ∧
    (∀ line maxLen got, (∀ b rest, c.putsTask ≠ .ready b rest) →
      c.readTask = .checking line maxLen got →
      hostPhase i s = andThen (exec .available (s.address k)) fun t =>
        t.update fun d =>
          if 0 < c.ring.avail ∧ got.length < maxLen - 1 then
            { d with readTask := .taking line maxLen got }
          else { d with
            readTask := .idle
            readResult := some (.count got.length (got ++ [s.params.sentinel])) }) ∧
    (∀ line maxLen got, (∀ b rest, c.putsTask ≠ .ready b rest) →
      c.readTask = .taking line maxLen got →
      hostPhase i s = andThen ((s.address k).update fun d => { d with readTask := .idle }) fun u =>
        andThen (exec .getc u) fun t => t.update fun d =>
          match d.out.resp with
          | some ⟨_, b⟩ =>
            if line = true ∧ b = s.params.lineTerm then { d with
              readTask := .idle
              readResult := some (.count got.length (got ++ [s.params.sentinel])) }
            else { d with readTask := .checking line maxLen (got ++ [b]) }
          | none => d)

/-- R14: what a tick does after the host operation. The counter advances by one, modulo `2^W`, and
nothing but the instances changes. Of an instance, `before` is the instance at the tick's start: it
takes RXSTEP with the level of its RX pin (from the tick after INIT on: log 9), then TXSTEP if its
transmitter was busy as the tick began (R14 c), then `rx_prev` takes the level; the PUTS loop settles
(PutsSendsByteAfterByte), and the far sender's frame is dropped when its ten bit periods are over. The
level is the far sender's while it sends, and otherwise the pin's (log 11). -/
def Obligations.TickTakesRxStepThenTxStep : Prop :=
  ∀ s0 s : State,
    s0.endTick s = { s with
      insts := (s0.endTick s).insts
      now := (s.now + 1) % 2 ^ s.params.timerWidth
      ticks := s.ticks + 1 } ∧
    (s0.endTick s).insts.length = s.insts.length ∧
    ∀ (k : Nat) (c before : Inst), s.insts[k]? = some c → s0.insts[k]? = some before →
      (∃ a e d,
        andThen (if before.cfg.inited
          then exec (.rxStep s.now (c.pinRead s.pins s.ticks)) (s.address k)
          else .next (s.address k))
          (fun u => if before.txBusy then exec (.txStep s.now) u else .next u) = .next a ∧
        a.inst? = some e ∧
        d = Inst.putsSettle { e with rx := { e.rx with prev := c.pinRead s.pins s.ticks } } ∧
        (s0.endTick s).insts[k]? = some { d with
          line := d.line.filter fun f =>
            decide (s.ticks + 1 - f.start < 10 * d.cfg.bitTime.toNat) }) ∧
      (c.line = none → c.pinRead s.pins s.ticks = PinSet.has s.pins c.cfg.rxPin) ∧
      (∀ f, c.line = some f → c.pinRead s.pins s.ticks =
        (f.levelAt c.cfg.bitTime.toNat s.ticks).getD (PinSet.has s.pins c.cfg.rxPin))

/-! ## Reset -/

/-- R46, R11: the values the spec states for reset. -/
def Obligations.ResetValuesOfTheSpec : Prop :=
  State.reset.claimed = 0 ∧ State.reset.insts.length = 1 ∧
  State.reset.params = ⟨32, 32, .fallingOnly, 0x0A, 0x00, true⟩ ∧
  ∀ c ∈ State.reset.insts,
    c.cfg.inited = false ∧ c.cfg.rxen = false ∧ c.cfg.txen = false ∧ c.cfg.hdx = false ∧
    c.cfg.notify = false ∧ c.ring.head = 0 ∧ c.ring.tail = 0 ∧ c.ring.overrun = false ∧
    (∀ a, Memory.read c.ring.slots a = none) ∧
    c.rx.state = .idle ∧ c.rx.ie = false ∧ c.rx.prev = true ∧ c.tx.state = .txIdle

/-- The invariants of the block and of its host loops hold at reset. -/
def Obligations.ResetHoldsTheInvariant : Prop := State.reset.Inv ∧ State.reset.LoopsServed

/-- R180, R216: before INIT has succeeded every other host operation and every pseudo-operation is
refused with nothing changed but the response, and neither engine does anything. -/
def Obligations.OnlyInitWorksBeforeInit : Prop :=
  ∀ (s : State) (c : Inst), s.inst? = some c → c.cfg.inited = false →
    (∀ i : Instr, (i.opClass = .host ∨ i.opClass = .pseudo) → (∀ cfg, i ≠ .init cfg) →
      exec i s = .next (s.setInst { c with
        out := { c.out with resp := some ⟨.refused, 0⟩ } })) ∧
    (c.rx.ie = false → c.rx.state = .idle → ∀ now level, exec (.rxStep now level) s = .next s) ∧
    (c.tx.state = .txIdle → ∀ now, exec (.txStep now) s = .next s)

/-- R217: the external reset puts every instance and `claimed` at their reset values. The counter
and the environment's inputs go on, which is the model's choice (log 20). -/
def Obligations.ExternalResetResetsEverything : Prop :=
  ∀ s : State, s.nextInput.reset = true →
    step s = .next { s with
      claimed := 0
      insts := List.replicate s.insts.length Inst.reset
      inputs := s.inputs.tail
      now := (s.now + 1) % 2 ^ s.params.timerWidth
      ticks := s.ticks + 1
      result := .none }

/-! ## INIT -/

/-- R175, R178, R179, R182: what INIT commits when every test passes and the pins exist: the claimed
set, the configuration, the interrupt enable, the idle levels, the response OK; and nothing else. -/
def Obligations.InitCommitsTheConfiguration : Prop :=
  ∀ (s : State) (c : Inst) (cfg : CfgRecord),
    s.inst? = some c → c.cfg.inited = false → cfg.zero = 0 →
    PinSet.has cfg.txPins cfg.rxPin = false →
    (cfg.hdx = true → PinSet.has cfg.txPins cfg.dirPin = false ∧ cfg.dirPin ≠ cfg.rxPin) →
    (∀ p, (PinSet.has cfg.txPins p = true ∨ p = cfg.rxPin ∨ (cfg.hdx = true ∧ p = cfg.dirPin)) →
      PinSet.has s.claimed p = false ∧ p < s.params.npins) →
    0 < cfg.baud.toInt → s.pinCfgOk = true →
    ∃ (claimed : PinSet) (bitTime : BitVec 20) (level : PinSet),
      exec (.init cfg) s = .next { s.setInst { c with
          cfg := ⟨cfg.baud, bitTime, cfg.rxPin, cfg.txPins, cfg.dirPin, cfg.rxen, cfg.txen,
            cfg.hdx, cfg.notify, true⟩
          rx := { c.rx with ie := cfg.rxen || c.rx.ie }
          tx := { c.tx with
            level := level
            dirLevel := if cfg.txen && cfg.hdx then !s.params.dirAsserted else c.tx.dirLevel }
          out := { c.out with resp := some ⟨.ok, 0⟩ } } with claimed := claimed } ∧
      computeBitTime cfg.baud.toInt = some bitTime.toNat ∧
      (∀ p, PinSet.has claimed p = (PinSet.has s.claimed p || PinSet.has cfg.txPins p ||
        p == cfg.rxPin || (cfg.hdx && p == cfg.dirPin))) ∧
      (∀ p, PinSet.has level p =
        ((cfg.txen && PinSet.has cfg.txPins p) || PinSet.has c.tx.level p))

/-- R177: the tests of INIT in the order pin overlap, pin claimed, invalid baud, platform rejection;
the first that applies is reported, and nothing but the response changes. -/
def Obligations.InitReportsTheFirstFailingTest : Prop :=
  ∀ (s : State) (c : Inst) (cfg : CfgRecord),
    s.inst? = some c → c.cfg.inited = false → cfg.zero = 0 →
    let answer := fun st : Status =>
      exec (.init cfg) s = .next (s.setInst { c with out := { c.out with resp := some ⟨st, 0⟩ } })
    let overlap := PinSet.has cfg.txPins cfg.rxPin = true ∨
      (cfg.hdx = true ∧ (PinSet.has cfg.txPins cfg.dirPin = true ∨ cfg.dirPin = cfg.rxPin))
    let taken := ∃ p, (PinSet.has cfg.txPins p = true ∨ p = cfg.rxPin ∨
      (cfg.hdx = true ∧ p = cfg.dirPin)) ∧ PinSet.has s.claimed p = true
    (overlap → answer .pinOverlap) ∧
    (¬ overlap → taken → answer .pinClaimed) ∧
    (¬ overlap → ¬ taken → cfg.baud.toInt ≤ 0 → answer .invalidBaud) ∧
    (¬ overlap → ¬ taken → 0 < cfg.baud.toInt → s.pinCfgOk = false → answer .pinConfigRejected)

/-- R181, R82: a second INIT, and an INIT whose reserved CFG bits are not 0, are refused with nothing
changed but the response. The model's own (log 28): an INIT that passes the tests before the
platform's and names a pin the block does not have is rejected by the platform. -/
def Obligations.InitIsRefusedWhenItMayNotRun : Prop :=
  ∀ (s : State) (c : Inst) (cfg : CfgRecord), s.inst? = some c →
    let answer := fun st : Status =>
      exec (.init cfg) s = .next (s.setInst { c with out := { c.out with resp := some ⟨st, 0⟩ } })
    let requested := fun p : Nat =>
      PinSet.has cfg.txPins p = true ∨ p = cfg.rxPin ∨ (cfg.hdx = true ∧ p = cfg.dirPin)
    (c.cfg.inited = true ∨ cfg.zero ≠ 0 → answer .refused) ∧
    (c.cfg.inited = false → cfg.zero = 0 → PinSet.has cfg.txPins cfg.rxPin = false →
      (cfg.hdx = true → PinSet.has cfg.txPins cfg.dirPin = false ∧ cfg.dirPin ≠ cfg.rxPin) →
      (∀ p, requested p → PinSet.has s.claimed p = false) → 0 < cfg.baud.toInt →
      (∃ p, requested p ∧ s.params.npins ≤ p) → answer .pinConfigRejected)

/-- R178: in the tick of a successful INIT the receiver takes no edge, whatever the pin does; it is
armed at the end of the tick, and `rx_prev` then holds the level of the RX pin just configured
(log 9, log 10). -/
def Obligations.InitArmsFromTheNextTick : Prop :=
  ∀ (s t : State) (k : Nat) (cfg : CfgWord) (c d : Inst),
    s.nextInput.reset = false → s.nextInput.host = some ⟨k, .word 0x1000 cfg⟩ →
    s.insts[k]? = some c → c.cfg.inited = false →
    step s = .next t → t.insts[k]? = some d → d.cfg.inited = true →
    d.rx = { c.rx with
      ie := (decodeCfg s.params.npins cfg).rxen || c.rx.ie, prev := d.rx.prev } ∧
    (s.nextInput.line = none → c.line = none →
      d.rx.prev = PinSet.has s.nextInput.pins (decodeCfg s.params.npins cfg).rxPin)

/-! ## COMPUTE and CLAIM -/

/-- R95: COMPUTE fails for a baud that is not positive, and otherwise gives the formula's value;
nothing else is written. The answer is in `result`, the model's own field (log 16). -/
def Obligations.ComputeFollowsTheFormula : Prop :=
  (∀ (s : State) (baud : BitVec 32),
    (baud.toInt ≤ 0 → exec (.compute baud) s = .next { s with result := .invalidBaud }) ∧
    (0 < baud.toInt →
      exec (.compute baud) s = .next { s with result := .bitTime (BitVec.ofNat 20
        (if 100000000 / baud.toNat - 100 * (1000000 / baud.toNat) > 50
          then 1000000 / baud.toNat + 1 else 1000000 / baud.toNat)) })) ∧
  ∀ s : State, exec (.compute 9600) s = .next { s with result := .bitTime 104 }

/-- R96: the remainder term is `floor(100 * f)`, from 0 to 99, and the result is rounded up exactly
when the fraction is at least 51 hundredths. -/
def Obligations.ComputeRoundsUpFromFiftyOneHundredths : Prop :=
  (∀ d : Nat, 0 < d →
    100000000 / d - 100 * (1000000 / d) = 100 * (1000000 % d) / d ∧
    100 * (1000000 % d) / d ≤ 99 ∧
    computeBitTime d =
      some (if 51 * d ≤ 100 * (1000000 % d) then 1000000 / d + 1 else 1000000 / d)) ∧
  computeBitTime 400000 = some 2

/-- R97, which the spec marks as derived from R95: the range of the result, and where it is 0 and 1. -/
def Obligations.ComputeRange : Prop :=
  (∀ baud : Int, 1 ≤ baud → baud ≤ 2 ^ 31 - 1 → ∃ t, computeBitTime baud = some t ∧
    t ≤ 1000000 ∧ t < 2 ^ 20 ∧ (t = 0 ↔ 1960785 ≤ baud) ∧
    (t = 1 ↔ 662252 ≤ baud ∧ baud ≤ 1960784)) ∧
  computeBitTime 1 = some 1000000

/-- R90: CLAIM reports the overlap first, then a claimed pin, with `claimed` unchanged; otherwise
`claimed` becomes the union. The answer is in `result` (log 16). -/
def Obligations.ClaimIsAllOrNothing : Prop :=
  ∀ (s : State) (tx : PinSet) (rx : Nat),
    (PinSet.has tx rx = true →
      exec (.claim tx rx) s = .next { s with result := .pinConflictOverlap }) ∧
    (PinSet.has tx rx = false →
      (∃ p, (PinSet.has tx p = true ∨ p = rx) ∧ PinSet.has s.claimed p = true) →
      exec (.claim tx rx) s = .next { s with result := .pinConflictClaimed }) ∧
    (PinSet.has tx rx = false →
      (∀ p, (PinSet.has tx p = true ∨ p = rx) → PinSet.has s.claimed p = false) →
      ∃ claimed, exec (.claim tx rx) s = .next { s with claimed := claimed, result := .claimed } ∧
        ∀ p, PinSet.has claimed p = (PinSet.has s.claimed p || PinSet.has tx p || p == rx))

/-! ## The ring buffer -/

/-- R100: PUSH into a full ring drops the byte and sets the flag; otherwise it writes the slot at
`tail`, and no other, and advances `tail`. The answer is in `result` (log 16). -/
def Obligations.PushStoresAtTail : Prop :=
  ∀ (s : State) (c : Inst) (b : Byte), s.inst? = some c →
    (c.ring.tail + 1 = c.ring.head →
      exec (.push b) s = .next { s.setInst { c with ring := { c.ring with overrun := true } } with
        result := .pushed false }) ∧
    (c.ring.tail + 1 ≠ c.ring.head → ∃ slots,
      exec (.push b) s = .next { s.setInst { c with
        ring := { c.ring with slots := slots, tail := c.ring.tail + 1 } } with
        result := .pushed true } ∧
      ∀ a, Memory.read slots a =
        if a = c.ring.tail.toNat then some b else Memory.read c.ring.slots a)

/-- R101: POP of an empty ring changes nothing; otherwise it takes the byte at `head` and advances
`head`, and no slot changes. The answer is in `result` (log 16). -/
def Obligations.PopTakesTheByteAtHead : Prop :=
  ∀ (s : State) (c : Inst), s.inst? = some c →
    (c.ring.head = c.ring.tail → exec .pop s = .next { s with result := .popped none }) ∧
    (∀ b, c.ring.head ≠ c.ring.tail → Memory.read c.ring.slots c.ring.head.toNat = some b →
      exec .pop s = .next { s.setInst { c with
        ring := { c.ring with head := c.ring.head + 1 } } with result := .popped (some b) })

/-- R47, R52: a read of a slot that nothing has written is a fault, of POP, of the host's GETC and of
the GETC of a reading loop. -/
def Obligations.UnwrittenSlotFaults : Prop :=
  ∀ (s : State) (c : Inst), s.inst? = some c → c.ring.head ≠ c.ring.tail →
    Memory.read c.ring.slots c.ring.head.toNat = none →
    exec .pop s = .fault (.unwrittenSlot c.ring.head) ∧
    (c.cfg.inited = true → c.readTask = .idle →
      exec .getc s = .fault (.unwrittenSlot c.ring.head)) ∧
    (∀ p line maxLen got, c.readTask = .taking line maxLen got →
      c.readAdvance p = .error (.unwrittenSlot c.ring.head))

/-- R102: AVAIL answers `(tail - head + 64) mod 64`, at most 63, 0 exactly when `head = tail`, and
changes nothing else. The answer is in `result` (log 16). -/
def Obligations.AvailCountsModulo : Prop :=
  ∀ (s : State) (c : Inst), s.inst? = some c →
    exec .avail s = .next { s with result := .count c.ring.avail } ∧
    (c.ring.avail : Int) = ((c.ring.tail.toNat : Int) - c.ring.head.toNat + 64) % 64 ∧
    c.ring.avail ≤ 63 ∧ (c.ring.avail = 0 ↔ c.ring.head = c.ring.tail)

/-- R103: TAKE_OVERRUN answers the flag, in `result` (log 16), and clears it. -/
def Obligations.TakeOverrunReadsAndClears : Prop :=
  ∀ (s : State) (c : Inst), s.inst? = some c →
    exec .takeOverrun s = .next { s.setInst { c with ring := { c.ring with overrun := false } } with
      result := .overrunWas c.ring.overrun }

/-- R57, R104: under its invariant the ring is a first-in first-out queue of at most 63 bytes: PUSH
appends or sets the flag, POP takes the head, AVAIL is the length, and the invariant is kept. -/
def Obligations.RingIsABoundedQueue : Prop :=
  ∀ r : Ring, r.Inv →
    r.contents.length = r.avail ∧ r.contents.length ≤ 63 ∧
    (∀ b, (r.push b).1.Inv ∧
      (r.contents.length < 63 → (r.push b).2 = true ∧ (r.push b).1.contents = r.contents ++ [b] ∧
        (r.push b).1.overrun = r.overrun) ∧
      (r.contents.length = 63 → (r.push b).2 = false ∧ (r.push b).1.contents = r.contents ∧
        (r.push b).1.overrun = true)) ∧
    (r.contents = [] → r.pop = .ok (r, none)) ∧
    (∀ b rest, r.contents = b :: rest → ∃ r', r.pop = .ok (r', some b) ∧ r'.contents = rest ∧
      r'.overrun = r.overrun ∧ r'.Inv) ∧
    r.takeOverrun.1.contents = r.contents ∧ r.takeOverrun.1.Inv

/-- R108: pushing 63 bytes into an empty ring never sets the flag; a further byte sets it and is
dropped, and the 63 bytes stay. -/
def Obligations.SixtyThreeBytesFitAndNoMore : Prop :=
  ∀ (s : State) (c : Inst), s.inst? = some c → c.ring.Inv → c.ring.contents = [] →
    ∀ bs : List Byte, bs.length = 63 → ∃ t d,
      bs.foldl (fun o b => andThen o (exec (.push b))) (.next s) = .next t ∧
      t.inst? = some d ∧ d.ring.contents = bs ∧ d.ring.overrun = c.ring.overrun ∧
      ∀ b, ∃ u e, exec (.push b) t = .next u ∧ u.inst? = some e ∧ e.ring.contents = bs ∧
        e.ring.overrun = true

/-- R105: an admitted GETC removes the oldest byte and answers it, or answers 0 when the queue is
empty; it is refused before INIT, and while a READ or READLINE runs, to a second consumer (R65). -/
def Obligations.GetcAnswersTheOldestByte : Prop :=
  ∀ (s : State) (c : Inst), s.inst? = some c →
    ((c.cfg.inited = false ∨ c.readTask ≠ .idle) → exec .getc s = .next (s.setInst { c with
      out := { c.out with resp := some ⟨.refused, 0⟩ } })) ∧
    (c.cfg.inited = true → c.readTask = .idle → c.ring.Inv →
      (c.ring.contents = [] → exec .getc s = .next (s.setInst { c with
        out := { c.out with resp := some ⟨.ok, 0x00⟩ } })) ∧
      (∀ b rest, c.ring.contents = b :: rest →
        ({ c.ring with head := c.ring.head + 1 } : Ring).contents = rest ∧
        exec .getc s = .next (s.setInst { c with
          ring := { c.ring with head := c.ring.head + 1 }
          out := { c.out with resp := some ⟨.ok, b⟩ } })))

/-- R106, R107: an admitted AVAILABLE answers the count and changes nothing else; an admitted OVERRUN
answers the flag and clears it; both are refused before INIT, and OVERRUN while a READ or READLINE
runs, to a second consumer (R65). -/
def Obligations.AvailableAndOverrunAnswer : Prop :=
  ∀ (s : State) (c : Inst), s.inst? = some c →
    (c.cfg.inited = true →
      exec .available s = .next (s.setInst { c with
        out := { c.out with resp := some ⟨.ok, BitVec.ofNat 8 c.ring.avail⟩ } }) ∧
      (c.readTask = .idle → exec .overrun s = .next (s.setInst { c with
        ring := { c.ring with overrun := false }
        out := { c.out with resp := some ⟨.ok, if c.ring.overrun then 0x01 else 0x00⟩ } }))) ∧
    (c.cfg.inited = false →
      exec .available s = .next (s.setInst { c with
        out := { c.out with resp := some ⟨.refused, 0⟩ } })) ∧
    ((c.cfg.inited = false ∨ c.readTask ≠ .idle) →
      exec .overrun s = .next (s.setInst { c with
        out := { c.out with resp := some ⟨.refused, 0⟩ } }))

/-- R108: after a rejected PUSH the first OVERRUN answers 1 and the next answers 0. (That OVERRUN is
refused while a READ or READLINE runs is in AvailableAndOverrunAnswer.) -/
def Obligations.OverrunIsReportedOnce : Prop :=
  ∀ (s : State) (c : Inst) (b : Byte), s.inst? = some c → c.cfg.inited = true →
    c.readTask = .idle → c.ring.tail + 1 = c.ring.head → ∃ s1 s2 s3 c2 c3,
      exec (.push b) s = .next s1 ∧ exec .overrun s1 = .next s2 ∧ exec .overrun s2 = .next s3 ∧
      s2.inst? = some c2 ∧ c2.out.resp = some ⟨.ok, 0x01⟩ ∧
      s3.inst? = some c3 ∧ c3.out.resp = some ⟨.ok, 0x00⟩ ∧
      c3.ring.contents = c.ring.contents

/-! ## The waits -/

/-- R44: the guarded wait is true exactly when `now < start` or the target is reached; without a
wrap it is false before `start + target` and true there; after a wrap it is true while
`now < start`. It ends if it was started at a count that is not 0, whatever the target, or if the target
is below `2^W`; started at 0 with a target of `2^W` or more it never ends, although clause (c) of the
rule says that every wait ends (log 31: `W = 23`, one baud, PUTCHAR accepted at count 0). -/
def Obligations.GuardedWaitEnds : Prop :=
  ∀ (w : Nat) (start now : Nat) (target : Nat),
    (waitDone start target now = true ↔
      now < start ∨ (target : Int) ≤ (now : Int) - start) ∧
    (start + target ≤ 2 ^ w - 1 →
      waitDone start target ((start + target) % 2 ^ w) = true ∧
      ∀ n < target, waitDone start target ((start + n) % 2 ^ w) = false) ∧
    (now < start → waitDone start target now = true) ∧
    (start < 2 ^ w → (0 < start ∨ target < 2 ^ w) →
      ∃ n, waitDone start target ((now + n) % 2 ^ w) = true) ∧
    (2 ^ w ≤ target → ∀ n, waitDone 0 target (n % 2 ^ w) = false)

/-- R45: the plain delay is true exactly when `d` counts have gone by, across a wrap too. With a
counter of at least 23 bits every delay of the engines ends: R198's inference from R45 and R97, which
the spec marks as derived. -/
def Obligations.PlainDelayLastsItsDuration : Prop :=
  (∀ (w : Nat) (t0 : Nat) (d n : Nat), n < 2 ^ w →
    (delayDone w t0 d ((t0 + n) % 2 ^ w) = true ↔ d ≤ n)) ∧
  (∀ (w : Nat) (t0 : Nat) (bitTime : Nat), 23 ≤ w → bitTime ≤ 1000000 →
    ∃ n, n < 2 ^ w ∧ delayDone w t0 (6 * bitTime) ((t0 + n) % 2 ^ w) = true)

/-! ## RXSTEP -/

/-- R116, R117, R124: the rows of `Idle`. A falling edge with the interrupt enabled enters; every
other case, the rejected rising edge among them, has no net change. -/
def Obligations.RxEntersOnTheFallingEdgeOnly : Prop :=
  ∀ (s : State) (c : Inst) (now : Nat) (level : Bool),
    s.inst? = some c → c.rx.state = .idle →
    (c.rx.ie = true → c.rx.prev = true → level = false →
      exec (.rxStep now level) s = .next (s.setInst { c with
        rx := { c.rx with ie := false, t0 := now, state := .samplingStartHalf } })) ∧
    ((c.rx.ie = false ∨ c.rx.prev = false ∨ level = true) →
      exec (.rxStep now level) s = .next s)

/-- R118, R119, R120, R124: the rows of `SamplingStartHalf` and `SamplingBits`. -/
def Obligations.RxSamplesTheBits : Prop :=
  ∀ (s : State) (c : Inst) (now : Nat) (level : Bool), s.inst? = some c →
    (c.rx.state = .samplingStartHalf →
      (delayDone s.params.timerWidth c.rx.t0 (c.cfg.bitTime.toNat / 2) now = true →
        exec (.rxStep now level) s = .next (s.setInst { c with
          rx := { c.rx with start := now, bit := 0, shift := 0, state := .samplingBits } })) ∧
      (delayDone s.params.timerWidth c.rx.t0 (c.cfg.bitTime.toNat / 2) now = false →
        exec (.rxStep now level) s = .next s)) ∧
    (c.rx.state = .samplingBits →
      (waitDone c.rx.start ((c.rx.bit.toNat + 1) * c.cfg.bitTime.toNat) now = true → ∃ v : Byte,
        v.getLsbD 7 = level ∧ (∀ i < 7, v.getLsbD i = c.rx.shift.getLsbD (i + 1)) ∧
        (c.rx.bit ≠ 7 → exec (.rxStep now level) s = .next (s.setInst { c with
          rx := { c.rx with shift := v, bit := c.rx.bit + 1 } })) ∧
        (c.rx.bit = 7 → exec (.rxStep now level) s = .next (s.setInst { c with
          rx := { c.rx with shift := v, t0 := now, state := .samplingStop }
          ring := (c.ring.push v).1 }))) ∧
      (waitDone c.rx.start ((c.rx.bit.toNat + 1) * c.cfg.bitTime.toNat) now = false →
        exec (.rxStep now level) s = .next s))

/-- R121, R122, R123, R124: the row of `SamplingStop`: the notification if it is due, the interrupt
enabled again, `Idle`. -/
def Obligations.RxNotifiesAndLeaves : Prop :=
  ∀ (s : State) (c : Inst) (now : Nat) (level : Bool),
    s.inst? = some c → c.rx.state = .samplingStop →
    (delayDone s.params.timerWidth c.rx.t0 c.cfg.bitTime.toNat now = true →
      exec (.rxStep now level) s = .next (s.setInst { c with
        rx := { c.rx with ie := true, state := .idle }
        out := { c.out with
          rxNotify := c.out.rxNotify || (c.cfg.notify && c.rx.shift == s.params.lineTerm) } })) ∧
    (delayDone s.params.timerWidth c.rx.t0 c.cfg.bitTime.toNat now = false →
      exec (.rxStep now level) s = .next s)

/-- R129: with no dispatch latency the two edge policies give the same instance. -/
def Obligations.EdgePoliciesAgree : Prop :=
  ∀ (p : Params) (now : Nat) (level : Bool) (c : Inst),
    c.rxStep { p with edgePolicy := .anyEdge } now level =
      c.rxStep { p with edgePolicy := .fallingOnly } now level

/-- R132: RXSTEP always completes and changes only the RX registers, the producer's side of the ring
(`tail`, the slot at `tail`, setting `overrun`) and the notification. -/
def Obligations.RxStepWritesOnlyTheReceiver : Prop :=
  ∀ (s : State) (c : Inst) (now : Nat) (level : Bool), s.inst? = some c → ∃ rx slots tail ov n,
    exec (.rxStep now level) s = .next (s.setInst { c with
      rx := rx
      ring := { c.ring with slots := slots, tail := tail, overrun := ov }
      out := { c.out with rxNotify := n } }) ∧
    rx.prev = c.rx.prev ∧ (c.ring.overrun = true → ov = true) ∧
    ∀ a, a ≠ c.ring.tail.toNat → Memory.read slots a = Memory.read c.ring.slots a

/-- R133: an ideal sender's byte is received exactly, for every bit period of at least 2, from the
falling edge at tick `e` on, when the counter does not wrap. -/
def Obligations.IdealFrameIsReceived : Prop :=
  ∀ (s : State) (c : Inst) (e : Nat) (b : Byte),
    s.inst? = some c → 2 ≤ c.cfg.bitTime.toNat → c.rx.state = .idle → c.rx.ie = true →
    c.rx.prev = true → e + 10 * c.cfg.bitTime.toNat < 2 ^ s.params.timerWidth →
    ∃ t rx n,
      rxRun (idealLine b c.cfg.bitTime.toNat) 0 (10 * c.cfg.bitTime.toNat) e s = .next t ∧
      t = s.setInst { c with
        rx := rx
        ring := (c.ring.push b).1
        out := { c.out with rxNotify := n } } ∧
      rx.state = .idle ∧ rx.ie = true ∧ rx.shift = b ∧
      n = (c.out.rxNotify || (c.cfg.notify && b == s.params.lineTerm))

/-! ## PUTCHAR and TXSTEP -/

/-- R140: an accepted PUTCHAR whose pin writes succeed: the start time and the byte are captured, the
direction pin is asserted in half-duplex, every TX pin takes 0 and no other pin changes. -/
def Obligations.PutcharDrivesTheStartBit : Prop :=
  ∀ (s : State) (c : Inst) (b : Byte), s.inst? = some c →
    c.cfg.inited = true → c.cfg.txen = true → c.tx.state = .txIdle →
    (∀ p, PinSet.has c.cfg.txPins p = true → PinSet.has s.wrFail p = false) →
    (c.cfg.hdx = true → PinSet.has s.wrFail c.cfg.dirPin = false) →
    ∃ level, exec (.putchar b) s = .next (s.setInst { c with
      tx := { c.tx with
        start := s.now, data := b, bit := 0, state := .txData, level := level
        dirLevel := if c.cfg.hdx then s.params.dirAsserted else c.tx.dirLevel } }) ∧
      ∀ q, PinSet.has level q = (!PinSet.has c.cfg.txPins q && PinSet.has c.tx.level q)

/-- R141: in every other state PUTCHAR is refused at once and nothing but the response changes. -/
def Obligations.PutcharIsRefusedUnlessAdmitted : Prop :=
  ∀ (s : State) (c : Inst) (b : Byte), s.inst? = some c →
    (c.cfg.inited = false ∨ c.cfg.txen = false ∨ c.tx.state ≠ .txIdle) →
    exec (.putchar b) s = .next (s.setInst { c with
      out := { c.out with resp := some ⟨.refused, 0⟩ } })

/-- R144 to R148: the rows of TXSTEP. A row that writes pins has the premise that those writes, and no
others, succeed; a row whose condition is false, and `TxIdle`, have none. -/
def Obligations.TxStepFollowsTheTable : Prop :=
  ∀ (s : State) (c : Inst) (now : Nat), s.inst? = some c →
    let txWritesSucceed := ∀ p, PinSet.has c.cfg.txPins p = true → PinSet.has s.wrFail p = false
    (c.tx.state = .txIdle → exec (.txStep now) s = .next s) ∧
    (c.tx.state = .txData →
      (waitDone c.tx.start ((c.tx.bit.toNat + 1) * c.cfg.bitTime.toNat) now = false →
        exec (.txStep now) s = .next s) ∧
      (waitDone c.tx.start ((c.tx.bit.toNat + 1) * c.cfg.bitTime.toNat) now = true →
        txWritesSucceed → ∃ level,
        (∀ q, PinSet.has level q = if PinSet.has c.cfg.txPins q
          then c.tx.data.getLsbD c.tx.bit.toNat else PinSet.has c.tx.level q) ∧
        (c.tx.bit ≠ 7 → exec (.txStep now) s = .next (s.setInst { c with
          tx := { c.tx with level := level, bit := c.tx.bit + 1 } })) ∧
        (c.tx.bit = 7 → exec (.txStep now) s = .next (s.setInst { c with
          tx := { c.tx with level := level, state := .txStopWait } })))) ∧
    (c.tx.state = .txStopWait →
      (waitDone c.tx.start (9 * c.cfg.bitTime.toNat) now = false →
        exec (.txStep now) s = .next s) ∧
      (waitDone c.tx.start (9 * c.cfg.bitTime.toNat) now = true → txWritesSucceed → ∃ level,
        (∀ q, PinSet.has level q =
          (PinSet.has c.cfg.txPins q || PinSet.has c.tx.level q)) ∧
        exec (.txStep now) s = .next (s.setInst { c with
          tx := { c.tx with level := level, t0 := now, state := .txGuard } }))) ∧
    (c.tx.state = .txGuard →
      (delayDone s.params.timerWidth c.tx.t0 (6 * c.cfg.bitTime.toNat) now = false →
        exec (.txStep now) s = .next s) ∧
      (delayDone s.params.timerWidth c.tx.t0 (6 * c.cfg.bitTime.toNat) now = true →
        (c.cfg.hdx = true → PinSet.has s.wrFail c.cfg.dirPin = false) →
        exec (.txStep now) s = .next (s.setInst { c with
          tx := { c.tx with
            state := .txIdle
            dirLevel := if c.cfg.hdx then !s.params.dirAsserted else c.tx.dirLevel }
          out := { c.out with txResp := some ⟨.ok, 0⟩ } })))

/-- R151, R137, R147: a write of TXSTEP that fails. When it is due to write the TX pins and pin `p` is
the lowest whose write fails, the pins below `p` have the level, no other pin but `p` changes, the
direction level is kept without half-duplex, the engine is idle and the response is PinWriteError.
When it is due to deassert the direction pin and that write fails, the engine is idle, the response is
PinWriteError and no TX pin changes. The levels of `p`, and of the direction pin in half-duplex, are
not stated: they are free values (log 8). -/
def Obligations.FailedWriteAbortsTheByte : Prop :=
  ∀ (s : State) (c : Inst) (now : Nat), s.inst? = some c →
    Response.word ⟨.pinWriteError, 0⟩ = 0x5000 ∧
    (∀ (v : Bool) (p : Nat),
      ((c.tx.state = .txData ∧ v = c.tx.data.getLsbD c.tx.bit.toNat ∧
          waitDone c.tx.start ((c.tx.bit.toNat + 1) * c.cfg.bitTime.toNat) now = true) ∨
        (c.tx.state = .txStopWait ∧ v = true ∧
          waitDone c.tx.start (9 * c.cfg.bitTime.toNat) now = true)) →
      PinSet.has c.cfg.txPins p = true → PinSet.has s.wrFail p = true →
      (∀ q, PinSet.has c.cfg.txPins q = true → q < p → PinSet.has s.wrFail q = false) →
      ∃ level dir n,
        exec (.txStep now) s = .next (s.setInst { c with
          tx := { c.tx with state := .txIdle, level := level, dirLevel := dir }
          out := { c.out with txResp := some ⟨.pinWriteError, 0⟩ }
          freeIx := n }) ∧
        (∀ q, q ≠ p → PinSet.has level q =
          if PinSet.has c.cfg.txPins q = true ∧ q < p then v else PinSet.has c.tx.level q) ∧
        (c.cfg.hdx = false → dir = c.tx.dirLevel)) ∧
    (c.tx.state = .txGuard → c.cfg.hdx = true → PinSet.has s.wrFail c.cfg.dirPin = true →
      delayDone s.params.timerWidth c.tx.t0 (6 * c.cfg.bitTime.toNat) now = true → ∃ dir n,
      exec (.txStep now) s = .next (s.setInst { c with
        tx := { c.tx with state := .txIdle, dirLevel := dir }
        out := { c.out with txResp := some ⟨.pinWriteError, 0⟩ }
        freeIx := n }))

/-- R140, R151: a failed write in the acceptance tick aborts PUTCHAR: the engine stays idle and the
response is PinWriteError. If the write of the direction pin fails, no TX pin is written; if it is not
made or succeeds and TX pin `p` is the lowest whose write fails, the TX pins below `p` are 0 and no
other pin but `p` changes. The levels of `p`, and of the direction pin in half-duplex, are free values
(log 8). -/
def Obligations.FailedWriteAbortsPutchar : Prop :=
  ∀ (s : State) (c : Inst) (b : Byte), s.inst? = some c →
    c.cfg.inited = true → c.cfg.txen = true → c.tx.state = .txIdle →
    (c.cfg.hdx = true → PinSet.has s.wrFail c.cfg.dirPin = true →
      ∃ dir n, exec (.putchar b) s = .next (s.setInst { c with
        tx := { c.tx with start := s.now, data := b, dirLevel := dir }
        out := { c.out with txResp := some ⟨.pinWriteError, 0⟩ }
        freeIx := n })) ∧
    (∀ p, (c.cfg.hdx = true → PinSet.has s.wrFail c.cfg.dirPin = false) →
      PinSet.has c.cfg.txPins p = true → PinSet.has s.wrFail p = true →
      (∀ q, PinSet.has c.cfg.txPins q = true → q < p → PinSet.has s.wrFail q = false) →
      ∃ level dir n, exec (.putchar b) s = .next (s.setInst { c with
          tx := { c.tx with start := s.now, data := b, level := level, dirLevel := dir }
          out := { c.out with txResp := some ⟨.pinWriteError, 0⟩ }
          freeIx := n }) ∧
        (∀ q, q ≠ p → PinSet.has level q =
          if PinSet.has c.cfg.txPins q = true ∧ q < p then false else PinSet.has c.tx.level q) ∧
        (c.cfg.hdx = false → dir = c.tx.dirLevel))

/-- R132, R156: TXSTEP always completes and changes only the TX registers and levels, the
transmitter's response and the counter of free levels. -/
def Obligations.TxStepWritesOnlyTheTransmitter : Prop :=
  ∀ (s : State) (c : Inst) (now : Nat), s.inst? = some c → ∃ tx r n,
    exec (.txStep now) s = .next (s.setInst { c with
      tx := tx, out := { c.out with txResp := r }, freeIx := n }) ∧
    tx.data = c.tx.data ∧ tx.start = c.tx.start ∧
    (∀ q, PinSet.has c.cfg.txPins q = false → PinSet.has tx.level q = PinSet.has c.tx.level q)

/-- R156: the two engines do not interact: RXSTEP and TXSTEP of one instance give the same state in
either order. -/
def Obligations.EnginesDoNotInteract : Prop :=
  ∀ (s : State) (now now' : Nat) (level : Bool),
    andThen (exec (.rxStep now level) s) (exec (.txStep now')) =
      andThen (exec (.txStep now') s) (exec (.rxStep now level))

/-- R149, R71: the frame an accepted PUTCHAR sends. After the TXSTEPs of the `n` ticks that follow
tick `S`, with no wrap and no failing write, every TX pin has the level of frame position `n / T`
until the stop bit, then 1; and after `15 * T` of them, and no earlier, the transmitter is idle and
has answered OK. -/
def Obligations.TransmitterSendsTheFrame : Prop :=
  ∀ (s s1 : State) (c : Inst) (b : Byte) (n : Nat), s.inst? = some c →
    c.cfg.inited = true → c.cfg.txen = true → c.tx.state = .txIdle → c.out.txResp = none →
    1 ≤ c.cfg.bitTime.toNat → s.now + 15 * c.cfg.bitTime.toNat < 2 ^ s.params.timerWidth →
    (∀ p, PinSet.has c.cfg.txPins p = true → PinSet.has s.wrFail p = false) →
    (c.cfg.hdx = true → PinSet.has s.wrFail c.cfg.dirPin = false) →
    exec (.putchar b) s = .next s1 → n ≤ 15 * c.cfg.bitTime.toNat →
    ∃ t d, txRun (s.now + 1) n s1 = .next t ∧ t.inst? = some d ∧
      (∀ q, PinSet.has c.cfg.txPins q = true →
        PinSet.has d.tx.level q = framePosition (encodeFrame b) (n / c.cfg.bitTime.toNat)) ∧
      (∀ q, PinSet.has c.cfg.txPins q = false →
        PinSet.has d.tx.level q = PinSet.has c.tx.level q) ∧
      (c.cfg.hdx = true → d.tx.dirLevel =
        if n < 15 * c.cfg.bitTime.toNat then s.params.dirAsserted else !s.params.dirAsserted) ∧
      (d.tx.state = .txIdle ↔ n = 15 * c.cfg.bitTime.toNat) ∧
      d.out.txResp = if n = 15 * c.cfg.bitTime.toNat then some ⟨.ok, 0⟩ else none

/-! ## FRAME -/

/-- R70 (the model's own form, log 11): FRAME puts the ten positions of its byte on the RX line from
this tick on, and changes nothing else: in the ticks of position `n` the receiver reads its level, and
after the tenth position that of the pin. -/
def Obligations.FrameGoesOnTheLine : Prop :=
  ∀ (s : State) (c : Inst) (b : Byte), s.inst? = some c →
    let d := { c with line := some ⟨encodeFrame b, s.ticks⟩ }
    exec (.frame b) s = .next (s.setInst d) ∧
    ∀ (pins : PinSet) (j : Nat), d.pinRead pins (s.ticks + j) =
      if j < 10 * c.cfg.bitTime.toNat then framePosition (encodeFrame b) (j / c.cfg.bitTime.toNat)
      else PinSet.has pins c.cfg.rxPin

/-! ## PUTS, READ, READLINE -/

/-- R153: PUTS of no byte answers OK and sends nothing; otherwise it issues PUTCHAR of the first
byte in its tick and waits, or is refused with it; while a PUTS of the instance runs another is refused
(R65, log 13). A byte that ends OK makes the next one ready, the last one ends the loop with OK, and any
other status ends it and is returned; with no byte awaited, or none ended, nothing changes. The loop's
own fields and its pace are the model's (log 12, log 14). -/
def Obligations.PutsSendsByteAfterByte : Prop :=
  (∀ (s : State) (c : Inst), s.inst? = some c → c.cfg.inited = true →
    (c.putsTask ≠ .idle → ∀ bs, exec (.puts bs) s = .next (s.setInst { c with
      out := { c.out with resp := some ⟨.refused, 0⟩ } })) ∧
    (c.putsTask = .idle →
      (exec (.puts []) s = .next (s.setInst { c with putsResult := some .ok })) ∧
      (∀ b rest, c.cfg.txen = true → c.tx.state = .txIdle → ∃ s1 c1,
        exec (.putchar b) s = .next s1 ∧ s1.inst? = some c1 ∧
        exec (.puts (b :: rest)) s = .next (s.setInst { c1 with
          putsTask := .waiting rest, putsResult := none })) ∧
      (∀ b rest, (c.cfg.txen = false ∨ c.tx.state ≠ .txIdle) →
        exec (.puts (b :: rest)) s = .next (s.setInst { c with
          out := { c.out with resp := some ⟨.refused, 0⟩ }, putsResult := some .refused })))) ∧
  (∀ d : Inst,
    (∀ r rest, d.putsTask = .waiting rest → d.out.txResp = some r →
      d.putsSettle =
        if r.status ≠ .ok then { d with putsTask := .idle, putsResult := some r.status }
        else match rest with
          | [] => { d with putsTask := .idle, putsResult := some .ok }
          | b :: bs => { d with putsTask := .ready b bs }) ∧
    ((∀ rest, d.putsTask ≠ .waiting rest) ∨ d.out.txResp = none → d.putsSettle = d))

/-- R153, R165, R180: the invariant of the host loops. A loop runs only on a configured instance, a PUTS
loop never waits for a byte that is not in flight, and a reading loop about to issue GETC has a byte to
take and room for it ("never none"): no second consumer comes between its AVAILABLE and its GETC (R65).
Every step keeps it. -/
def Obligations.LoopsAreAlwaysServed : Prop :=
  ∀ s t : State, s.LoopsServed → step s = .next t → t.LoopsServed

/-- R165, R166, R168: the call of READ and of READLINE. A set overrun flag is cleared and reported,
and nothing is dequeued; otherwise the loop begins; `max_len = 0` is refused (U8), and so is a call
while a READ or READLINE of the instance runs (R65, log 13). That OVERRUN is the call's first command,
in its own tick, is the model's (log 12). -/
def Obligations.ReadReportsTheOverrunFirst : Prop :=
  ∀ (s : State) (c : Inst) (line : Bool) (maxLen : Nat), s.inst? = some c → c.cfg.inited = true →
    let op := if line then Instr.readline maxLen else Instr.read maxLen
    ((maxLen = 0 ∨ c.readTask ≠ .idle) → exec op s = .next (s.setInst { c with
      out := { c.out with resp := some ⟨.refused, 0⟩ } })) ∧
    (1 ≤ maxLen → c.readTask = .idle → c.ring.overrun = true → exec op s = .next (s.setInst { c with
      ring := { c.ring with overrun := false }
      out := { c.out with resp := some ⟨.ok, 0x01⟩ }
      readResult := some .overrunError })) ∧
    (1 ≤ maxLen → c.readTask = .idle → c.ring.overrun = false → exec op s = .next (s.setInst { c with
      out := { c.out with resp := some ⟨.ok, 0x00⟩ }
      readTask := .checking line maxLen []
      readResult := none }))

/-- R165, R166: run to its end with no other agent acting, the loop of READ and of READLINE delivers
the bytes at the head of the queue up to its room, or up to the first line terminator, which is
dropped, then the sentinel, with the count of the bytes; the rest stays queued. Nothing changes but
`head`, the response of the last command and the loop's own fields. -/
def Obligations.ReadDeliversTheQueue : Prop :=
  ∀ (p : Params) (c : Inst) (line : Bool) (maxLen : Nat), c.ring.Inv → 1 ≤ maxLen →
    c.readTask = .checking line maxLen [] → ∃ n head r,
      readRun p n c = .ok { c with
        ring := { c.ring with head := head }
        out := { c.out with resp := r }
        readTask := .idle
        readResult := some (.count
          (collect line p.lineTerm (maxLen - 1) c.ring.contents).1.length
          ((collect line p.lineTerm (maxLen - 1) c.ring.contents).1 ++ [p.sentinel])) } ∧
      ({ c.ring with head := head } : Ring).contents =
        (collect line p.lineTerm (maxLen - 1) c.ring.contents).2 ∧
      ({ c.ring with head := head } : Ring).Inv

/-! ## The whole block -/

/-- R13, R21, R31, R47, R69, R92, R104: every step keeps the invariant of the block. -/
def Obligations.StepKeepsTheInvariant : Prop :=
  ∀ s t : State, s.Inv → step s = .next t → t.Inv

/-- R47, R52: under the invariant no step stops, if its operations name instances the block has. -/
def Obligations.StepAlwaysGoesOn : Prop :=
  ∀ s : State, s.Inv → s.nextInput.namesChannels s.insts.length → ∃ t, step s = .next t

/-- R22, R66: no operation but INIT writes a configuration register, and INIT writes them only on an
instance not yet initialised. -/
def Obligations.OnlyInitConfigures : Prop :=
  ∀ (i : Instr) (s t : State) (k : Nat) (c d : Inst), exec i s = .next t →
    s.insts[k]? = some c → t.insts[k]? = some d → d.cfg ≠ c.cfg →
    (∃ cfg, i = .init cfg) ∧ k = s.cur ∧ c.cfg.inited = false ∧ d.cfg.inited = true

/-- R68, R205: an operation changes no instance but the one it names, no parameter, and neither the
number of instances nor the inputs. -/
def Obligations.OtherInstancesAreLeftAlone : Prop :=
  ∀ (i : Instr) (s t : State), exec i s = .next t →
    t.insts.length = s.insts.length ∧ (∀ k, k ≠ s.cur → t.insts[k]? = s.insts[k]?) ∧
    t.params = s.params ∧ t.now = s.now ∧ t.cur = s.cur ∧ t.inputs = s.inputs ∧
    t.pins = s.pins ∧ t.wrFail = s.wrFail ∧ t.pinCfgOk = s.pinCfgOk ∧ t.ticks = s.ticks

/-- R21, R91: `claimed` only grows, in every step but an external reset. -/
def Obligations.ClaimedOnlyGrows : Prop :=
  ∀ s t : State, step s = .next t → s.nextInput.reset = false →
    ∀ p, PinSet.has s.claimed p = true → PinSet.has t.claimed p = true

/-- R59, R62: single writers. An operation that changes `head` is a consumer's; one that changes
`tail` or a slot, or sets `overrun`, is the producer's; one that clears `overrun` is a consumer's. -/
def Obligations.RingFieldsHaveSingleWriters : Prop :=
  ∀ (i : Instr) (s t : State) (c d : Inst), exec i s = .next t → s.inst? = some c →
    t.inst? = some d →
    (d.ring.head ≠ c.ring.head → i = .pop ∨ i = .getc) ∧
    (d.ring.tail ≠ c.ring.tail ∨ d.ring.slots ≠ c.ring.slots →
      (∃ b, i = .push b) ∨ ∃ now level, i = .rxStep now level) ∧
    (c.ring.overrun = false → d.ring.overrun = true →
      (∃ b, i = .push b) ∨ ∃ now level, i = .rxStep now level) ∧
    (c.ring.overrun = true → d.ring.overrun = false →
      i = .takeOverrun ∨ i = .overrun ∨ (∃ n, i = .read n) ∨ ∃ n, i = .readline n)
end

