-- ==== Sys2Proof/Laws/Encoding.lean ====
section
/-! SUPPORT. The encodings bit by bit: the configuration record, the row a command word selects, the
fields of a 16-bit word, and the positions of a frame. -/

namespace Sys2Proof

/-! ## Fields packed in a number (R82) -/

/-- The lowest field. -/
theorem packFields_mod {n v : Nat} (h : v < 2 ^ n) (rest : List (Nat × Nat)) :
    packFields ((n, v) :: rest) % 2 ^ n = v := by
  simp [packFields, Nat.mod_eq_of_lt h]

/-- The fields above the lowest. -/
theorem packFields_div {n v : Nat} (h : v < 2 ^ n) (rest : List (Nat × Nat)) :
    packFields ((n, v) :: rest) / 2 ^ n = packFields rest := by
  simp [packFields, Nat.add_mul_div_left _ _ (Nat.two_pow_pos n), Nat.div_eq_of_lt h]

/-- A field above place `a` is a field of what stands above place `a`. -/
theorem cfgField_add (w : CfgWord) (a lo n : Nat) :
    cfgField w (a + lo) n = cfgField (w / 2 ^ a) lo n := by
  simp [cfgField, Nat.div_div_eq_div_mul, Nat.pow_add]

/-- A flag is a field of one bit. -/
theorem testBit_eq_cfgField (w : CfgWord) (i : Nat) : w.testBit i = (cfgField w i 1 == 1) := by
  rw [Nat.testBit_eq_decide_div_mod_eq]; simp [cfgField, Bool.beq_eq_decide_eq]

/-- The lowest of packed fields, as a field. -/
theorem cfgField_packFields_zero {n v : Nat} {rest : List (Nat × Nat)} (h : v < 2 ^ n) :
    cfgField (packFields ((n, v) :: rest)) 0 n = v := by
  simp only [cfgField, pow_zero, Nat.div_one]; exact packFields_mod h rest

/-- A field of packed fields above the lowest. -/
theorem cfgField_packFields_add {n v : Nat} {rest : List (Nat × Nat)} (h : v < 2 ^ n) (lo m : Nat) :
    cfgField (packFields ((n, v) :: rest)) (n + lo) m = cfgField (packFields rest) lo m := by
  rw [cfgField_add, packFields_div h]

/-- Fields cut from a number and packed again give the number's lowest bits. -/
theorem packFields_cons_mod (n m : Nat) (w : Nat) (rest : List (Nat × Nat))
    (h : packFields rest = w / 2 ^ n % 2 ^ m) :
    packFields ((n, w % 2 ^ n) :: rest) = w % 2 ^ (n + m) := by
  rw [packFields, h, Nat.pow_add, Nat.mod_mul]

/-- A pin field has room for every pin (R82). -/
theorem le_two_pow_pinIdBits (npins : Nat) : npins ≤ 2 ^ pinIdBits npins := by
  unfold pinIdBits
  split
  · simpa using ‹npins ≤ 1›
  · have := Nat.lt_log2_self (n := npins - 1)
    omega

/-! ## Command words -/

/-- The row a word selects, as a chain of tests (R80). -/
theorem opRows_find (w : CommandWord) : (opRows.find? (·.selects w)) =
   if w &&& 0xFFFF = 0x1000 then some ⟨.init, 0x1000, 0xFFFF⟩ else
   if w &&& 0xFF00 = 0x2000 then some ⟨.putchar, 0x2000, 0xFF00⟩ else
   if w &&& 0xFFFF = 0x3000 then some ⟨.getc, 0x3000, 0xFFFF⟩ else
   if w &&& 0xFFFF = 0x4000 then some ⟨.available, 0x4000, 0xFFFF⟩ else
   if w &&& 0xFFFF = 0x5000 then some ⟨.overrun, 0x5000, 0xFFFF⟩ else none := by
  simp only [opRows, List.find?, OpRow.selects]
  split <;> rename_i h <;> simp at h <;> simp [h]
  split <;> rename_i h <;> simp at h <;> simp [h]
  split <;> rename_i h <;> simp at h <;> simp [h]
  split <;> rename_i h <;> simp at h <;> simp [h]
  split <;> rename_i h <;> simp at h <;> simp [h]

/-- The mask of a row that has no operand keeps the whole word. -/
theorem and_fullMask (w : CommandWord) : w &&& 0xFFFF = w := by
  have : (0xFFFF : BitVec 16) = BitVec.allOnes 16 := by decide
  rw [this, BitVec.and_allOnes]

/-- The field in bits 15 to 12. -/
theorem extract_opField (a b : BitVec 4)
    (d : BitVec 8) : BitVec.extractLsb' 12 4 ((a ++ b ++ d : BitVec (4+4+8))) = a := by
  apply BitVec.eq_of_getLsbD_eq; intro i hi
  simp only [BitVec.getLsbD_extractLsb', BitVec.getLsbD_append]
  interval_cases i <;> simp

/-- The field in bits 11 to 8. -/
theorem extract_zeroField (a b : BitVec 4)
    (d : BitVec 8) : BitVec.extractLsb' 8 4 ((a ++ b ++ d : BitVec (4+4+8))) = b := by
  apply BitVec.eq_of_getLsbD_eq; intro i hi
  simp only [BitVec.getLsbD_extractLsb', BitVec.getLsbD_append]
  interval_cases i <;> simp

/-- The field in bits 7 to 0. -/
theorem extract_dataField (a b : BitVec 4)
    (d : BitVec 8) : BitVec.extractLsb' 0 8 ((a ++ b ++ d : BitVec (4+4+8))) = d := by
  apply BitVec.eq_of_getLsbD_eq; intro i hi
  simp only [BitVec.getLsbD_extractLsb', BitVec.getLsbD_append]
  interval_cases i <;> simp

/-- A 16-bit word is its three fields. -/
theorem fields_inj (a b a' b' : BitVec 4)
    (d d' : BitVec 8) : (a ++ b ++ d : BitVec (4+4+8)) = a' ++ b' ++ d' ↔ a = a' ∧ b = b' ∧
    d = d' := by
  constructor
  · intro h
    have h1 := congrArg (BitVec.extractLsb' 12 4) h
    have h2 := congrArg (BitVec.extractLsb' 8 4) h
    have h3 := congrArg (BitVec.extractLsb' 0 8) h
    rw [extract_opField, extract_opField] at h1; rw [extract_zeroField,
        extract_zeroField] at h2; rw [extract_dataField, extract_dataField] at h3
    exact ⟨h1, h2, h3⟩
  · rintro ⟨rfl, rfl, rfl⟩; rfl

end Sys2Proof

namespace Sys2Proof.Machine

/-- The level of each position of the frame that carries `b` (R70). -/
theorem framePosition_encodeFrame (b : Byte)
    (k : Nat) : framePosition (encodeFrame b) k =
    if k < 1 then false else if k < 9 then b.getLsbD (k - 1) else true := by
  by_cases hk : k < 10
  · revert b; interval_cases k <;> decide
  · simp [framePosition, Config.FRAME_BITS, hk]; omega

/-- The bits of the receiver's accumulating byte after a sample (R73). -/
theorem getLsbD_shiftIn (x : Byte) (l : Bool) : (shiftIn x l).getLsbD 7 = l ∧ ∀ i < 7,
    (shiftIn x l).getLsbD i = x.getLsbD (i+1) := by
  revert x l; decide

end Sys2Proof.Machine
end

