-- ==== Sys2Proof/Laws/State.lean ====
section
/-! SUPPORT. One lemma per field per update of the state and of an instance, so that no later proof
unfolds a record update. -/

namespace Sys2Proof.Machine

section setInst
variable (s : State) (c : Inst)
@[simp] theorem State.setInst_params : (s.setInst c).params = s.params := rfl
@[simp] theorem State.setInst_claimed : (s.setInst c).claimed = s.claimed := rfl
@[simp] theorem State.setInst_insts : (s.setInst c).insts = s.insts.set s.cur c := rfl
@[simp] theorem State.setInst_now : (s.setInst c).now = s.now := rfl
@[simp] theorem State.setInst_pins : (s.setInst c).pins = s.pins := rfl
@[simp] theorem State.setInst_wrFail : (s.setInst c).wrFail = s.wrFail := rfl
@[simp] theorem State.setInst_pinCfgOk : (s.setInst c).pinCfgOk = s.pinCfgOk := rfl
@[simp] theorem State.setInst_inputs : (s.setInst c).inputs = s.inputs := rfl
@[simp] theorem State.setInst_ticks : (s.setInst c).ticks = s.ticks := rfl
@[simp] theorem State.setInst_cur : (s.setInst c).cur = s.cur := rfl
@[simp] theorem State.setInst_result : (s.setInst c).result = s.result := rfl
end setInst

section address
variable (s : State) (k : Nat)
@[simp] theorem State.address_params : (s.address k).params = s.params := rfl
@[simp] theorem State.address_claimed : (s.address k).claimed = s.claimed := rfl
@[simp] theorem State.address_insts : (s.address k).insts = s.insts := rfl
@[simp] theorem State.address_now : (s.address k).now = s.now := rfl
@[simp] theorem State.address_pins : (s.address k).pins = s.pins := rfl
@[simp] theorem State.address_wrFail : (s.address k).wrFail = s.wrFail := rfl
@[simp] theorem State.address_pinCfgOk : (s.address k).pinCfgOk = s.pinCfgOk := rfl
@[simp] theorem State.address_inputs : (s.address k).inputs = s.inputs := rfl
@[simp] theorem State.address_ticks : (s.address k).ticks = s.ticks := rfl
@[simp] theorem State.address_cur : (s.address k).cur = k := rfl
@[simp] theorem State.address_result : (s.address k).result = s.result := rfl
@[simp] theorem State.address_inst? : (s.address k).inst? = s.insts[k]? := rfl
end address

section respond
variable (c : Inst) (st : Status) (v : Byte)
@[simp] theorem Inst.respond_cfg : (c.respond st v).cfg = c.cfg := rfl
@[simp] theorem Inst.respond_ring : (c.respond st v).ring = c.ring := rfl
@[simp] theorem Inst.respond_rx : (c.respond st v).rx = c.rx := rfl
@[simp] theorem Inst.respond_tx : (c.respond st v).tx = c.tx := rfl
@[simp] theorem Inst.respond_line : (c.respond st v).line = c.line := rfl
@[simp] theorem Inst.respond_putsTask : (c.respond st v).putsTask = c.putsTask := rfl
@[simp] theorem Inst.respond_putsResult : (c.respond st v).putsResult = c.putsResult := rfl
@[simp] theorem Inst.respond_readTask : (c.respond st v).readTask = c.readTask := rfl
@[simp] theorem Inst.respond_readResult : (c.respond st v).readResult = c.readResult := rfl
@[simp] theorem Inst.respond_freeIx : (c.respond st v).freeIx = c.freeIx := rfl
@[simp] theorem Inst.respond_resp : (c.respond st v).out.resp = some ⟨st, v⟩ := rfl
@[simp] theorem Inst.respond_txResp : (c.respond st v).out.txResp = c.out.txResp := rfl
@[simp] theorem Inst.respond_rxNotify : (c.respond st v).out.rxNotify = c.out.rxNotify := rfl
@[simp] theorem Inst.refuse_cfg : c.refuse.cfg = c.cfg := rfl
@[simp] theorem Inst.refuse_ring : c.refuse.ring = c.ring := rfl
@[simp] theorem Inst.refuse_rx : c.refuse.rx = c.rx := rfl
@[simp] theorem Inst.refuse_tx : c.refuse.tx = c.tx := rfl
@[simp] theorem Inst.refuse_line : c.refuse.line = c.line := rfl
@[simp] theorem Inst.refuse_putsTask : c.refuse.putsTask = c.putsTask := rfl
@[simp] theorem Inst.refuse_putsResult : c.refuse.putsResult = c.putsResult := rfl
@[simp] theorem Inst.refuse_readTask : c.refuse.readTask = c.readTask := rfl
@[simp] theorem Inst.refuse_readResult : c.refuse.readResult = c.readResult := rfl
@[simp] theorem Inst.refuse_freeIx : c.refuse.freeIx = c.freeIx := rfl
@[simp] theorem Inst.refuse_resp : c.refuse.out.resp = some ⟨.refused, 0⟩ := rfl
@[simp] theorem Inst.refuse_txResp : c.refuse.out.txResp = c.out.txResp := rfl
@[simp] theorem Inst.respondTx_cfg : (c.respondTx st).cfg = c.cfg := rfl
@[simp] theorem Inst.respondTx_ring : (c.respondTx st).ring = c.ring := rfl
@[simp] theorem Inst.respondTx_rx : (c.respondTx st).rx = c.rx := rfl
@[simp] theorem Inst.respondTx_tx : (c.respondTx st).tx = c.tx := rfl
@[simp] theorem Inst.respondTx_line : (c.respondTx st).line = c.line := rfl
@[simp] theorem Inst.respondTx_putsTask : (c.respondTx st).putsTask = c.putsTask := rfl
@[simp] theorem Inst.respondTx_putsResult : (c.respondTx st).putsResult = c.putsResult := rfl
@[simp] theorem Inst.respondTx_readTask : (c.respondTx st).readTask = c.readTask := rfl
@[simp] theorem Inst.respondTx_readResult : (c.respondTx st).readResult = c.readResult := rfl
@[simp] theorem Inst.respondTx_freeIx : (c.respondTx st).freeIx = c.freeIx := rfl
@[simp] theorem Inst.respondTx_txResp : (c.respondTx st).out.txResp = some ⟨st, 0⟩ := rfl
@[simp] theorem Inst.respondTx_resp : (c.respondTx st).out.resp = c.out.resp := rfl
end respond

section level
variable (c : Inst) (o : OutPin) (v : Bool)
@[simp] theorem Inst.setLevel_cfg : (c.setLevel o v).cfg = c.cfg := by cases o <;> rfl
@[simp] theorem Inst.setLevel_ring : (c.setLevel o v).ring = c.ring := by cases o <;> rfl
@[simp] theorem Inst.setLevel_rx : (c.setLevel o v).rx = c.rx := by cases o <;> rfl
@[simp] theorem Inst.setLevel_out : (c.setLevel o v).out = c.out := by cases o <;> rfl
@[simp] theorem Inst.setLevel_line : (c.setLevel o v).line = c.line := by cases o <;> rfl
@[simp] theorem Inst.setLevel_putsTask : (c.setLevel o v).putsTask = c.putsTask := by
  cases o <;> rfl
@[simp] theorem Inst.setLevel_putsResult : (c.setLevel o v).putsResult = c.putsResult := by
  cases o <;> rfl
@[simp] theorem Inst.setLevel_readTask : (c.setLevel o v).readTask = c.readTask := by
  cases o <;> rfl
@[simp] theorem Inst.setLevel_readResult : (c.setLevel o v).readResult = c.readResult := by
  cases o <;> rfl
@[simp] theorem Inst.setLevel_freeIx : (c.setLevel o v).freeIx = c.freeIx := by cases o <;> rfl
@[simp] theorem Inst.setLevel_txState : (c.setLevel o v).tx.state = c.tx.state := by
  cases o <;> rfl
@[simp] theorem Inst.setLevel_txBit : (c.setLevel o v).tx.bit = c.tx.bit := by cases o <;> rfl
@[simp] theorem Inst.setLevel_txData : (c.setLevel o v).tx.data = c.tx.data := by cases o <;> rfl
@[simp] theorem Inst.setLevel_txStart : (c.setLevel o v).tx.start = c.tx.start := by
  cases o <;> rfl
@[simp] theorem Inst.setLevel_txT0 : (c.setLevel o v).tx.t0 = c.tx.t0 := by cases o <;> rfl
end level

/-! ## The addressed instance -/

/-- What an update of the addressed instance answers where the block has the instance. -/
theorem State.update_eq {s : State} {c : Inst} (h : s.inst? = some c) (f : Inst → Inst) :
    s.update f = .next (s.setInst (f c)) := by simp [State.update, State.onInst, h]

/-- Everything an update of the addressed instance can answer. -/
theorem State.update_cases {s t : State} {f : Inst → Inst} (h : s.update f = .next t) :
    ∃ c, s.inst? = some c ∧ t = s.setInst (f c) := by
  unfold State.update State.onInst at h
  split at h
  · exact ⟨_, ‹_›, by injection h with h; exact h.symm⟩
  · cases h

/-- Everything an operation on the addressed instance can answer. -/
theorem State.onInst_cases {s t : State} {f : Inst → Answer} (h : s.onInst f = .next t) :
    ∃ c, s.inst? = some c ∧ f c = .next t := by
  unfold State.onInst at h
  split at h
  · exact ⟨_, ‹_›, h⟩
  · cases h

/-- Everything a fallible update of the addressed instance can answer. -/
theorem State.updateE_cases {s t : State} {f : Inst → Except Fault Inst}
    (h : s.updateE f = .next t) :
    ∃ c c', s.inst? = some c ∧ f c = .ok c' ∧ t = s.setInst c' := by
  obtain ⟨c, hc, h⟩ := State.onInst_cases h
  cases hf : f c with
  | error e => simp [hf] at h
  | ok c' => exact ⟨c, c', hc, hf, by simpa [hf] using h.symm⟩

/-- Reading the addressed instance after replacing it. -/
theorem State.inst?_setInst {s : State} {c : Inst} (h : s.inst? = some c) (d : Inst) :
    (s.setInst d).inst? = some d := by
  have := (List.getElem?_eq_some_iff.mp h).1
  simp [State.inst?, State.setInst, this]

/-- Replacing the addressed instance twice. -/
@[simp] theorem State.setInst_setInst (s : State) (c d : Inst) :
    (s.setInst c).setInst d = s.setInst d := by simp [State.setInst]

/-- From a chain that answers a next state, the state in between. -/
theorem andThen_next {o : Answer} {f : State → Answer} {t : State} (h : andThen o f = .next t) :
    ∃ s, o = .next s ∧ f s = .next t := by
  cases o with
  | next s => exact ⟨s, rfl, h⟩
  | fault r => cases h
  | refused r => cases h

@[simp] theorem andThen_of_next (s : State) (f : State → Answer) : andThen (.next s) f = f s := rfl

/-- Replacing the addressed instance by itself. -/
theorem State.setInst_self {s : State} {c : Inst} (h : s.inst? = some c) : s.setInst c = s := by
  obtain ⟨⟩ := s
  simp only [State.inst?, State.setInst] at *
  rw [List.getElem?_eq_some_iff] at h
  obtain ⟨h1, rfl⟩ := h
  simp

/-- An update is a fallible update that does not fail. -/
theorem State.update_as {s : State} (f : Inst →
    Inst) : s.update f = s.updateE (fun c => .ok (f c)) := rfl

/-! ## Lists of instances with one replaced -/

/-- What holds of every instance and of the new one holds after the replacement. -/
theorem Inst.forall_mem_set {P : Inst → Prop} {l : List Inst} {k} {c' : Inst} (h : ∀ c ∈ l,
    P c) (hc : P c') : ∀ c ∈ l.set k c', P c := by
  intro c hm
  rcases List.mem_or_eq_of_mem_set hm with h1 | rfl
  · exact h c h1
  · exact hc

/-- A reading that the new one shares is the same after the replacement. -/
theorem Inst.map_set {α β} (f : α →
    β) (l : List α) (k : Nat) (c c' : α) (hc : l[k]? = some c)
    (hf : f c' = f c) : (l.set k c').map f = l.map f := by
  rw [List.map_set, hf]
  obtain ⟨h, rfl⟩ := List.getElem?_eq_some_iff.mp hc
  apply List.ext_getElem?
  intro j
  by_cases hj : j = k
  · subst hj; simp [h]
  · rw [List.getElem?_set_ne (by omega)]

end Sys2Proof.Machine
end

