-- ==== Sys2Proof/Laws/Pins.lean ====
section
/-! SUPPORT. Sets of pins, the pin writes, and the abort. -/

namespace Sys2Proof.Machine

/-! ## Sets of pins (R17) -/

theorem PinSet.has_only (p q : Nat) : PinSet.has (PinSet.only p) q = decide (q = p) := by
  simp [PinSet.has, PinSet.only, Nat.testBit_two_pow, eq_comm]

theorem PinSet.has_or (S T : PinSet) (q : Nat) :
    PinSet.has (S ||| T) q = (PinSet.has S q || PinSet.has T q) := by simp [PinSet.has]

theorem PinSet.has_and (S T : PinSet) (q : Nat) :
    PinSet.has (S &&& T) q = (PinSet.has S q && PinSet.has T q) := by simp [PinSet.has]

theorem PinSet.has_xor (S T : PinSet) (q : Nat) :
    PinSet.has (S ^^^ T) q = (PinSet.has S q ^^ PinSet.has T q) := by simp [PinSet.has]

@[simp] theorem PinSet.has_empty (q : Nat) : PinSet.has 0 q = false := by simp [PinSet.has]

/-- Writing one pin's level leaves every other pin's as it was. -/
theorem PinSet.has_put (S : PinSet) (p q : Nat) (v : Bool) :
    PinSet.has (PinSet.put S p v) q = if q = p then v else PinSet.has S q := by
  unfold PinSet.put
  cases v <;> by_cases h : q = p <;>
    simp [PinSet.has_or, PinSet.has_xor, PinSet.has_only, h]

/-- Two sets with the same members are equal. -/
theorem PinSet.ext {S T : PinSet} (h : ∀ q, PinSet.has S q = PinSet.has T q) : S = T :=
  Nat.eq_of_testBit_eq h

theorem PinSet.eq_empty_iff {S : PinSet} : S = 0 ↔ ∀ q, PinSet.has S q = false :=
  ⟨fun h q => h ▸ PinSet.has_empty q,
      fun h => PinSet.ext fun q => (h q).trans (PinSet.has_empty q).symm⟩

/-- `S ⊆ T`, as numbers. -/
theorem PinSet.subset_iff {S T : PinSet} : S &&& T = S ↔ ∀ q,
    PinSet.has S q = true → PinSet.has T q = true := by
  refine ⟨fun h q hq => ?_, fun h => PinSet.ext fun q => ?_⟩
  · rw [← h, PinSet.has_and, Bool.and_eq_true] at hq; exact hq.2
  · rw [PinSet.has_and]
    have := h q
    cases hS : PinSet.has S q <;> simp_all

/-- `S ∩ T = ∅`, as numbers. -/
theorem PinSet.disjoint_iff {S T : PinSet} : S &&& T = 0 ↔ ∀ q,
    PinSet.has S q = true → PinSet.has T q = false := by
  rw [PinSet.eq_empty_iff]
  refine forall_congr' fun q => ?_
  rw [PinSet.has_and]
  cases PinSet.has S q <;> cases PinSet.has T q <;> decide

/-- Every member is a pin the block has (R21). -/
theorem PinSet.exists_iff {n : Nat} {S : PinSet} :
    S < 2 ^ n ↔ ∀ q, PinSet.has S q = true → q < n := by
  refine ⟨fun h q hq => ?_, fun h => Nat.lt_pow_two_of_testBit S fun q hq => ?_⟩
  · by_contra hn
    have : S < 2 ^ q := h.trans_le (Nat.pow_le_pow_right (by decide) (by omega))
    rw [PinSet.has, Nat.testBit_lt_two_pow this] at hq; cases hq
  · cases hS : S.testBit q
    · rfl
    · exact absurd (h q hS) (by omega)

/-- The list of a set's members holds exactly those (R137). -/
theorem PinSet.mem_members {S : PinSet} {p : Nat} :
    p ∈ PinSet.members S ↔ PinSet.has S p = true := by
  simp only [PinSet.members, List.mem_filter, List.mem_range, and_iff_right_iff_imp]
  exact PinSet.exists_iff.mp Nat.lt_log2_self p

/-- The members are listed in ascending order (R137). -/
theorem PinSet.members_sorted (S : PinSet) : (PinSet.members S).Pairwise fun p q => p < q :=
  List.Pairwise.filter _ List.pairwise_lt_range

/-! ## Pin writes (R136, R137) -/

/-- Everything a run of pin writes can do: with no failure every listed pin takes the level; the
first failing pin stops the run, the pins before it have the level, and no other pin changed. -/
theorem Inst.pinWrites_cases {wrFail : PinSet} {v : Bool} {ps : List Nat} {c d : Inst}
    {o : Option OutPin} (h : Inst.pinWrites wrFail v ps c = (d, o)) :
    ∃ L, d = { c with tx := { c.tx with level := L } } ∧
      ((o = none ∧ (∀ p ∈ ps, PinSet.has wrFail p = false) ∧
          ∀ q, PinSet.has L q = if q ∈ ps then v else PinSet.has c.tx.level q) ∨
       (∃ pre p post, o = some (.tx p) ∧ ps = pre ++ p :: post ∧
          (∀ x ∈ pre, PinSet.has wrFail x = false) ∧ PinSet.has wrFail p = true ∧
          ∀ q, PinSet.has L q = if q ∈ pre then v else PinSet.has c.tx.level q)) := by
  induction ps generalizing c with
  | nil =>
    simp only [Inst.pinWrites, Prod.mk.injEq] at h
    obtain ⟨rfl, rfl⟩ := h
    exact ⟨c.tx.level, rfl, .inl ⟨rfl, by simp, by simp⟩⟩
  | cons p ps ih =>
    unfold Inst.pinWrites Inst.pinWrite at h
    cases hf : PinSet.has wrFail p with
    | true =>
      simp only [Inst.outPinId, hf, if_true, Prod.mk.injEq] at h
      obtain ⟨rfl, rfl⟩ := h
      exact ⟨c.tx.level, rfl, .inr ⟨[], p, ps, rfl, rfl, by simp, hf, by simp⟩⟩
    | false =>
      simp only [Inst.outPinId, hf, Bool.false_eq_true, if_false] at h
      obtain ⟨L, rfl, hL⟩ := ih h
      refine ⟨L, rfl, ?_⟩
      have hc : ∀ q, PinSet.has (c.setLevel (.tx p) v).tx.level q =
          if q = p then v else PinSet.has c.tx.level q := fun q => PinSet.has_put _ _ _ _
      rcases hL with ⟨rfl, hn, hq⟩ | ⟨pre, x, post, rfl, rfl, hn, hx, hq⟩
      · refine .inl ⟨rfl, by simpa [hf] using hn, fun q => ?_⟩
        rw [hq, hc]; simp only [List.mem_cons]
        by_cases h1 : q ∈ ps <;> by_cases h2 : q = p <;> simp [h1, h2]
      · refine .inr ⟨p :: pre, x, post, rfl, rfl, by simpa [hf] using hn, hx, fun q => ?_⟩
        rw [hq, hc]; simp only [List.mem_cons]
        by_cases h1 : q ∈ pre <;> by_cases h2 : q = p <;> simp [h1, h2]

/-- Everything `WriteTx(v)` can do (R137). -/
theorem Inst.writeTx_cases {wrFail : PinSet} {v : Bool} {c d : Inst} {o : Option OutPin}
    (h : c.writeTx wrFail v = (d, o)) :
    ∃ L, d = { c with tx := { c.tx with level := L } } ∧
      ((o = none ∧ (∀ p, PinSet.has c.cfg.txPins p = true → PinSet.has wrFail p = false) ∧
          ∀ q, PinSet.has L q =
            if PinSet.has c.cfg.txPins q then v else PinSet.has c.tx.level q) ∨
       (∃ p, o = some (.tx p) ∧ PinSet.has c.cfg.txPins p = true ∧ PinSet.has wrFail p = true ∧
          (∀ q, PinSet.has c.cfg.txPins q = true → q < p →
            PinSet.has wrFail q = false) ∧
          ∀ q, PinSet.has L q =
            if PinSet.has c.cfg.txPins q && decide (q < p) then v
            else PinSet.has c.tx.level q)) := by
  obtain ⟨L, hd, hL⟩ := Inst.pinWrites_cases h
  refine ⟨L, hd, ?_⟩
  rcases hL with ⟨ho, hn, hq⟩ | ⟨pre, p, post, ho, hps, hn, hp, hq⟩
  · exact .inl ⟨ho, fun p hp => hn p (PinSet.mem_members.mpr hp),
      fun q => by rw [hq]; simp only [PinSet.mem_members]⟩
  · have hm : ∀ q, q ∈ pre ↔ (PinSet.has c.cfg.txPins q = true ∧ q < p) := by
      have hs := PinSet.members_sorted c.cfg.txPins
      rw [hps] at hs
      have hs' := List.pairwise_append.mp hs
      intro q
      constructor
      · intro hq
        exact ⟨PinSet.mem_members.mp (by rw [hps]; simp [hq]), hs'.2.2 q hq p (by simp)⟩
      · rintro ⟨h1, h2⟩
        have := PinSet.mem_members.mpr h1
        rw [hps] at this
        simp only [List.mem_append, List.mem_cons] at this
        rcases this with h | rfl | h
        · exact h
        · omega
        · have := (List.pairwise_cons.mp hs'.2.1).1 q h
          omega
    refine .inr ⟨p, ho, PinSet.mem_members.mp (by rw [hps]; simp), hp,
      fun q h1 h2 => hn q ((hm q).mpr ⟨h1, h2⟩), fun q => ?_⟩
    rw [hq]
    by_cases h : q ∈ pre
    · have := (hm q).mp h; simp [h, this.1, this.2]
    · have h' := (not_congr (hm q)).mp h
      rw [if_neg h, if_neg]
      simpa using h'

/-- With no failing TX pin `WriteTx(v)` succeeds, and every pin's level is known (R137). -/
theorem Inst.writeTx_succeeds {wrFail : PinSet} {c : Inst} (v : Bool) (h : ∀ p,
    PinSet.has c.cfg.txPins p = true → PinSet.has wrFail p = false) :
   ∃ L, c.writeTx wrFail v = ({c with tx := {c.tx with level := L}}, none) ∧ ∀ q,
       PinSet.has L q = if PinSet.has c.cfg.txPins q then v else PinSet.has c.tx.level q := by
  cases hr : c.writeTx wrFail v with
  | mk d o =>
    obtain ⟨L, rfl, ⟨rfl, -, hq⟩ | ⟨p, -, hp, hf, -, -⟩⟩ := Inst.writeTx_cases hr
    · exact ⟨L, rfl, hq⟩
    · rw [h p hp] at hf; cases hf

/-- When `p` is the lowest TX pin whose write fails, `WriteTx(v)` stops at it (R137). -/
theorem Inst.writeTx_fails {wrFail : PinSet} {c : Inst} (v : Bool) {p : Nat}
    (hp : PinSet.has c.cfg.txPins p = true) (hf : PinSet.has wrFail p = true)
   (hlow : ∀ q, PinSet.has c.cfg.txPins q = true → q < p → PinSet.has wrFail q = false) :
   ∃ L, c.writeTx wrFail v = ({c with tx := {c.tx with level := L}}, some (.tx p)) ∧ ∀ q,
       PinSet.has L q = if PinSet.has c.cfg.txPins q = true ∧
       q < p then v else PinSet.has c.tx.level q := by
  cases hr : c.writeTx wrFail v with
  | mk d o =>
    obtain ⟨L, rfl, ⟨rfl, hn, hq⟩ | ⟨p', rfl, hp', hf', hl', hq⟩⟩ := Inst.writeTx_cases hr
    · rw [hn p hp] at hf; cases hf
    · have : p' = p := by
        rcases lt_trichotomy p' p with h | h | h
        · rw [hlow p' hp' h] at hf'; cases hf'
        · exact h
        · rw [hl' p hp h] at hf; cases hf
      subst this
      refine ⟨L, rfl, fun q => ?_⟩
      rw [hq]; simp only [Bool.and_eq_true, decide_eq_true_eq]

/-! ## Abort (R151) -/

section abort
variable (k : Nat) (o : OutPin) (c : Inst)

@[simp] theorem Inst.loseLevel_cfg : (c.loseLevel k o).cfg = c.cfg := by simp [Inst.loseLevel]
@[simp] theorem Inst.loseLevel_ring : (c.loseLevel k o).ring = c.ring := by simp [Inst.loseLevel]
@[simp] theorem Inst.loseLevel_rx : (c.loseLevel k o).rx = c.rx := by simp [Inst.loseLevel]
@[simp] theorem Inst.loseLevel_out : (c.loseLevel k o).out = c.out := by simp [Inst.loseLevel]
@[simp] theorem Inst.loseLevel_line : (c.loseLevel k o).line = c.line := by simp [Inst.loseLevel]
@[simp] theorem Inst.loseLevel_putsTask : (c.loseLevel k o).putsTask = c.putsTask := by
  simp [Inst.loseLevel]
@[simp] theorem Inst.loseLevel_putsResult : (c.loseLevel k o).putsResult = c.putsResult := by
  simp [Inst.loseLevel]
@[simp] theorem Inst.loseLevel_readTask : (c.loseLevel k o).readTask = c.readTask := by
  simp [Inst.loseLevel]
@[simp] theorem Inst.loseLevel_readResult : (c.loseLevel k o).readResult = c.readResult := by
  simp [Inst.loseLevel]
@[simp] theorem Inst.loseLevel_freeIx : (c.loseLevel k o).freeIx = c.freeIx + 1 := by
  simp [Inst.loseLevel]

@[simp] theorem Inst.abort_cfg : (c.abort k o).cfg = c.cfg := by
  simp only [Inst.abort, Inst.respondTx_cfg]; split <;> simp
@[simp] theorem Inst.abort_ring : (c.abort k o).ring = c.ring := by
  simp only [Inst.abort, Inst.respondTx_ring]; split <;> simp
@[simp] theorem Inst.abort_rx : (c.abort k o).rx = c.rx := by
  simp only [Inst.abort, Inst.respondTx_rx]; split <;> simp
@[simp] theorem Inst.abort_line : (c.abort k o).line = c.line := by
  simp only [Inst.abort, Inst.respondTx_line]; split <;> simp
@[simp] theorem Inst.abort_putsTask : (c.abort k o).putsTask = c.putsTask := by
  simp only [Inst.abort, Inst.respondTx_putsTask]; split <;> simp
@[simp] theorem Inst.abort_putsResult : (c.abort k o).putsResult = c.putsResult := by
  simp only [Inst.abort, Inst.respondTx_putsResult]; split <;> simp
@[simp] theorem Inst.abort_readTask : (c.abort k o).readTask = c.readTask := by
  simp only [Inst.abort, Inst.respondTx_readTask]; split <;> simp
@[simp] theorem Inst.abort_readResult : (c.abort k o).readResult = c.readResult := by
  simp only [Inst.abort, Inst.respondTx_readResult]; split <;> simp
@[simp] theorem Inst.abort_txState : (c.abort k o).tx.state = .txIdle := by
  simp [Inst.abort]
@[simp] theorem Inst.abort_txResp : (c.abort k o).out.txResp = some ⟨.pinWriteError, 0⟩ := by
  simp [Inst.abort]
@[simp] theorem Inst.abort_resp : (c.abort k o).out.resp = c.out.resp := by
  simp only [Inst.abort, Inst.respondTx_resp]; split <;> simp
@[simp] theorem Inst.abort_rxNotify : (c.abort k o).out.rxNotify = c.out.rxNotify := by
  simp only [Inst.abort, Inst.respondTx]; split <;> simp
end abort

/-- Everything `Abort(p)` does for a TX pin (R151). -/
theorem Inst.abort_tx_eq (k : Nat) (p : Nat) (c : Inst) : ∃ v dir n,
    c.abort k (.tx p) =
      { c with
        tx := { c.tx with
          state := .txIdle, level := PinSet.put c.tx.level p v, dirLevel := dir }
        out := { c.out with txResp := some ⟨.pinWriteError, 0⟩ }
        freeIx := n } ∧ (c.cfg.hdx = false → dir = c.tx.dirLevel) := by
  cases hh : c.cfg.hdx
  · exact ⟨_, _, _, by
      simp [Inst.abort, Inst.loseLevel, Inst.setLevel, hh, Inst.respondTx]; exact ⟨rfl, rfl⟩,
      fun _ => rfl⟩
  · exact ⟨_, _, _, by
      simp [Inst.abort, Inst.loseLevel, Inst.setLevel, hh, Inst.respondTx]
      exact ⟨⟨rfl, rfl⟩, rfl⟩, by simp⟩

end Sys2Proof.Machine
end

