-- ==== Sys2Proof/Laws/Engines.lean ====
section
/-! SUPPORT. What the engines leave alone: TXSTEP and PUTCHAR change only the transmitter, RXSTEP
only the receiver. -/

namespace Sys2Proof.Machine

/-! ## Go on or abort -/

/-- A property that the continuation and the abort keep. -/
theorem Inst.orAbort_ind {P : Inst → Prop} {k : Nat} {r : Inst × Option OutPin} {f : Inst → Inst}
    (hr : P r.1) (hf : ∀ c, P c → P (f c)) (ha : ∀ c o, P c → P (c.abort k o)) :
    P (Inst.orAbort k r f) := by
  unfold Inst.orAbort
  split
  · exact ha _ _ hr
  · exact hf _ hr

/-- A field that neither the continuation nor the abort changes. -/
theorem Inst.orAbort_keeps {α : Type} {g : Inst → α} {k : Nat} {r : Inst × Option OutPin}
    {f : Inst → Inst} {a : α} (hr : g r.1 = a) (hf : ∀ c, g c = a → g (f c) = a)
    (ha : ∀ c o, g c = a → g (c.abort k o) = a) : g (Inst.orAbort k r f) = a :=
  Inst.orAbort_ind (P := fun c => g c = a) hr hf ha

theorem Inst.writeTx_eq_level (wrFail : PinSet) (v : Bool) (c : Inst) :
    ∃ L, (c.writeTx wrFail v).1 = { c with tx := { c.tx with level := L } } := by
  cases h : c.writeTx wrFail v with
  | mk d o => exact (Inst.writeTx_cases h).imp fun L hL => hL.1

theorem Inst.pinWrite_eq (wrFail : PinSet) (o : OutPin) (v : Bool) (c : Inst) :
    (c.pinWrite wrFail o v).1 = c ∨ (c.pinWrite wrFail o v).1 = c.setLevel o v := by
  unfold Inst.pinWrite; split
  · exact .inl rfl
  · exact .inr rfl

/-- What an instance holds apart from the transmitter's own: everything but `tx`, the transmitter's
response and the counter of free levels. -/
def Inst.restOfTx (c : Inst) : Inst :=
  { c with tx := Inst.reset.tx, out := { c.out with txResp := none }, freeIx := 0 }

/-- What an instance holds apart from the receiver's own: everything but `rx`, the ring and the
notification. -/
def Inst.restOfRx (c : Inst) : Inst :=
  { c with rx := Inst.reset.rx, ring := Inst.reset.ring, out := { c.out with rxNotify := false } }

theorem Inst.restOfTx_setLevel (c : Inst) (o : OutPin) (v : Bool) :
    (c.setLevel o v).restOfTx = c.restOfTx := by cases o <;> rfl

theorem Inst.restOfTx_abort (k : Nat) (c : Inst) (o : OutPin) :
    (c.abort k o).restOfTx = c.restOfTx := by
  cases o <;> cases h : c.cfg.hdx <;>
    simp [Inst.restOfTx, Inst.abort, Inst.loseLevel, Inst.setLevel, Inst.respondTx, h]

theorem Inst.restOfTx_writeTx (wrFail : PinSet) (v : Bool) (c : Inst) :
    (c.writeTx wrFail v).1.restOfTx = c.restOfTx := by
  obtain ⟨L, h⟩ := c.writeTx_eq_level wrFail v
  rw [h]; rfl

theorem Inst.restOfTx_pinWrite (wrFail : PinSet) (o : OutPin) (v : Bool) (c : Inst) :
    (c.pinWrite wrFail o v).1.restOfTx = c.restOfTx := by
  rcases c.pinWrite_eq wrFail o v with h | h <;> rw [h]
  exact c.restOfTx_setLevel o v

/-- TXSTEP changes nothing but the transmitter's own registers and its response (R156). -/
theorem Inst.restOfTx_txStep (k : Nat) (p : Params) (wrFail : PinSet) (now : Nat) (c : Inst) :
    (c.txStep k p wrFail now).restOfTx = c.restOfTx := by
  have ha : ∀ (d : Inst) o, d.restOfTx = c.restOfTx → (d.abort k o).restOfTx = c.restOfTx :=
    fun d o h => (d.restOfTx_abort k o).trans h
  unfold Inst.txStep
  split
  · rfl
  · unfold Inst.txSend
    split
    · exact Inst.orAbort_keeps (c.restOfTx_writeTx _ _) (fun d h => by split <;> exact h) ha
    · rfl
  · unfold Inst.txStop
    split
    · exact Inst.orAbort_keeps (c.restOfTx_writeTx _ _) (fun d h => h) ha
    · rfl
  · unfold Inst.txGuard
    split
    · split
      · exact Inst.orAbort_keeps (c.restOfTx_pinWrite _ _ _) (fun d h => h) ha
      · rfl
    · rfl

/-- An accepted PUTCHAR changes nothing but the transmitter's own registers and its response. -/
theorem Inst.restOfTx_txAccept (k : Nat) (p : Params) (wrFail : PinSet) (now : Nat) (b : Byte)
    (c : Inst) : (c.txAccept k p wrFail now b).restOfTx = c.restOfTx := by
  have ha : ∀ (d : Inst) o, d.restOfTx = c.restOfTx → (d.abort k o).restOfTx = c.restOfTx :=
    fun d o h => (d.restOfTx_abort k o).trans h
  have hs : ∀ d : Inst, d.restOfTx = c.restOfTx → (d.txDriveStart k wrFail).restOfTx = c.restOfTx :=
    fun d h => Inst.orAbort_keeps ((d.restOfTx_writeTx _ _).trans h) (fun _ h => h) ha
  unfold Inst.txAccept
  dsimp only
  split
  · exact Inst.orAbort_keeps ((Inst.restOfTx_pinWrite _ _ _ _).trans rfl) hs ha
  · exact hs _ rfl

/-- RXSTEP changes nothing but the receiver's own registers, the ring and the notification
(R132, R156). -/
theorem Inst.restOfRx_rxStep (p : Params) (now : Nat) (level : Bool) (c : Inst) :
    (c.rxStep p now level).restOfRx = c.restOfRx := by
  unfold Inst.rxStep
  split
  · unfold Inst.rxIdle Inst.takeRxEdge; split
    · dsimp only; split <;> rfl
    · rfl
  · unfold Inst.rxStartHalf; split <;> rfl
  · unfold Inst.rxSample; split
    · dsimp only; split <;> rfl
    · rfl
  · unfold Inst.rxStop; split
    · dsimp only; split <;> rfl
    · rfl

section fields
variable (k : Nat) (p : Params) (wrFail : PinSet) (now : Nat) (level : Bool) (c : Inst)

@[simp] theorem Inst.txStep_cfg : (c.txStep k p wrFail now).cfg = c.cfg := by
  have h := congrArg (fun d : Inst => d.cfg) (c.restOfTx_txStep k p wrFail now); exact h
@[simp] theorem Inst.txStep_ring : (c.txStep k p wrFail now).ring = c.ring := by
  have h := congrArg (fun d : Inst => d.ring) (c.restOfTx_txStep k p wrFail now); exact h
@[simp] theorem Inst.txStep_rx : (c.txStep k p wrFail now).rx = c.rx := by
  have h := congrArg (fun d : Inst => d.rx) (c.restOfTx_txStep k p wrFail now); exact h
@[simp] theorem Inst.txStep_line : (c.txStep k p wrFail now).line = c.line := by
  have h := congrArg (fun d : Inst => d.line) (c.restOfTx_txStep k p wrFail now); exact h
@[simp] theorem Inst.txStep_putsTask : (c.txStep k p wrFail now).putsTask = c.putsTask := by
  have h := congrArg (fun d : Inst => d.putsTask) (c.restOfTx_txStep k p wrFail now); exact h
@[simp] theorem Inst.txStep_readTask : (c.txStep k p wrFail now).readTask = c.readTask := by
  have h := congrArg (fun d : Inst => d.readTask) (c.restOfTx_txStep k p wrFail now); exact h
@[simp] theorem Inst.txStep_resp : (c.txStep k p wrFail now).out.resp = c.out.resp := by
  have h := congrArg (fun d : Inst => d.out.resp) (c.restOfTx_txStep k p wrFail now); exact h
@[simp] theorem Inst.txStep_rxNotify : (c.txStep k p wrFail now).out.rxNotify = c.out.rxNotify := by
  have h := congrArg (fun d : Inst => d.out.rxNotify) (c.restOfTx_txStep k p wrFail now); exact h

@[simp] theorem Inst.rxStep_cfg : (c.rxStep p now level).cfg = c.cfg := by
  have h := congrArg (fun d : Inst => d.cfg) (c.restOfRx_rxStep p now level); exact h
@[simp] theorem Inst.rxStep_tx : (c.rxStep p now level).tx = c.tx := by
  have h := congrArg (fun d : Inst => d.tx) (c.restOfRx_rxStep p now level); exact h
@[simp] theorem Inst.rxStep_line : (c.rxStep p now level).line = c.line := by
  have h := congrArg (fun d : Inst => d.line) (c.restOfRx_rxStep p now level); exact h
@[simp] theorem Inst.rxStep_putsTask : (c.rxStep p now level).putsTask = c.putsTask := by
  have h := congrArg (fun d : Inst => d.putsTask) (c.restOfRx_rxStep p now level); exact h
@[simp] theorem Inst.rxStep_readTask : (c.rxStep p now level).readTask = c.readTask := by
  have h := congrArg (fun d : Inst => d.readTask) (c.restOfRx_rxStep p now level); exact h
@[simp] theorem Inst.rxStep_freeIx : (c.rxStep p now level).freeIx = c.freeIx := by
  have h := congrArg (fun d : Inst => d.freeIx) (c.restOfRx_rxStep p now level); exact h
@[simp] theorem Inst.rxStep_resp : (c.rxStep p now level).out.resp = c.out.resp := by
  have h := congrArg (fun d : Inst => d.out.resp) (c.restOfRx_rxStep p now level); exact h
@[simp] theorem Inst.rxStep_txResp : (c.rxStep p now level).out.txResp = c.out.txResp := by
  have h := congrArg (fun d : Inst => d.out.txResp) (c.restOfRx_rxStep p now level); exact h

@[simp] theorem Inst.txAccept_cfg (b : Byte) : (c.txAccept k p wrFail now b).cfg = c.cfg := by
  have h := congrArg (fun d : Inst => d.cfg) (c.restOfTx_txAccept k p wrFail now b); exact h
@[simp] theorem Inst.txAccept_ring (b : Byte) : (c.txAccept k p wrFail now b).ring = c.ring := by
  have h := congrArg (fun d : Inst => d.ring) (c.restOfTx_txAccept k p wrFail now b); exact h
@[simp] theorem Inst.txAccept_rx (b : Byte) : (c.txAccept k p wrFail now b).rx = c.rx := by
  have h := congrArg (fun d : Inst => d.rx) (c.restOfTx_txAccept k p wrFail now b); exact h
@[simp] theorem Inst.txAccept_line (b : Byte) : (c.txAccept k p wrFail now b).line = c.line := by
  have h := congrArg (fun d : Inst => d.line) (c.restOfTx_txAccept k p wrFail now b); exact h
@[simp] theorem Inst.txAccept_putsTask (b : Byte) :
    (c.txAccept k p wrFail now b).putsTask = c.putsTask := by
  have h := congrArg (fun d : Inst => d.putsTask) (c.restOfTx_txAccept k p wrFail now b); exact h
@[simp] theorem Inst.txAccept_readTask (b : Byte) :
    (c.txAccept k p wrFail now b).readTask = c.readTask := by
  have h := congrArg (fun d : Inst => d.readTask) (c.restOfTx_txAccept k p wrFail now b); exact h
end fields

/-! ## The fields that PUTCHAR, the host loops and the end of a tick leave alone -/

section
variable (k : Nat) (p : Params) (w : PinSet) (now : Nat) (b : Byte) (c : Inst)

@[simp] theorem Inst.putchar_cfg : (c.putchar k p w now b).cfg = c.cfg := by
  unfold Inst.putchar; split <;> simp
@[simp] theorem Inst.putchar_ring : (c.putchar k p w now b).ring = c.ring := by
  unfold Inst.putchar; split <;> simp
@[simp] theorem Inst.putchar_rx : (c.putchar k p w now b).rx = c.rx := by
  unfold Inst.putchar; split <;> simp
@[simp] theorem Inst.putchar_putsTask : (c.putchar k p w now b).putsTask = c.putsTask := by
  unfold Inst.putchar; split <;> simp
@[simp] theorem Inst.putchar_readTask : (c.putchar k p w now b).readTask = c.readTask := by
  unfold Inst.putchar; split <;> simp
@[simp] theorem Inst.putsIssue_readTask (rest) :
    (c.putsIssue k p w now b rest).readTask = c.readTask := by
  unfold Inst.putsIssue; dsimp only; split <;> simp
@[simp] theorem Inst.putsIssue_cfg (rest) : (c.putsIssue k p w now b rest).cfg = c.cfg := by
  unfold Inst.putsIssue; dsimp only; split <;> simp
@[simp] theorem Inst.putsIssue_ring (rest) : (c.putsIssue k p w now b rest).ring = c.ring := by
  unfold Inst.putsIssue; dsimp only; split <;> simp
@[simp] theorem Inst.putsIssue_rx (rest) : (c.putsIssue k p w now b rest).rx = c.rx := by
  unfold Inst.putsIssue; dsimp only; split <;> simp
@[simp] theorem Inst.putsBegin_cfg (bs) : (c.putsBegin k p w now bs).cfg = c.cfg := by
  unfold Inst.putsBegin; split
  · simp
  · split <;> simp
@[simp] theorem Inst.putsBegin_ring (bs) : (c.putsBegin k p w now bs).ring = c.ring := by
  unfold Inst.putsBegin; split
  · simp
  · split <;> simp
@[simp] theorem Inst.putsBegin_rx (bs) : (c.putsBegin k p w now bs).rx = c.rx := by
  unfold Inst.putsBegin; split
  · simp
  · split <;> simp
@[simp] theorem Inst.putsBegin_readTask (bs) :
    (c.putsBegin k p w now bs).readTask = c.readTask := by
  unfold Inst.putsBegin; split
  · simp
  · split <;> simp
@[simp] theorem Inst.readBegin_cfg (l n) : (c.readBegin l n).cfg = c.cfg := by
  unfold Inst.readBegin; split
  · simp
  · unfold Inst.overrun; dsimp only; split <;> simp
@[simp] theorem Inst.readBegin_rx (l n) : (c.readBegin l n).rx = c.rx := by
  unfold Inst.readBegin; split
  · simp
  · unfold Inst.overrun; dsimp only; split <;> simp
@[simp] theorem Inst.readBegin_tx (l n) : (c.readBegin l n).tx = c.tx := by
  unfold Inst.readBegin; split
  · simp
  · unfold Inst.overrun; dsimp only; split <;> simp
@[simp] theorem Inst.readBegin_putsTask (l n) : (c.readBegin l n).putsTask = c.putsTask := by
  unfold Inst.readBegin; split
  · simp
  · unfold Inst.overrun; dsimp only; split <;> simp
theorem Inst.readBegin_ring (l n) : (c.readBegin l n).ring = c.ring ∨ (c.readBegin l n).ring =
    c.ring.takeOverrun.1 := by
  unfold Inst.readBegin; split
  · simp
  · unfold Inst.overrun; dsimp only; split <;> simp
@[simp] theorem Inst.putsSettle_cfg : c.putsSettle.cfg = c.cfg := by
  unfold Inst.putsSettle; split
  · split
    · split <;> rfl
    · rfl
  · rfl
@[simp] theorem Inst.putsSettle_ring : c.putsSettle.ring = c.ring := by
  unfold Inst.putsSettle; split
  · split
    · split <;> rfl
    · rfl
  · rfl
@[simp] theorem Inst.putsSettle_rx : c.putsSettle.rx = c.rx := by
  unfold Inst.putsSettle; split
  · split
    · split <;> rfl
    · rfl
  · rfl
@[simp] theorem Inst.putsSettle_tx : c.putsSettle.tx = c.tx := by
  unfold Inst.putsSettle; split
  · split
    · split <;> rfl
    · rfl
  · rfl
@[simp] theorem Inst.putsSettle_readTask : c.putsSettle.readTask = c.readTask := by
  unfold Inst.putsSettle; split
  · split
    · split <;> rfl
    · rfl
  · rfl
/-- A PUTS loop that settles is one that ran. -/
theorem Inst.putsSettle_idle (h : c.putsTask = .idle) : c.putsSettle.putsTask = .idle := by
  unfold Inst.putsSettle; split
  · simp_all
  · exact h
/-- Dropping the far sender changes only `line`: the frame stays while its ten bit periods last. -/
theorem Inst.lineExpire_eq : c.lineExpire now = { c with
    line := c.line.filter fun f => decide (now - f.start < 10 * c.cfg.bitTime.toNat) } := by
  obtain ⟨cfg, _, _, _, _, line, _, _, _, _, _⟩ := c
  unfold Inst.lineExpire LineFrame.levelAt
  cases line with
  | none => rfl
  | some f =>
    simp only [Option.filter]
    by_cases h : now - f.start < 10 * cfg.bitTime.toNat <;> simp [h, Config.FRAME_BITS]
@[simp] theorem Inst.lineExpire_readTask : (c.lineExpire now).readTask = c.readTask := by
  rw [Inst.lineExpire_eq]
@[simp] theorem Inst.lineExpire_cfg : (c.lineExpire now).cfg = c.cfg := by
  unfold Inst.lineExpire; split
  · split <;> rfl
  · rfl
@[simp] theorem Inst.lineExpire_ring : (c.lineExpire now).ring = c.ring := by
  unfold Inst.lineExpire; split
  · split <;> rfl
  · rfl
@[simp] theorem Inst.lineExpire_rx : (c.lineExpire now).rx = c.rx := by
  unfold Inst.lineExpire; split
  · split <;> rfl
  · rfl
@[simp] theorem Inst.lineExpire_tx : (c.lineExpire now).tx = c.tx := by
  unfold Inst.lineExpire; split
  · split <;> rfl
  · rfl
@[simp] theorem Inst.lineExpire_putsTask : (c.lineExpire now).putsTask = c.putsTask := by
  unfold Inst.lineExpire; split
  · split <;> rfl
  · rfl
end

/-- When the host may consume from an instance (R65, R180). -/
theorem Inst.admitsConsumer_iff {c : Inst} :
    c.admitsConsumer = true ↔ c.cfg.inited = true ∧ c.readTask = .idle := by
  simp [Inst.admitsConsumer]

/-- An admitted GETC changes only `head` and the response. -/
theorem Inst.getc_cases {c c' : Inst} {b : Byte} (h : c.getc = .ok (c', b)) :
    ∃ r o, c.ring.pop = .ok (r, o) ∧ b = o.getD 0 ∧ c' = { c with ring := r }.respond .ok b := by
  unfold Inst.getc at h
  cases hp : c.ring.pop with
  | error e => simp [hp] at h
  | ok r =>
    obtain ⟨r, o⟩ := r
    simp only [hp, Except.ok.injEq, Prod.mk.injEq] at h
    exact ⟨r, o, rfl, h.2.symm, by rw [← h.1, h.2]⟩

/-- Everything the next command of a READ or READLINE loop changes. -/
theorem Inst.readAdvance_cases {p : Params} {c c' : Inst} (h : c.readAdvance p = .ok c') :
    c'.cfg = c.cfg ∧ c'.rx = c.rx ∧ c'.tx = c.tx ∧ c'.putsTask = c.putsTask ∧
    (c'.ring = c.ring ∨ ∃ o, c.ring.pop = .ok (c'.ring, o)) := by
  unfold Inst.readAdvance at h
  split at h
  · injection h with h; subst h; simp
  · dsimp only at h
    split at h <;> (injection h with h; subst h; simp [Inst.available, Inst.readFinish])
  · split at h
    · cases h
    · obtain ⟨r, o, hp, hb, hc⟩ := Inst.getc_cases ‹_›
      split at h <;> (injection h with h; subst h; subst hc; simp [Inst.readFinish, hp])

/-! ## The times the engines capture (R27, R28, R35, R36) -/

/-- The transmitter's captured times are each that of `c` or `now`. -/
def Inst.TxTimesFrom (now : Nat) (c d : Inst) : Prop :=
  (d.tx.start = c.tx.start ∨ d.tx.start = now) ∧ (d.tx.t0 = c.tx.t0 ∨ d.tx.t0 = now)

/-- The receiver's captured times are each that of `c` or `now`. -/
def Inst.RxTimesFrom (now : Nat) (c d : Inst) : Prop :=
  (d.rx.start = c.rx.start ∨ d.rx.start = now) ∧ (d.rx.t0 = c.rx.t0 ∨ d.rx.t0 = now)

theorem Inst.TxTimesFrom.refl (now : Nat) (c : Inst) : c.TxTimesFrom now c := ⟨.inl rfl, .inl rfl⟩

theorem Inst.RxTimesFrom.refl (now : Nat) (c : Inst) : c.RxTimesFrom now c := ⟨.inl rfl, .inl rfl⟩

theorem Inst.TxTimesFrom.abort {now : Nat} {c d : Inst} (h : c.TxTimesFrom now d) (k : Nat)
    (o : OutPin) : c.TxTimesFrom now (d.abort k o) := by
  have e : (d.abort k o).tx.start = d.tx.start ∧ (d.abort k o).tx.t0 = d.tx.t0 := by
    cases o <;> cases hd : d.cfg.hdx <;>
      simp [Inst.abort, Inst.loseLevel, Inst.setLevel, Inst.respondTx, hd]
  exact ⟨e.1 ▸ h.1, e.2 ▸ h.2⟩

theorem Inst.TxTimesFrom.writeTx {now : Nat} {c d : Inst} (h : c.TxTimesFrom now d) (wrFail : PinSet)
    (v : Bool) : c.TxTimesFrom now (d.writeTx wrFail v).1 := by
  obtain ⟨L, e⟩ := d.writeTx_eq_level wrFail v
  rw [e]; exact h

theorem Inst.TxTimesFrom.pinWrite_dir {now : Nat} {c d : Inst} (h : c.TxTimesFrom now d)
    (wrFail : PinSet) (v : Bool) : c.TxTimesFrom now (d.pinWrite wrFail .dir v).1 := by
  rcases d.pinWrite_eq wrFail .dir v with e | e <;> rw [e] <;> exact h

/-- TXSTEP captures no other time than `now`. -/
theorem Inst.txStep_times (k : Nat) (p : Params) (wrFail : PinSet) (now : Nat) (c : Inst) :
    c.TxTimesFrom now (c.txStep k p wrFail now) := by
  have ha : ∀ (d : Inst) o, c.TxTimesFrom now d → c.TxTimesFrom now (d.abort k o) :=
    fun _ o h => h.abort k o
  have hr := Inst.TxTimesFrom.refl now c
  unfold Inst.txStep
  split
  · exact hr
  · unfold Inst.txSend
    split
    · exact Inst.orAbort_ind (hr.writeTx _ _) (fun d h => by split <;> exact h) ha
    · exact hr
  · unfold Inst.txStop
    split
    · exact Inst.orAbort_ind (hr.writeTx _ _) (fun d h => ⟨h.1, .inr rfl⟩) ha
    · exact hr
  · unfold Inst.txGuard
    split
    · split
      · exact Inst.orAbort_ind (hr.pinWrite_dir _ _) (fun d h => h) ha
      · exact hr
    · exact hr

/-- PUTCHAR captures no other time than `now`. -/
theorem Inst.putchar_times (k : Nat) (p : Params) (wrFail : PinSet) (now : Nat) (b : Byte)
    (c : Inst) : c.TxTimesFrom now (c.putchar k p wrFail now b) := by
  have ha : ∀ (d : Inst) o, c.TxTimesFrom now d → c.TxTimesFrom now (d.abort k o) :=
    fun _ o h => h.abort k o
  have hs : ∀ d : Inst, c.TxTimesFrom now d → c.TxTimesFrom now (d.txDriveStart k wrFail) :=
    fun d h => Inst.orAbort_ind (h.writeTx _ _) (fun _ h => h) ha
  have hr : c.TxTimesFrom now { c with tx := { c.tx with start := now, data := b } } :=
    ⟨.inr rfl, .inl rfl⟩
  unfold Inst.putchar
  split
  · unfold Inst.txAccept
    dsimp only
    split
    · exact Inst.orAbort_ind (hr.pinWrite_dir _ _) hs ha
    · exact hs _ hr
  · exact .refl now c

/-- RXSTEP captures no other time than `now`. -/
theorem Inst.rxStep_times (p : Params) (now : Nat) (level : Bool) (c : Inst) :
    c.RxTimesFrom now (c.rxStep p now level) := by
  unfold Inst.rxStep
  split
  · unfold Inst.rxIdle Inst.takeRxEdge; split
    · dsimp only; split
      · exact .refl now c
      · exact ⟨.inl rfl, .inr rfl⟩
    · exact .refl now c
  · unfold Inst.rxStartHalf; split
    · exact ⟨.inr rfl, .inl rfl⟩
    · exact .refl now c
  · unfold Inst.rxSample; split
    · dsimp only; split
      · exact ⟨.inl rfl, .inr rfl⟩
      · exact .refl now c
    · exact .refl now c
  · unfold Inst.rxStop; split
    · dsimp only; split <;> exact .refl now c
    · exact .refl now c

/-! ## The engines take no notice of each other's state (R156) -/

/-- The instance with the receiver's state replaced. -/
def Inst.withRx (c : Inst) (rx : RxRegs) (r : Ring) (n : Bool) : Inst :=
  { c with rx := rx, ring := r, out := { c.out with rxNotify := n } }

/-- The instance with the transmitter's state replaced. -/
def Inst.withTx (c : Inst) (tx : TxRegs) (r : Option Response) (n : Nat) : Inst :=
  { c with tx := tx, out := { c.out with txResp := r }, freeIx := n }

/-- The abort does not read the receiver. -/
theorem Inst.abort_withRx (k o) (c : Inst)
    (rx r n) : (Inst.withRx c rx r n).abort k o = Inst.withRx (c.abort k o) rx r n := by
  cases o <;> cases h : c.cfg.hdx <;> simp [Inst.withRx, Inst.abort, Inst.loseLevel,
      Inst.setLevel, Inst.respondTx, h]

/-- A pin write does not read the receiver. -/
theorem Inst.pinWrite_withRx (w o v) (c : Inst)
    (rx r n) : (Inst.withRx c rx r n).pinWrite w o v = (Inst.withRx (c.pinWrite w o v).1 rx r n,
    (c.pinWrite w o v).2) := by
  unfold Inst.pinWrite
  have : (Inst.withRx c rx r n).outPinId o = c.outPinId o := by cases o <;> rfl
  rw [this]; split
  · rfl
  · cases o <;> rfl

/-- Pin writes do not read the receiver. -/
theorem Inst.pinWrites_withRx (w v) (ps) : ∀ (c : Inst) (rx r n),
    (Inst.withRx c rx r n).pinWrites w v ps  = (Inst.withRx (c.pinWrites w v ps).1 rx r n,
    (c.pinWrites w v ps).2) := by
  induction ps with
  | nil => intros; rfl
  | cons p ps ih =>
    intro c rx r n
    unfold Inst.pinWrites
    rw [Inst.pinWrite_withRx]
    cases h : c.pinWrite w (.tx p) v with
    | mk d o => cases o <;> simp [ih]

/-- Going on or aborting does not read the receiver. -/
theorem Inst.orAbort_withRx (k) (q : Inst × Option OutPin) (f : Inst → Inst) (rx r n) (hf : ∀ d,
    f (Inst.withRx d rx r n) = Inst.withRx (f d) rx r n) :
   Inst.orAbort k (Inst.withRx q.1 rx r n, q.2) f = Inst.withRx (Inst.orAbort k q f) rx r n := by
  unfold Inst.orAbort; dsimp only
  cases q.2 with
  | none => exact hf _
  | some o => exact Inst.abort_withRx _ _ _ _ _ _

/-- TXSTEP does not read the receiver's state. -/
theorem Inst.txStep_withRx (k p w now) (c : Inst)
    (rx r n) : (Inst.withRx c rx r n).txStep k p w now =
    Inst.withRx (c.txStep k p w now) rx r n := by
  have hw : ∀ v, (Inst.withRx c rx r n).writeTx w v = (Inst.withRx (c.writeTx w v).1 rx r n,
      (c.writeTx w v).2) := fun v => Inst.pinWrites_withRx _ _ _ _ _ _ _
  unfold Inst.txStep
  have hs : (Inst.withRx c rx r n).tx.state = c.tx.state := rfl
  rw [hs]
  split
  · rfl
  · unfold Inst.txSend
    simp only [hw]
    split <;> (rename_i h; simp only [Inst.withRx] at h)
    · rw [if_pos h]; exact Inst.orAbort_withRx _ _ _ _ _ _ (fun d => by by_cases h : d.tx.bit =
          7#3 <;> simp [Inst.withRx, h])
    · rw [if_neg h]
  · unfold Inst.txStop
    simp only [hw]
    split <;> (rename_i h; simp only [Inst.withRx] at h)
    · rw [if_pos h]; exact Inst.orAbort_withRx _ _ _ _ _ _ (fun d => rfl)
    · rw [if_neg h]
  · unfold Inst.txGuard
    rw [Inst.pinWrite_withRx]
    split <;> (rename_i h; simp only [Inst.withRx] at h)
    · rw [if_pos h]
      split <;> (rename_i h; simp only [Inst.withRx] at h)
      · rw [if_pos h]; exact Inst.orAbort_withRx _ _ _ _ _ _ (fun d => rfl)
      · rw [if_neg h]; rfl
    · rw [if_neg h]

/-- RXSTEP does not read the transmitter's state. -/
theorem Inst.rxStep_withTx (p now level) (c : Inst)
    (tx r n) : (Inst.withTx c tx r n).rxStep p now level =
    Inst.withTx (c.rxStep p now level) tx r n := by
  unfold Inst.rxStep
  have hs : (Inst.withTx c tx r n).rx = c.rx := rfl
  rw [hs]
  split
  · unfold Inst.rxIdle; rw [hs]; split
    · unfold Inst.takeRxEdge; dsimp only; split <;> rfl
    · rfl
  · unfold Inst.rxStartHalf; rw [hs]; split <;> (rename_i h; simp only [Inst.withTx] at h)
    · rw [if_pos h]; rfl
    · rw [if_neg h]
  · unfold Inst.rxSample; rw [hs]; split <;> (rename_i h; simp only [Inst.withTx] at h)
    · rw [if_pos h]; dsimp only; split <;> rfl
    · rw [if_neg h]
  · unfold Inst.rxStop; rw [hs]; split <;> (rename_i h; simp only [Inst.withTx] at h)
    · rw [if_pos h]; dsimp only
      have : (Inst.withTx c tx r n).cfg = c.cfg := rfl
      rw [this]; split <;> rfl
    · rw [if_neg h]

end Sys2Proof.Machine
end

