-- ==== Sys2Proof/Laws/Exec.lean ====
section
/-! SUPPORT. What any operation can do to the state: at most the instance it names,
    the claimed set and
the result of a component operation change. -/

namespace Sys2Proof.Machine

/-- What an operation does to the instance it names; CLAIM and COMPUTE touch none. -/
def Inst.after (i : Instr) (s : State) (c : Inst) : Except Fault Inst :=
  match i with
  | .init cfg =>
    if c.cfg.inited || cfg.zero != 0 then .ok c.refuse
    else
      match initTests s.params.npins cfg s.claimed s.pinCfgOk with
      | .fails cause => .ok (c.respond cause 0)
      | .commits _ t => .ok ((c.initCommit s.params cfg t).respond .ok 0)
  | .putchar b => .ok (c.putchar s.cur s.params s.wrFail s.now b)
  | .getc => if c.admitsConsumer then c.getc.map Prod.fst else .ok c.refuse
  | .available => .ok (if c.cfg.inited then c.available.1 else c.refuse)
  | .overrun => .ok (if c.admitsConsumer then c.overrun.1 else c.refuse)
  | .frame b => .ok (c.sendPositions (encodeFrame b) s.ticks)
  | .puts bs => .ok (c.putsBegin s.cur s.params s.wrFail s.now bs)
  | .read n => .ok (c.readBegin false n)
  | .readline n => .ok (c.readBegin true n)
  | .claim _ _ | .compute _ | .avail => .ok c
  | .push b => .ok { c with ring := (c.ring.push b).1 }
  | .pop => c.ring.pop.map fun r => { c with ring := r.1 }
  | .takeOverrun => .ok { c with ring := c.ring.takeOverrun.1 }
  | .rxStep now level => .ok (c.rxStep s.params now level)
  | .txStep now => .ok (c.txStep s.cur s.params s.wrFail now)

/-- Everything an operation can answer: it replaces at most the instance it names, the claimed set
and the result of a component operation. -/
theorem exec_cases {i : Instr} {s t : State} (h : exec i s = .next t) :
    t = { s with insts := t.insts, claimed := t.claimed, result := t.result } ∧
    ((t.insts = s.insts ∧ ((∃ tx rx, i = .claim tx rx) ∨ ∃ b, i = .compute b)) ∨
      ∃ c c', s.inst? = some c ∧ Inst.after i s c = .ok c' ∧ t.insts = s.insts.set s.cur c') := by
  have upd : ∀ {f : Inst → Inst}, s.update f = .next t → (∀ c, Inst.after i s c = .ok (f c)) →
      t = { s with insts := t.insts, claimed := t.claimed, result := t.result } ∧
      ((t.insts = s.insts ∧ ((∃ tx rx, i = .claim tx rx) ∨ ∃ b, i = .compute b)) ∨
      ∃ c c', s.inst? = some c ∧ Inst.after i s c = .ok c' ∧ t.insts = s.insts.set s.cur c') := by
    intro f h hf
    obtain ⟨c, hc, rfl⟩ := State.update_cases h
    exact ⟨rfl, .inr ⟨c, _, hc, hf c, rfl⟩⟩
  cases i with
  | init cfg =>
    obtain ⟨c, hc, h⟩ := State.onInst_cases h
    simp only [Inst.after]
    split at h
    · injection h with h; subst h; exact ⟨rfl, .inr ⟨c, _, hc, by rw [if_pos ‹_›], rfl⟩⟩
    · rename_i hb
      cases ht : initTests s.params.npins cfg s.claimed s.pinCfgOk with
      | fails cause =>
        simp only [ht] at h; injection h with h; subst h
        exact ⟨rfl, .inr ⟨c, _, hc, by rw [if_neg hb], rfl⟩⟩
      | commits cl bt =>
        simp only [ht] at h; injection h with h; subst h
        exact ⟨rfl, .inr ⟨c, _, hc, by rw [if_neg hb], rfl⟩⟩
  | putchar b => exact upd h fun _ => rfl
  | getc =>
    obtain ⟨c, c', hc, hf, rfl⟩ := State.updateE_cases h
    exact ⟨rfl, .inr ⟨c, c', hc, hf, rfl⟩⟩
  | available => exact upd h fun _ => rfl
  | overrun => exact upd h fun _ => rfl
  | frame b => exact upd h fun _ => rfl
  | puts bs => exact upd h fun _ => rfl
  | read n => exact upd h fun _ => rfl
  | readline n => exact upd h fun _ => rfl
  | claim tx rx =>
    simp only [exec, execClaim] at h
    split at h <;> (injection h with h; subst h; exact ⟨rfl, .inl ⟨rfl, .inl ⟨tx, rx, rfl⟩⟩⟩)
  | compute b =>
    simp only [exec, execCompute] at h
    split at h <;> (injection h with h; subst h; exact ⟨rfl, .inl ⟨rfl, .inr ⟨b, rfl⟩⟩⟩)
  | push b =>
    obtain ⟨c, hc, h⟩ := State.onInst_cases h
    injection h with h; subst h
    exact ⟨rfl, .inr ⟨c, _, hc, rfl, rfl⟩⟩
  | pop =>
    obtain ⟨c, hc, h⟩ := State.onInst_cases h
    cases hp : c.ring.pop with
    | error e => simp [hp] at h
    | ok r =>
      simp only [hp] at h; injection h with h; subst h
      exact ⟨rfl, .inr ⟨c, _, hc, by simp only [Inst.after, hp]; rfl, rfl⟩⟩
  | avail =>
    obtain ⟨c, hc, h⟩ := State.onInst_cases h
    injection h with h; subst h
    refine ⟨rfl, .inr ⟨c, c, hc, rfl, ?_⟩⟩
    have := State.setInst_self hc
    exact (congrArg State.insts this).symm
  | takeOverrun =>
    obtain ⟨c, hc, h⟩ := State.onInst_cases h
    injection h with h; subst h
    exact ⟨rfl, .inr ⟨c, _, hc, rfl, rfl⟩⟩
  | rxStep now level => exact upd h fun _ => rfl
  | txStep now => exact upd h fun _ => rfl

/-- The claimed set changes only by CLAIM and by the commit of INIT. -/
theorem exec_claimed {i : Instr} {s t : State} (h : exec i s = .next t) :
    t.claimed = s.claimed ∨ (∃ tx rx,
        i = .claim tx rx ∧ claimPins s.claimed tx rx = .ok t.claimed) ∨
    ∃ cfg c bt, i = .init cfg ∧ s.inst? = some c ∧ c.cfg.inited = false ∧
      initTests s.params.npins cfg s.claimed s.pinCfgOk = .commits t.claimed bt ∧
      t.insts = s.insts.set s.cur ((c.initCommit s.params cfg bt).respond .ok 0) := by
  have upd : ∀ {f : Inst → Inst}, s.update f = .next t → t.claimed = s.claimed := by
    intro f h
    obtain ⟨c, hc, rfl⟩ := State.update_cases h; rfl
  cases i with
  | init cfg =>
    obtain ⟨c, hc, h⟩ := State.onInst_cases h
    split at h
    · injection h with h; subst h; exact .inl rfl
    · rename_i hb
      cases ht : initTests s.params.npins cfg s.claimed s.pinCfgOk with
      | fails cause => simp only [ht] at h; injection h with h; subst h; exact .inl rfl
      | commits cl bt =>
        simp only [ht] at h; injection h with h; subst h
        exact .inr (.inr ⟨cfg, c, bt, rfl, hc, by simp at hb; exact hb.1, ht, rfl⟩)
  | putchar b => exact .inl (upd h)
  | getc =>
    obtain ⟨c, c', hc, hf, rfl⟩ := State.updateE_cases h; exact .inl rfl
  | available => exact .inl (upd h)
  | overrun => exact .inl (upd h)
  | frame b => exact .inl (upd h)
  | puts bs => exact .inl (upd h)
  | read n => exact .inl (upd h)
  | readline n => exact .inl (upd h)
  | claim tx rx =>
    simp only [exec, execClaim] at h
    split at h <;> (injection h with h; subst h)
    · exact .inl rfl
    · exact .inl rfl
    · exact .inr (.inl ⟨tx, rx, rfl, ‹_›⟩)
  | compute b =>
    simp only [exec, execCompute] at h
    split at h <;> (injection h with h; subst h; exact .inl rfl)
  | push b =>
    obtain ⟨c, hc, h⟩ := State.onInst_cases h
    injection h with h; subst h; exact .inl rfl
  | pop =>
    obtain ⟨c, hc, h⟩ := State.onInst_cases h
    cases hp : c.ring.pop with
    | error e => simp [hp] at h
    | ok r => simp only [hp] at h; injection h with h; subst h; exact .inl rfl
  | avail =>
    obtain ⟨c, hc, h⟩ := State.onInst_cases h
    injection h with h; subst h; exact .inl rfl
  | takeOverrun =>
    obtain ⟨c, hc, h⟩ := State.onInst_cases h
    injection h with h; subst h; exact .inl rfl
  | rxStep now level => exact .inl (upd h)
  | txStep now => exact .inl (upd h)

/-- An operation but INIT leaves the configuration alone (R22). -/
theorem Inst.after_cfg {i : Instr} {s : State} {c c' : Inst} (h : Inst.after i s c = .ok c')
    (hi : ∀ cfg, i ≠ .init cfg) : c'.cfg = c.cfg := by
  cases i with
  | init cfg => exact absurd rfl (hi cfg)
  | getc =>
    simp only [Inst.after] at h
    split at h
    · cases hg : c.getc with
      | error e => rw [hg] at h; cases h
      | ok r =>
        obtain ⟨d, b⟩ := r
        rw [hg] at h; injection h with h; subst h
        obtain ⟨r, o, hp, hb, hc⟩ := Inst.getc_cases hg
        rw [hc]; rfl
    · injection h with h; subst h; rfl
  | pop =>
    simp only [Inst.after] at h
    cases hp : c.ring.pop with
    | error e => rw [hp] at h; cases h
    | ok r => rw [hp] at h; injection h with h; subst h; rfl
  | available => injection h with h; subst h; split <;> rfl
  | overrun => injection h with h; subst h; split <;> rfl
  | _ => injection h with h; subst h; first | rfl | simp

/-- What INIT does to the instance it names: it only answers, or it commits. -/
theorem Inst.after_init {cfg : CfgRecord} {s : State} {c c' : Inst}
    (h : Inst.after (.init cfg) s c = .ok c') :
    (∃ st v, c' = c.respond st v) ∨
    (c.cfg.inited = false ∧ ∃ cl t,
        initTests s.params.npins cfg s.claimed s.pinCfgOk = .commits cl t ∧
        c' = (c.initCommit s.params cfg t).respond .ok 0) := by
  simp only [Inst.after] at h
  split at h
  · injection h with h; exact .inl ⟨_, _, h.symm⟩
  · rename_i hb
    split at h
    · injection h with h; exact .inl ⟨_, _, h.symm⟩
    · injection h with h; exact .inr ⟨by simp at hb; exact hb.1, _, _, ‹_›, h.symm⟩

end Sys2Proof.Machine
end

