-- ==== Sys2Proof/Laws/Init.lean ====
section
/-! SUPPORT. CLAIM, COMPUTE and the tests of INIT: what each establishes. -/

namespace Sys2Proof.Machine

/-! ## COMPUTE (R95, R96) -/

/-- The remainder term is `floor(100 * f)` (R96). -/
theorem remainderTerm_eq (d : Nat)
    (hd : 0 < d) : 100000000 / d - 100 * (1000000 / d) = 100 * (1000000 % d) / d := by
  have h := Nat.div_add_mod 1000000 d
  have : 100000000 = 100 * (1000000 % d) + d * (100 * (1000000 / d)) := by
    calc 100000000 = 100 * 1000000 := rfl
      _ = 100 * (d * (1000000 / d) + 1000000 % d) := by rw [h]
      _ = _ := by ring
  have h2 : 100000000 / d = 100 * (1000000 % d) / d + 100 * (1000000 / d) := by
    conv_lhs => rw [this]
    rw [Nat.add_mul_div_left _ _ hd]
  rw [h2]; exact Nat.add_sub_cancel _ _

/-- A positive 32-bit baud rate has a bit period that fits its register (R97). -/
theorem computeBitTime_fits (baud : BitVec 32) (h : 0 < baud.toInt) : ∃ t,
    computeBitTime baud.toInt = some t ∧ t < 2^20 := by
  have : ¬ baud.toInt ≤ 0 := by omega
  have hd : 0 < baud.toInt.toNat := by omega
  simp only [computeBitTime, this, if_false]
  generalize baud.toInt.toNat = d at *
  have : Config.US_PER_S / d ≤ Config.US_PER_S := Nat.div_le_self _ _
  simp only [Config.US_PER_S] at *
  split
  · exact ⟨_, rfl, by omega⟩
  · exact ⟨_, rfl, by omega⟩

/-! ## CLAIM (R90) -/

/-- CLAIM of free, distinct pins succeeds. -/
theorem claimPins_ok {claimed T : PinSet} {r : Nat} (h1 : PinSet.has T r = false)
   (h2 : ∀ p, (PinSet.has T p = true ∨ p = r) → PinSet.has claimed p = false) :
   claimPins claimed T r = .ok (claimed ||| T ||| PinSet.only r) := by
  have : (T ||| PinSet.only r) &&& claimed = 0 := by
    rw [PinSet.eq_empty_iff]; intro q
    simp only [PinSet.has_and, PinSet.has_or, PinSet.has_only]
    have := h2 q
    cases hT : PinSet.has T q <;> by_cases hq : q = r <;> simp_all
  simp [claimPins, h1]
  exact this

/-- CLAIM of distinct pins one of which is taken. -/
theorem claimPins_taken {claimed T : PinSet} {r : Nat} (h1 : PinSet.has T r = false)
   (h2 : ∃ p, (PinSet.has T p = true ∨ p = r) ∧ PinSet.has claimed p = true) :
   claimPins claimed T r = .alreadyClaimed := by
  have : ¬ (T ||| PinSet.only r) &&& claimed = 0 := by
    rw [PinSet.eq_empty_iff]; intro h
    obtain ⟨p, h3, h4⟩ := h2
    have := h p
    simp only [PinSet.has_and, PinSet.has_or, PinSet.has_only] at this
    rcases h3 with h3 | h3 <;> simp_all
  simp [claimPins, h1]
  exact this

/-! ## INIT (R175, R177) -/

/-- The pins INIT claims beside the RX pin. -/
theorem has_initTxSet (cfg : CfgRecord)
    (p) : PinSet.has (initTxSet cfg) p =
    (PinSet.has cfg.txPins p || (cfg.hdx && p == cfg.dirPin)) := by
  unfold initTxSet
  cases cfg.hdx <;> simp [PinSet.has_or, PinSet.has_only, Bool.beq_eq_decide_eq]

/-- Every pin INIT claims exists. -/
theorem initPinsExist_iff {n : Nat} {cfg : CfgRecord} : initPinsExist n cfg = true ↔
    ∀ p, PinSet.has cfg.txPins p = true ∨ p = cfg.rxPin ∨ (cfg.hdx = true ∧ p = cfg.dirPin) →
      p < n := by
  simp only [initPinsExist, PinSet.exists?, Bool.and_eq_true, decide_eq_true_eq, PinSet.exists_iff,
    has_initTxSet, Bool.or_eq_true, beq_iff_eq]
  constructor
  · rintro ⟨h1, h2⟩ p (h | rfl | h)
    · exact h1 p (.inl h)
    · exact h2
    · exact h1 p (.inr h)
  · intro h
    exact ⟨fun q hq => h q (by tauto), h _ (by tauto)⟩

/-- What the tests of INIT establish when they pass. -/
theorem initTests_commits {n : Nat} {cfg : CfgRecord} {cl cl' : PinSet} {ok : Bool} {t : Nat}
    (h : initTests n cfg cl ok = .commits cl' t) :
    computeBitTime cfg.baud.toInt = some t ∧ PinSet.has cfg.txPins cfg.rxPin = false ∧
    (cfg.hdx = true → PinSet.has cfg.txPins cfg.dirPin = false ∧ cfg.dirPin ≠ cfg.rxPin) ∧
    cl' = cl ||| initTxSet cfg ||| PinSet.only cfg.rxPin ∧
    (initTxSet cfg ||| PinSet.only cfg.rxPin) &&& cl = 0 ∧ initPinsExist n cfg = true := by
  unfold initTests at h
  split at h
  · cases h
  · rename_i hov
    have hov' : (cfg.hdx = true →
        PinSet.has cfg.txPins cfg.dirPin = false ∧ cfg.dirPin ≠ cfg.rxPin) := by
      intro hh; simp [hh] at hov; exact hov
    split at h
    · cases h
    · cases h
    · rename_i cl2 hcl
      unfold claimPins at hcl
      split at hcl
      · cases hcl
      · rename_i hx
        split at hcl
        · cases hcl
        · rename_i hz
          injection hcl with hcl
          split at h
          · cases h
          · rename_i t' ht
            split at h
            · injection h with h1 h2; subst h1 h2 hcl
              rename_i hok
              refine ⟨ht, ?_, hov', rfl, by simpa using hz, (Bool.and_eq_true_iff.mp hok).2⟩
              rw [has_initTxSet] at hx; simp at hx; exact hx.1
            · cases h

/-- The set INIT commits names only pins that exist, if the claimed pins did (R21). -/
theorem initTests_claimed_lt {n : Nat} {cfg : CfgRecord} {cl cl' : PinSet} {ok : Bool} {t : Nat}
    (h : initTests n cfg cl ok = .commits cl' t) (hcl : cl < 2 ^ n) : cl' < 2 ^ n := by
  obtain ⟨-, -, -, rfl, -, hex⟩ := initTests_commits h
  rw [initPinsExist_iff] at hex
  rw [PinSet.exists_iff] at hcl ⊢
  intro q hq
  simp only [PinSet.has_or, PinSet.has_only, has_initTxSet, Bool.or_eq_true, Bool.and_eq_true,
    beq_iff_eq, decide_eq_true_eq] at hq
  rcases hq with (hq | hq) | hq
  · exact hcl q hq
  · exact hex q (by tauto)
  · exact hex q (by tauto)

end Sys2Proof.Machine
end

