-- ==== Sys2Proof/Laws/Memory.lean ====
section
/-! SUPPORT. The ring space: a read after a write, and the canonical form is kept. -/

namespace Sys2Proof.Machine

/-- A read after a write: the byte written there, and every other slot as before (R52, R53). -/
theorem Memory.read_write (m : Memory) (a x : Nat) (v : Byte) :
    Memory.read (Memory.write m a v) x = if x = a then some v else Memory.read m x := by
  induction m with
  | nil => simp [Memory.write, Memory.read]
  | cons c rest ih =>
    obtain ⟨b, w⟩ := c
    unfold Memory.write
    split
    · simp [Memory.read]
    · split
      · subst_vars; simp only [Memory.read]; split <;> simp_all
      · simp only [Memory.read, ih]; split <;> split <;> simp_all

theorem Memory.risesFrom_mono {m : Memory} {lo lo' : Nat} (h : lo' ≤ lo)
    (hm : Memory.risesFrom lo m = true) : Memory.risesFrom lo' m = true := by
  cases m with
  | nil => rfl
  | cons c rest => simp_all [Memory.risesFrom]; omega

theorem Memory.risesFrom_write {m : Memory} {a lo : Nat} (v : Byte) (ha : lo ≤ a)
    (hm : Memory.risesFrom lo m = true) : Memory.risesFrom lo (Memory.write m a v) = true := by
  induction m generalizing lo with
  | nil => simp [Memory.write, Memory.risesFrom, ha]
  | cons c rest ih =>
    obtain ⟨b, w⟩ := c
    simp only [Memory.risesFrom, Bool.and_eq_true, decide_eq_true_eq] at hm
    unfold Memory.write
    split
    · simp only [Memory.risesFrom, Bool.and_eq_true, decide_eq_true_eq]
      exact ⟨ha, by omega, hm.2⟩
    · split
      · subst_vars; simp only [Memory.risesFrom, Bool.and_eq_true, decide_eq_true_eq]; exact hm
      · simp only [Memory.risesFrom, Bool.and_eq_true, decide_eq_true_eq]
        exact ⟨hm.1, ih (by omega) hm.2⟩

theorem Memory.mem_write {m : Memory} {a : Nat} {v : Byte} {c : Host.Cell}
    (h : c ∈ Memory.write m a v) : c = (a, v) ∨ c ∈ m := by
  induction m with
  | nil => simpa [Memory.write] using h
  | cons d rest ih =>
    obtain ⟨b, w⟩ := d
    unfold Memory.write at h
    split at h
    · simpa using h
    · split at h
      · simp only [List.mem_cons] at h ⊢; tauto
      · simp only [List.mem_cons] at h ⊢
        rcases h with h | h
        · exact .inr (.inl h)
        · rcases ih h with h | h
          · exact .inl h
          · exact .inr (.inr h)

/-- A write to a slot of the ring keeps the canonical form (R53). -/
theorem Memory.write_wf {m : Memory} {a : Nat} (v : Byte) (ha : a < Config.N)
    (hm : Memory.wf m = true) : Memory.wf (Memory.write m a v) = true := by
  simp only [Memory.wf, Bool.and_eq_true, List.all_eq_true, decide_eq_true_eq] at hm ⊢
  refine ⟨Memory.risesFrom_write v (Nat.zero_le _) hm.1, fun c hc => ?_⟩
  rcases Memory.mem_write hc with rfl | h
  · exact ha
  · exact hm.2 c h

/-- The memory of the reset ring is canonical (R46). -/
theorem Memory.wf_nil : Memory.wf [] = true := rfl

end Sys2Proof.Machine
end

