-- ==== Sys2Proof/Laws/Ring.lean ====
section
/-! SUPPORT. The ring buffer as a queue: what PUSH, POP, AVAIL and TAKE_OVERRUN do to its contents,
and that they keep its invariant. -/

namespace Sys2Proof.Machine

/-! ## Counting and indices (R51, R55) -/

theorem Ring.avail_lt (r : Ring) : r.avail < Config.N := Nat.mod_lt _ (by decide)

theorem Ring.avail_eq_zero (r : Ring) : r.avail = 0 ↔ r.head = r.tail := by
  unfold Ring.avail
  have h := r.head.isLt; have t := r.tail.isLt
  rw [← BitVec.toNat_inj]
  simp only [Config.N]
  omega

theorem Ring.full_iff (r : Ring) : r.full = true ↔ r.avail = Config.N - 1 := by
  unfold Ring.avail Ring.full
  have h := r.head.isLt; have t := r.tail.isLt
  rw [beq_iff_eq, ← BitVec.toNat_inj]
  simp only [Config.N, BitVec.toNat_add]
  have : (1 : SlotIx).toNat = 1 := rfl
  omega

theorem Ring.empty_iff (r : Ring) : r.empty = true ↔ r.avail = 0 := by
  rw [Ring.avail_eq_zero]; simp [Ring.empty]

theorem Ring.mem_queued {r : Ring} {a : Nat} :
    a ∈ r.queued ↔ ∃ i < r.avail, (r.head.toNat + i) % Config.N = a := by
  simp [Ring.queued]

/-- `tail` is no queued slot (R54). -/
theorem Ring.tail_not_queued (r : Ring) : r.tail.toNat ∉ r.queued := by
  rw [Ring.mem_queued]
  rintro ⟨i, hi, h⟩
  unfold Ring.avail at hi
  have hh := r.head.isLt; have t := r.tail.isLt
  simp only [Config.N] at hi h
  omega

theorem Ring.queued_lt {r : Ring} {a : Nat} (h : a ∈ r.queued) : a < Config.N := by
  obtain ⟨i, -, rfl⟩ := Ring.mem_queued.mp h
  exact Nat.mod_lt _ (by decide)

/-! ## PUSH -/

theorem Ring.push_full {r : Ring} (h : r.full = true) (b : Byte) :
    r.push b = ({ r with overrun := true }, false) := by simp [Ring.push, h]

theorem Ring.push_notFull {r : Ring} (h : r.full = false) (b : Byte) :
    r.push b = ({ r with slots := Memory.write r.slots r.tail.toNat b, tail := r.tail + 1 },
        true) := by
  simp [Ring.push, h]

theorem Ring.queued_push {r : Ring} (h : r.full = false) (b : Byte) :
    (r.push b).1.queued = r.queued ++ [r.tail.toNat] := by
  have hav : (r.push b).1.avail = r.avail + 1 := by
    have hf : ¬ r.avail = Config.N - 1 := by rw [← Ring.full_iff, h]; simp
    rw [Ring.push_notFull h]
    have hh := r.head.isLt; have t := r.tail.isLt
    have : (1 : SlotIx).toNat = 1 := rfl
    simp only [Ring.avail, Config.N, BitVec.toNat_add] at hf ⊢
    omega
  have htail : (r.head.toNat + r.avail) % Config.N = r.tail.toNat := by
    have hh := r.head.isLt; have t := r.tail.isLt
    simp only [Ring.avail, Config.N]
    omega
  have hhead : (r.push b).1.head = r.head := by rw [Ring.push_notFull h]
  simp only [Ring.queued, hav, hhead, List.range_succ, List.map_append, List.map_cons, List.map_nil,
    htail]

/-- An accepted PUSH appends to the queue; a rejected one leaves it and sets the flag (R100). -/
theorem Ring.contents_push (r : Ring) (b : Byte) :
    (r.push b).1.contents = if r.full then r.contents else r.contents ++ [b] := by
  cases h : r.full with
  | true => rw [Ring.push_full h]; rfl
  | false =>
    simp only [Ring.contents, Ring.queued_push h, List.filterMap_append, Bool.false_eq_true,
        if_false]
    have hs : (r.push b).1.slots = Memory.write r.slots r.tail.toNat b :=
        by rw [Ring.push_notFull h]
    congr 1
    · refine List.filterMap_congr fun a ha => ?_
      rw [hs, Memory.read_write, if_neg]
      rintro rfl; exact Ring.tail_not_queued r ha
    · simp [hs, Memory.read_write]

theorem Ring.Inv.push {r : Ring} (hr : r.Inv) (b : Byte) : (r.push b).1.Inv := by
  cases h : r.full with
  | true => rw [Ring.push_full h]; exact ⟨hr.canonical, hr.written⟩
  | false =>
    have hs : (r.push b).1.slots = Memory.write r.slots r.tail.toNat b :=
        by rw [Ring.push_notFull h]
    refine ⟨?_, fun a ha => ?_⟩
    · rw [hs]; exact Memory.write_wf b r.tail.isLt hr.canonical
    · rw [Ring.queued_push h, List.mem_append, List.mem_singleton] at ha
      rw [hs, Memory.read_write]
      split
      · rfl
      · rcases ha with ha | ha
        · exact hr.written a ha
        · contradiction

/-! ## POP -/

theorem Ring.queued_cons {r : Ring} (h : r.empty = false) :
    r.queued = r.head.toNat :: ({ r with head := r.head + 1 } : Ring).queued := by
  have hne : ¬ r.avail = 0 := by rw [← Ring.empty_iff, h]; simp
  have hh := r.head.isLt; have t := r.tail.isLt
  have one : (1 : SlotIx).toNat = 1 := rfl
  have hav : r.avail = ({ r with head := r.head + 1 } : Ring).avail + 1 := by
    simp only [Ring.avail, Config.N, BitVec.toNat_add] at hne ⊢
    omega
  rw [Ring.queued, hav, List.range_succ_eq_map, List.map_cons, List.map_map]
  congr 1
  · simp only [Config.N]; omega
  · refine List.map_congr_left fun i _ => ?_
    simp only [Function.comp, Config.N, BitVec.toNat_add]
    omega

/-- Everything POP can answer when it answers a value (R101). -/
theorem Ring.pop_cases {r r' : Ring} {o : Option Byte} (h : r.pop = .ok (r', o)) :
    (r.empty = true ∧ r' = r ∧ o = none) ∨
    (r.empty = false ∧ ∃ b, Memory.read r.slots r.head.toNat = some b ∧
      r' = { r with head := r.head + 1 } ∧ o = some b) := by
  unfold Ring.pop at h
  cases he : r.empty with
  | true => simp only [he, if_true, Except.ok.injEq, Prod.mk.injEq] at h; exact .inl ⟨rfl,
        h.1.symm, h.2.symm⟩
  | false =>
    simp only [he, Bool.false_eq_true, if_false] at h
    cases hm : Memory.read r.slots r.head.toNat with
    | none => simp [hm] at h
    | some b =>
      simp only [hm, Except.ok.injEq, Prod.mk.injEq] at h
      exact .inr ⟨rfl, b, rfl, h.1.symm, h.2.symm⟩

/-- Under the invariant POP never faults: it takes the head of the queue (R57, R101). -/
theorem Ring.Inv.pop {r : Ring} (hr : r.Inv) :
    (r.empty = true ∧ r.pop = .ok (r, none) ∧ r.contents = []) ∨
    (r.empty = false ∧ ∃ b, r.pop = .ok ({ r with head := r.head + 1 }, some b) ∧
      r.contents = b :: ({ r with head := r.head + 1 } : Ring).contents) := by
  cases he : r.empty with
  | true =>
    refine .inl ⟨rfl, by simp [Ring.pop, he], ?_⟩
    have h0 := (Ring.empty_iff r).mp he
    simp [Ring.contents, Ring.queued, h0]
  | false =>
    have hq := Ring.queued_cons he
    obtain ⟨b, hb⟩ := Option.isSome_iff_exists.mp
      (hr.written r.head.toNat (by rw [hq]; exact List.mem_cons_self))
    refine .inr ⟨rfl, b, by simp [Ring.pop, he, hb], ?_⟩
    rw [Ring.contents, hq, List.filterMap_cons, hb]; rfl

theorem Ring.Inv.advance {r : Ring} (hr : r.Inv) (he : r.empty = false) :
    ({ r with head := r.head + 1 } : Ring).Inv :=
  ⟨hr.canonical, fun a ha => hr.written a (by rw [Ring.queued_cons he]; exact List.mem_cons_of_mem _ ha)⟩

theorem Ring.Inv.takeOverrun {r : Ring} (hr : r.Inv) : r.takeOverrun.1.Inv :=
  ⟨hr.canonical, hr.written⟩

/-- Under the invariant the count is the length of the queue (R55, R102). -/
theorem Ring.Inv.length_contents {r : Ring} (hr : r.Inv) : r.contents.length = r.avail := by
  have key : ∀ l : List Nat, (∀ a ∈ l, (Memory.read r.slots a).isSome = true) →
      (l.filterMap (Memory.read r.slots)).length = l.length := by
    intro l
    induction l with
    | nil => simp
    | cons a l ih =>
      intro h
      obtain ⟨b, hb⟩ := Option.isSome_iff_exists.mp (h a List.mem_cons_self)
      rw [List.filterMap_cons, hb]
      simp [ih fun x hx => h x (List.mem_cons_of_mem _ hx)]
  rw [Ring.contents, key _ hr.written]
  simp [Ring.queued]

theorem Ring.inv_reset : (⟨[], 0, 0, false⟩ : Ring).Inv := ⟨rfl, by decide⟩

/-! ## The queue -/

/-- POP of a queue that holds a byte (R101). -/
theorem Ring.Inv.pop_cons {r : Ring} (hr : r.Inv) {b rest} (h : r.contents = b :: rest) :
   r.pop = .ok ({r with head := r.head + 1},
       some b) ∧ ({r with head := r.head + 1} : Ring).contents = rest ∧
       ({r with head := r.head + 1} : Ring).Inv := by
  rcases hr.pop with ⟨h1, h2, h3⟩ | ⟨h1, b', h2, h3⟩
  · rw [h3] at h; cases h
  · rw [h3] at h; injection h with h4 h5; subst h4
    exact ⟨h2, h5, hr.advance h1⟩

/-- POP of an empty queue (R101). -/
theorem Ring.Inv.pop_nil {r : Ring} (hr : r.Inv) (h : r.contents = []) : r.pop = .ok (r, none) := by
  rcases hr.pop with ⟨h1, h2, h3⟩ | ⟨h1, b', h2, h3⟩
  · exact h2
  · rw [h3] at h; cases h

/-- The ring is full exactly when its queue holds 63 bytes (R55). -/
theorem Ring.Inv.full_iff_length {r : Ring} (hr : r.Inv) : r.full = true ↔ r.contents.length =
    63 := by
  rw [Ring.full_iff, hr.length_contents]; rfl

/-- There is a byte to take exactly when the queue is not empty (R55, R102). -/
theorem Ring.Inv.avail_pos_iff {r : Ring} (hr : r.Inv) : r.avail > 0 ↔ r.contents ≠ [] := by
  rw [← hr.length_contents]; simp [List.length_pos_iff]

/-- POP keeps the invariant. -/
theorem Ring.Inv.of_pop {r r' : Ring} {o} (h : r.Inv) (hp : r.pop = .ok (r', o)) : r'.Inv := by
  rcases Ring.pop_cases hp with ⟨-, rfl, -⟩ | ⟨he, b, -, rfl, -⟩
  · exact h
  · exact h.advance he

end Sys2Proof.Machine
end

