-- ==== Sys2Proof/Laws/Invariant.lean ====
section
/-! SUPPORT. What one instance does keeps the invariant of an instance. -/

namespace Sys2Proof.Machine

/-- The captured times of an instance are values of a counter of `w` bits. -/
def Inst.TimesLt (w : Nat) (c : Inst) : Prop :=
  c.rx.start < 2 ^ w ∧ c.rx.t0 < 2 ^ w ∧ c.tx.start < 2 ^ w ∧ c.tx.t0 < 2 ^ w

/-- An engine that captures only the counter's value keeps the times in its range. -/
theorem Inst.TxTimesFrom.lt {w now : Nat} {c d : Inst} (h : c.TxTimesFrom now d)
    (hc : c.TimesLt w) (hn : now < 2 ^ w) (hrx : d.rx = c.rx) : d.TimesLt w := by
  obtain ⟨h1, h2⟩ := h
  obtain ⟨a, b, x, y⟩ := hc
  refine ⟨hrx ▸ a, hrx ▸ b, ?_, ?_⟩
  · rcases h1 with e | e <;> rw [e] <;> assumption
  · rcases h2 with e | e <;> rw [e] <;> assumption

theorem Inst.RxTimesFrom.lt {w now : Nat} {c d : Inst} (h : c.RxTimesFrom now d)
    (hc : c.TimesLt w) (hn : now < 2 ^ w) (htx : d.tx = c.tx) : d.TimesLt w := by
  obtain ⟨h1, h2⟩ := h
  obtain ⟨a, b, x, y⟩ := hc
  refine ⟨?_, ?_, htx ▸ x, htx ▸ y⟩
  · rcases h1 with e | e <;> rw [e] <;> assumption
  · rcases h2 with e | e <;> rw [e] <;> assumption

/-- The invariant reads only the ring, the configuration, `rx_ie`, the engines' states and the
captured times. -/
theorem Inst.Inv.congr {w : Nat} {c d : Inst} (h : c.Inv w) (hcfg : d.cfg = c.cfg) (hr : d.ring.Inv)
    (hrx : d.rx.ie = c.rx.ie ∧ d.rx.state = c.rx.state)
    (htx : d.cfg.txen = false → d.tx.state = .txIdle) (ht : d.TimesLt w) : d.Inv w := by
  obtain ⟨h1, h2, h3, h4, h5, h6, h7, -⟩ := h
  constructor
  · exact hr
  · rw [hcfg, hrx.1, hrx.2]; exact h2
  · rw [hcfg, hrx.1, hrx.2]; exact h3
  · rw [hcfg]; exact h4
  · exact htx
  · rw [hcfg]; exact h6
  · rw [hcfg]; exact h7
  · exact ht

section
variable {w : Nat} {c c' : Inst}

/-- A response keeps it. -/
theorem Inst.Inv.respond (h : c.Inv w) (st v) : (c.respond st v).Inv w :=
  h.congr rfl h.ring ⟨rfl, rfl⟩ h.silent h.stamps

/-- PUTCHAR keeps it. -/
theorem Inst.Inv.putchar {now : Nat} (h : c.Inv w) (hn : now < 2 ^ w) (k p f b) :
    (c.putchar k p f now b).Inv w := by
  refine h.congr (by simp) (by simpa using h.ring) (by simp) ?_
    ((c.putchar_times k p f now b).lt h.stamps hn (by simp))
  intro ht
  rw [Inst.putchar_cfg] at ht
  have : c.acceptsPutchar = false := by simp [Inst.acceptsPutchar, ht]
  simp only [Inst.putchar, this]; exact h.silent ht

/-- The next PUTCHAR of a PUTS loop keeps it. -/
theorem Inst.Inv.putsIssue {now : Nat} (h : c.Inv w) (hn : now < 2 ^ w) (k p f b rest) :
    (c.putsIssue k p f now b rest).Inv w := by
  unfold Inst.putsIssue
  have h' := h.putchar hn k p f b
  dsimp only; split <;> exact h'.congr rfl h'.ring ⟨rfl, rfl⟩ h'.silent h'.stamps

/-- PUTS keeps it. -/
theorem Inst.Inv.putsBegin {now : Nat} (h : c.Inv w) (hn : now < 2 ^ w) (k p f bs) :
    (c.putsBegin k p f now bs).Inv w := by
  unfold Inst.putsBegin
  split
  · exact h.respond _ _
  · split
    · exact h.congr rfl h.ring ⟨rfl, rfl⟩ h.silent h.stamps
    · exact h.putsIssue hn _ _ _ _ _

/-- READ and READLINE keep it. -/
theorem Inst.Inv.readBegin (h : c.Inv w) (l n) : (c.readBegin l n).Inv w := by
  refine h.congr (by simp) ?_ (by simp) (by simpa using h.silent)
    (by simpa [Inst.TimesLt] using h.stamps)
  rcases c.readBegin_ring l n with hr | hr <;> rw [hr]
  · exact h.ring
  · exact h.ring.takeOverrun

/-- The next command of a READ or READLINE loop keeps it. -/
theorem Inst.Inv.readAdvance {p} (h : c.Inv w) (hr : c.readAdvance p = .ok c') : c'.Inv w := by
  obtain ⟨h1, h2, h3, -, h4⟩ := Inst.readAdvance_cases hr
  refine h.congr h1 ?_ (by simp [h2]) (by rw [h1, h3]; exact h.silent)
    (by unfold Inst.TimesLt; rw [h2, h3]; exact h.stamps)
  rcases h4 with h4 | ⟨o, h4⟩
  · rw [h4]; exact h.ring
  · exact h.ring.of_pop h4

/-- Settling the PUTS loop keeps it. -/
theorem Inst.Inv.putsSettle (h : c.Inv w) : c.putsSettle.Inv w :=
  h.congr (by simp) (by simpa using h.ring) (by simp) (by simpa using h.silent)
    (by simpa [Inst.TimesLt] using h.stamps)

/-- Dropping the far sender keeps it. -/
theorem Inst.Inv.lineExpire (h : c.Inv w) (tick) : (c.lineExpire tick).Inv w :=
  h.congr (by simp) (by simpa using h.ring) (by simp) (by simpa using h.silent)
    (by simpa [Inst.TimesLt] using h.stamps)

/-- TXSTEP keeps it. -/
theorem Inst.Inv.txStep {now : Nat} (h : c.Inv w) (hn : now < 2 ^ w) (k p f) :
    (c.txStep k p f now).Inv w := by
  refine h.congr (by simp) (by simpa using h.ring) (by simp) ?_
    ((c.txStep_times k p f now).lt h.stamps hn (by simp))
  intro ht
  rw [Inst.txStep_cfg] at ht
  have := h.silent ht
  simp [Inst.txStep, this]

/-- RXSTEP keeps it (R31). -/
theorem Inst.Inv.rxStep {now : Nat} (h : c.Inv w) (hn : now < 2 ^ w) (p level) :
    (c.rxStep p now level).Inv w := by
  by_cases hon : (c.cfg.inited && c.cfg.rxen) = true
  · simp only [Bool.and_eq_true] at hon
    have key : ∀ d : Inst,
        d.cfg = c.cfg → d.ring.Inv → (d.rx.ie = true ↔ d.rx.state = .idle) → d.tx = c.tx →
        d.TimesLt w → d.Inv w := by
      intro d h1 h2 h3 h4 h5
      refine ⟨h2, fun _ _ => h3, ?_, by rw [h1]; exact h.fresh, by rw [h1, h4]; exact h.silent,
        by rw [h1]; exact h.timed, by rw [h1]; exact h.distinct, h5⟩
      rw [h1]; simp [hon]
    have ha := h.armed hon.1 hon.2
    refine key _ (by simp) ?_ ?_ (by simp)
      ((c.rxStep_times p now level).lt h.stamps hn (by simp))
    · unfold Inst.rxStep; split
      · unfold Inst.rxIdle; split
        · unfold Inst.takeRxEdge; dsimp only; split <;> exact h.ring
        · exact h.ring
      · unfold Inst.rxStartHalf; split <;> exact h.ring
      · unfold Inst.rxSample; split
        · dsimp only; split
          · exact h.ring.push _
          · exact h.ring
        · exact h.ring
      · unfold Inst.rxStop; split
        · dsimp only; split <;> exact h.ring
        · exact h.ring
    · unfold Inst.rxStep; split <;> rename_i hst
      · unfold Inst.rxIdle; split
        · unfold Inst.takeRxEdge; dsimp only; split
          · simp [Inst.maskRx, Inst.unmaskRx, hst]
          · simp [Inst.maskRx]
        · exact ha
      · have : c.rx.ie = false := by rw [← Bool.not_eq_true, ha, hst]; simp
        unfold Inst.rxStartHalf; split
        · simp [this]
        · exact ha
      · have : c.rx.ie = false := by rw [← Bool.not_eq_true, ha, hst]; simp
        unfold Inst.rxSample; split
        · dsimp only; split
          · simp [this]
          · simp [this, hst]
        · exact ha
      · unfold Inst.rxStop; split
        · dsimp only; split <;> simp [Inst.leaveRxEdge, Inst.unmaskRx]
        · exact ha
  · have hd := h.disarmed (by simpa using hon)
    have : c.rxStep p now level = c := by simp [Inst.rxStep, hd.2, Inst.rxIdle, hd.1]
    rw [this]; exact h

/-- The commit of INIT establishes it (R31, R92, R175). -/
theorem Inst.Inv.initCommit (h : c.Inv w) (hi : c.cfg.inited = false) {p : Params}
    {cfg : CfgRecord} {n cl cl' ok t} (ht : initTests n cfg cl ok = .commits cl' t) :
    (c.initCommit p cfg t).Inv w := by
  obtain ⟨h1, h2, h3, -, -⟩ := initTests_commits ht
  have hd := h.disarmed (by simp [hi])
  have hpos : 0 < cfg.baud.toInt := by
    by_contra hc; simp [computeBitTime, show cfg.baud.toInt ≤ 0 by omega] at h1
  obtain ⟨t', ht', hlt⟩ := computeBitTime_fits _ hpos
  rw [h1] at ht'; injection ht' with ht'; subst ht'
  refine ⟨h.ring, ?_, ?_, ?_, ?_, ?_, ?_, h.stamps⟩
  · intro _ hr
    have hr' : cfg.rxen = true := hr
    simp [Inst.initCommit, hr', hd.2]
  · intro hr
    have hr' : cfg.rxen = false := by simpa [Inst.initCommit, initRegs] using hr
    simp [Inst.initCommit, hr', hd.2, hd.1]
  · intro hx; cases hx
  · intro _
    exact h.silent (h.fresh hi).2.1
  · intro _
    show computeBitTime cfg.baud.toInt = some (BitVec.ofNat 20 t).toNat
    rw [h1]; simp; omega
  · intro _; exact ⟨h2, h3⟩

end

/-- Every operation keeps the invariant of the instance it names, if an engine step is given a value of
the counter. -/
theorem Inst.Inv.after {w : Nat} {i : Instr} {s : State} {c c' : Inst} (h : c.Inv w)
    (hs : s.now < 2 ^ w)
    (hi : ∀ n, ((∃ l, i = .rxStep n l) ∨ i = .txStep n) → n < 2 ^ w)
    (ha : Inst.after i s c = .ok c') : c'.Inv w := by
  cases i with
  | init cfg =>
    rcases Inst.after_init ha with ⟨st, v, rfl⟩ | ⟨h3, cl, t', h4, rfl⟩
    · exact h.respond _ _
    · exact (h.initCommit h3 h4).respond _ _
  | putchar b => injection ha with ha; subst ha; exact h.putchar hs _ _ _ _
  | getc =>
    simp only [Inst.after] at ha
    split at ha
    · cases hg : c.getc with
      | error e => rw [hg] at ha; cases ha
      | ok r =>
        obtain ⟨d, b⟩ := r
        rw [hg] at ha; injection ha with ha; subst ha
        obtain ⟨r, o, hp, hb, hc⟩ := Inst.getc_cases hg
        subst hc
        exact h.congr rfl (h.ring.of_pop hp) ⟨rfl, rfl⟩ h.silent h.stamps
    · injection ha with ha; subst ha; exact h.respond _ _
  | available => injection ha with ha; subst ha; split <;> exact h.respond _ _
  | overrun =>
    injection ha with ha; subst ha; split
    · exact h.congr rfl h.ring.takeOverrun ⟨rfl, rfl⟩ h.silent h.stamps
    · exact h.respond _ _
  | frame b => injection ha with ha; subst ha; exact h.congr rfl h.ring ⟨rfl, rfl⟩ h.silent h.stamps
  | puts bs => injection ha with ha; subst ha; exact h.putsBegin hs _ _ _ _
  | read n => injection ha with ha; subst ha; exact h.readBegin _ _
  | readline n => injection ha with ha; subst ha; exact h.readBegin _ _
  | claim tx rx => injection ha with ha; subst ha; exact h
  | compute b => injection ha with ha; subst ha; exact h
  | push b =>
    injection ha with ha; subst ha; exact h.congr rfl (h.ring.push b) ⟨rfl, rfl⟩ h.silent h.stamps
  | pop =>
    simp only [Inst.after] at ha
    cases hp : c.ring.pop with
    | error e => rw [hp] at ha; cases ha
    | ok r =>
      rw [hp] at ha; injection ha with ha; subst ha
      exact h.congr rfl (h.ring.of_pop hp) ⟨rfl, rfl⟩ h.silent h.stamps
  | avail => injection ha with ha; subst ha; exact h
  | takeOverrun =>
    injection ha with ha; subst ha; exact h.congr rfl h.ring.takeOverrun ⟨rfl, rfl⟩ h.silent h.stamps
  | rxStep now level => injection ha with ha; subst ha; exact h.rxStep (hi _ (.inl ⟨_, rfl⟩)) _ _
  | txStep now => injection ha with ha; subst ha; exact h.txStep (hi _ (.inr rfl)) _ _ _

/-- The pins an instance owns depend on its configuration alone. -/
theorem Inst.owns_congr {c d : Inst} (h : d.cfg = c.cfg) : d.owns = c.owns := by simp [Inst.owns, h]

/-- A step that changes no parameter, no configuration and lets `claimed` only grow within the pins
keeps the invariant of the block, if every instance and the counter keep theirs. -/
theorem State.Inv.of_cfg {s t : State} (h : s.Inv) (hp : t.params = s.params)
    (hn : t.now < 2 ^ s.params.timerWidth) (hi : ∀ c ∈ t.insts, c.Inv s.params.timerWidth)
    (ho : t.insts.map Inst.owns = s.insts.map Inst.owns)
    (hc : s.claimed &&& t.claimed = s.claimed) (hl : t.claimed < 2 ^ s.params.npins) : t.Inv := by
  have sub : ∀ o, o &&& s.claimed = o → o &&& t.claimed = o := by
    intro o ho
    rw [PinSet.subset_iff] at ho hc ⊢
    exact fun q hq => hc q (ho q hq)
  refine ⟨hp ▸ h.timer, by rw [hp]; exact hn, by rw [hp]; exact hl, by rw [hp]; exact hi,
    fun c hc' => ?_, ?_⟩
  · have : c.owns ∈ s.insts.map Inst.owns := by rw [← ho]; exact List.mem_map_of_mem hc'
    obtain ⟨d, hd, he⟩ := List.mem_map.mp this
    rw [← he]; exact sub _ (h.claimed d hd)
  · have h1 : (s.insts.map Inst.owns).Pairwise fun a b => a &&& b = 0 :=
        List.pairwise_map.mpr h.disjoint
    rw [← ho] at h1
    exact List.pairwise_map.mp h1

end Sys2Proof.Machine
end

