-- ==== Sys2Proof/Laws/PerInstr.lean ====
section
/-! SUPPORT. Statements about every operation as syntax, one lemma per constructor. -/

namespace Sys2Proof.Laws.Encoding

/-- R75, R70: the host operations have a command word, the wire frame has its ten positions, and no
other operation has an encoding of its own. -/
def Statement (i : Instr) : Prop :=
  ∀ npins, (i.opClass = .host ↔ ∃ cw cfg, encode npins i = some (.command cw cfg)) ∧
    (i.opClass = .wire ↔ ∃ bits, encode npins i = some (.wire bits))

theorem init (cfg : CfgRecord) : Statement (.init cfg) := by simp [Statement, Instr.opClass, encode]
theorem putchar (b : Byte) : Statement (.putchar b) := by simp [Statement, Instr.opClass, encode]
theorem getc : Statement .getc := by simp [Statement, Instr.opClass, encode]
theorem available : Statement .available := by simp [Statement, Instr.opClass, encode]
theorem overrun : Statement .overrun := by simp [Statement, Instr.opClass, encode]
theorem frame (b : Byte) : Statement (.frame b) := by simp [Statement, Instr.opClass, encode]
theorem puts (bs : List Byte) : Statement (.puts bs) := by simp [Statement, Instr.opClass, encode]
theorem read (n : Nat) : Statement (.read n) := by simp [Statement, Instr.opClass, encode]
theorem readline (n : Nat) : Statement (.readline n) := by simp [Statement, Instr.opClass, encode]
theorem claim (txPins : PinSet) (rxPin : Nat) : Statement (.claim txPins rxPin) := by
  simp [Statement, Instr.opClass, encode]
theorem compute (baud : BitVec 32) : Statement (.compute baud) := by
  simp [Statement, Instr.opClass, encode]
theorem push (b : Byte) : Statement (.push b) := by simp [Statement, Instr.opClass, encode]
theorem pop : Statement .pop := by simp [Statement, Instr.opClass, encode]
theorem avail : Statement .avail := by simp [Statement, Instr.opClass, encode]
theorem takeOverrun : Statement .takeOverrun := by simp [Statement, Instr.opClass, encode]
theorem rxStep (now : Nat) (level : Bool) : Statement (.rxStep now level) := by
  simp [Statement, Instr.opClass, encode]
theorem txStep (now : Nat) : Statement (.txStep now) := by simp [Statement, Instr.opClass, encode]

end Sys2Proof.Laws.Encoding
end

