-- ==== Sys2Proof/Laws/Timing.lean ====
section
/-! SUPPORT. The counter of `w` bits and the waits measured on it (R13, R44, R45). -/

namespace Sys2Proof.Machine

/-- What the counter reads `n` ticks later lies `n` ticks after `t0`, across a wrap too (R45). -/
theorem elapsed_add_mod {w t0 n : Nat} (h : n < 2 ^ w) : elapsed w t0 ((t0 + n) % 2 ^ w) = n := by
  have hd : ((2 ^ w : Nat) : Int) * ((t0 + n) / 2 ^ w : Nat) + ((t0 + n) % 2 ^ w : Nat) =
      (t0 : Int) + n := by
    rw [← Nat.cast_mul, ← Nat.cast_add, Nat.div_add_mod, Nat.cast_add]
  have hm : (((t0 + n) % 2 ^ w : Nat) : Int) - (t0 : Int) =
      (n : Int) - (2 ^ w : Nat) * ((t0 + n) / 2 ^ w : Nat) := by linarith
  unfold elapsed
  rw [hm, Int.sub_mul_emod_self_left]
  norm_cast
  rw [Nat.mod_eq_of_lt h]

/-- Without a wrap: what has gone by is the difference. -/
theorem elapsed_add {w t0 n : Nat} (h : n < 2 ^ w) : elapsed w t0 (t0 + n) = n := by
  unfold elapsed
  rw [show ((t0 + n : Nat) : Int) - (t0 : Int) = (n : Nat) by push_cast; ring]
  norm_cast
  rw [Nat.mod_eq_of_lt h]

/-- A plain delay, across a wrap too (R45). -/
theorem delayDone_add_mod {w t0 d n : Nat} (h : n < 2 ^ w) :
    delayDone w t0 d ((t0 + n) % 2 ^ w) = decide (d ≤ n) := by
  rw [delayDone, elapsed_add_mod h]

/-- A plain delay without a wrap (R45). -/
theorem delayDone_add {w t0 d n : Nat} (h : n < 2 ^ w) :
    delayDone w t0 d (t0 + n) = decide (d ≤ n) := by
  rw [delayDone, elapsed_add h]

/-- A guarded wait from the time it is measured from, without a wrap (R44). -/
theorem waitDone_add (start target n : Nat) :
    waitDone start target (start + n) = decide (target ≤ n) := by
  rw [Bool.eq_iff_iff]; simp [waitDone]

end Sys2Proof.Machine
end

