-- ==== Sys2Proof/Laws/Receive.lean ====
section
/-! SUPPORT. Reception of an ideal sender's frame, tick by tick (R125, R133). -/

namespace Sys2Proof.Machine

/-- One more tick at the end of a run. -/
theorem rxRun_snoc (levels : Nat → Bool) (n : Nat) : ∀ (j : Nat) (now : Nat) (s : State),
    rxRun levels j (n+1) now s = andThen (rxRun levels j n now s)
        (rxTick (now + n) (levels (j + n))) := by
  induction n with
  | zero => intro j now s; simp [rxRun]; cases rxTick now (levels j) s <;> rfl
  | succ n ih =>
    intro j now s
    rw [rxRun]
    conv_rhs => rw [rxRun]
    cases h : rxTick now (levels j) s with
    | fault r => rfl
    | refused r => rfl
    | next t =>
      simp only [andThen_of_next]
      rw [ih]
      congr 2
      · omega
      · congr 1; omega

/-- What one tick of the receiver alone does. -/
theorem rxTick_eq {s : State} {c : Inst} (hc : s.inst? = some c) (now level) :
   rxTick now level s = .next (s.setInst { c.rxStep s.params now level with rx := { (c.rxStep s.params now level).rx with prev := level } }) := by
  unfold rxTick
  rw [show exec (.rxStep now level) s = _ from State.update_eq hc _, andThen_of_next,
      State.update_eq (State.inst?_setInst hc _)]
  simp [State.setInst]

/-- The level of an ideal sender's line (R133). -/
theorem idealLine_eq (b : Byte) (T j : Nat)
    (hT : 0 < T): idealLine b T j =
    if j < T then false else if j < 9 * T then b.getLsbD (j / T - 1) else true := by
  unfold idealLine
  rw [framePosition_encodeFrame]
  simp only [Nat.div_lt_iff_lt_mul hT, Nat.one_mul]

/-- The samples taken so far are the low data bits, after one more of them. -/
theorem getLsbD_shiftIn_next (x b : Byte) (l : Bool) (q : Nat) (hq : q < 8) (h : ∀ k,
    k < q → x.getLsbD (8 - q + k) = b.getLsbD k) (hl : l = b.getLsbD q) :
   ∀ k, k < q + 1 → (shiftIn x l).getLsbD (8 - (q+1) + k) = b.getLsbD k := by
  intro k hk
  obtain ⟨h7, hs⟩ := getLsbD_shiftIn x l
  by_cases hkq : k = q
  · subst hkq; rw [show 8 - (k+1) + k = 7 by omega, h7, hl]
  · rw [hs _ (by omega), ← h k (by omega)]; congr 1; omega

/-- Eight samples are the byte. -/
theorem eq_of_eight_samples (x b : Byte) (h : ∀ k,
    k < 8 → x.getLsbD (8 - 8 + k) = b.getLsbD k) : x = b := by
  apply BitVec.eq_of_getLsbD_eq; intro i hi
  have := h i hi; rwa [show 8 - 8 + i = i by omega] at this

/-- The receiver leaves the configuration alone. -/
theorem Inst.cfg_of_restOfRx {c d : Inst} (h : d.restOfRx = c.restOfRx) : d.cfg = c.cfg := by
  have h' := congrArg (fun e : Inst => e.cfg) h; exact h'

/-- Where the receiver stands after `n` ticks of the ideal frame that carries `b` and began at `E`, with
a bit period of `T` (R125). -/
structure Receiving (p : Params) (c : Inst) (E : Nat) (b : Byte) (T n : Nat)
    (d : Inst) : Prop where
  frame : d.restOfRx = c.restOfRx
  ring : d.ring = if n ≤ T/2 + 8*T then c.ring else (c.ring.push b).1
  note : d.out.rxNotify =
      if n ≤ T/2 + 9*T then c.out.rxNotify else (c.out.rxNotify || (c.cfg.notify && b == p.lineTerm))
  prev : d.rx.prev = if n = 0 then true else idealLine b T (n-1)
  ie : d.rx.ie = (decide (n = 0) || decide (T/2 + 9*T < n))
  s0 : n = 0 → d.rx.state = .idle
  s1 : 1 ≤ n → n ≤ T/2 → d.rx.state = .samplingStartHalf ∧ d.rx.t0 = E
  s2 : T/2 < n → n ≤ T/2 + 8*T →
      d.rx.state = .samplingBits ∧ d.rx.start = E + (T/2) ∧
      d.rx.bit.toNat = (n-1-T/2)/T ∧ ∀ k,
      k < (n-1-T/2)/T → d.rx.shift.getLsbD (8 - (n-1-T/2)/T + k) = b.getLsbD k
  s3 : T/2 + 8*T < n → d.rx.shift = b
  s4 : T/2 + 8*T < n → n ≤ T/2 + 9*T →
      d.rx.state = .samplingStop ∧ d.rx.t0 = E + (T/2+8*T)
  s5 : T/2 + 9*T < n → d.rx.state = .idle

/-- One tick of reception (R125). -/
theorem Receiving.next (p : Params) (c : Inst) (E : Nat) (b : Byte) (T n : Nat) (d : Inst)
    (hT : c.cfg.bitTime.toNat = T) (h2 : 2 ≤ T) (hw : E + 10 * T < 2 ^ p.timerWidth) (hn : n < 10*T)
    (h : Receiving p c E b T n d) :
    Receiving p c E b T (n+1) { d.rxStep p (E + n) (idealLine b T n) with rx := { (d.rxStep p (E + n) (idealLine b T n)).rx with prev := idealLine b T n } } := by
  have hfr' : Inst.restOfRx { d.rxStep p (E + n) (idealLine b T n) with rx := { (d.rxStep p (E + n) (idealLine b T n)).rx with prev := idealLine b T n } } = c.restOfRx :=
    (Inst.restOfRx_rxStep p (E + n) (idealLine b T n) d).trans h.frame
  obtain ⟨hfr, hring, hnote, hprev, hie, s0, s1, s2, s3, s4, s5⟩ := h
  have hdc : d.cfg = c.cfg := Inst.cfg_of_restOfRx hfr
  have hdT : d.cfg.bitTime.toNat = T := by rw [hdc]; exact hT
  have hh : T/2 * 2 ≤ T ∧ T ≤ T/2*2+1 := by omega
  have hL := idealLine_eq b T n (by omega)
  by_cases c0 : n = 0
  · subst c0
    have hst := s0 rfl
    simp only [Nat.add_zero] at *
    have hl : idealLine b T 0 = false := by rw [hL, if_pos (by omega)]
    have hed : edge p.edgePolicy true false = true := by cases p.edgePolicy <;> rfl
    have heq : d.rxStep p E (idealLine b T 0) =
        { d with rx := { d.rx with ie := false, t0 := E, state := .samplingStartHalf } } := by
      rw [hl]; simp [Inst.rxStep, hst, Inst.rxIdle, hie, hprev, hed, Inst.takeRxEdge, Inst.maskRx]
    rw [heq] at hfr' ⊢
    exact ⟨hfr', by rw [if_pos (by omega)]; simpa using hring, by rw [if_pos (by omega)]; simpa using hnote, by simp, by simp; omega, by simp, by simp, by intros; exfalso; omega, by intros; exfalso; omega, by intros; exfalso; omega, by intros; exfalso; omega⟩
  by_cases c1 : n ≤ T/2
  · obtain ⟨hst, ht0⟩ := s1 (by omega) c1
    have hdl : delayDone p.timerWidth d.rx.t0 (T/2) (E + n) = decide (T/2 ≤ n) := by rw [ht0]; exact delayDone_add (by omega)
    by_cases hd : T/2 ≤ n
    · have hnn : n = T/2 := by omega
      have heq : d.rxStep p (E + n)
          (idealLine b T n) = { d with rx := { d.rx with start := E + n, bit := 0, shift := 0, state := .samplingBits } } := by
        simp [Inst.rxStep, hst, Inst.rxStartHalf, hdT, hdl, hd]
      rw [heq] at hfr' ⊢
      have hz : (n + 1 - 1 - T/2)/T = 0 := by rw [show n + 1 - 1 - T/2 = 0 by omega]; simp
      refine ⟨hfr', by rw [if_pos (by omega)]; simpa [show n ≤ T/2 + 8*T by omega] using hring, by rw [if_pos (by omega)]; simpa [show n ≤ T/2 + 9*T by omega] using hnote, by simp, ?_, by simp, by intros; exfalso; omega, ?_, by intros; exfalso; omega, by intros; exfalso; omega, by intros; exfalso; omega⟩
      · simp only [hie]; simp [c0]; omega
      · intro _ _
        rw [hz]
        refine ⟨rfl, by simp only [hnn], rfl, by intro k hk; omega⟩
    · have heq : d.rxStep p (E + n) (idealLine b T n) = d := by
        simp [Inst.rxStep, hst, Inst.rxStartHalf, hdT, hdl, hd]
      rw [heq] at hfr' ⊢
      refine ⟨hfr', by rw [if_pos (by omega)]; simpa [show n ≤ T/2 + 8*T by omega] using hring, by rw [if_pos (by omega)]; simpa [show n ≤ T/2 + 9*T by omega] using hnote, by simp, ?_, by simp, fun _ _ => ⟨hst, ht0⟩, by intros; exfalso; omega, by intros; exfalso; omega, by intros; exfalso; omega, by intros; exfalso; omega⟩
      simp only [hie]; simp [c0]; omega
  by_cases c2 : n ≤ T/2 + 8*T
  · obtain ⟨hst, hs, hb, hsh⟩ := s2 (by omega) c2
    generalize hq : (n - 1 - T/2)/T = q at *
    have hq1 : q * T ≤ n - 1 - T/2 := by rw [← hq]; exact Nat.div_mul_le_self _ _
    have hq2 : n - 1 - T/2 < (q+1) * T := (Nat.div_lt_iff_lt_mul (by omega)).mp (by omega)
    have hq8 : q < 8 := by
      by_contra hc
      have : 8 * T ≤ q * T := Nat.mul_le_mul_right _ (by omega)
      omega
    have hw : waitDone d.rx.start ((q + 1)*T)
        (E + n) = decide (n = T/2 + (q+1)*T) := by
      rw [hs]; simp only [waitDone]
      rw [Bool.eq_iff_iff]; simp; omega
    by_cases hd : n = T/2 + (q+1)*T
    · replace hw : waitDone d.rx.start ((q + 1)*T) (E + n) = true := by rw [hw]; simpa using hd
      have hlev : idealLine b T n = b.getLsbD q := by
        have hdv : n / T = q + 1 := by
          apply Nat.div_eq_of_lt_le
          · omega
          · rw [Nat.add_mul (q+1) 1 T]; omega
        have h9 : (q+1)*T ≤ 8 * T := Nat.mul_le_mul_right _ (by omega)
        have h1' : 1 * T ≤ (q+1)*T := Nat.mul_le_mul_right _ (by omega)
        rw [hL, if_neg (by omega), if_pos (by omega), hdv]; rfl
      have hnx : (n + 1 - 1 - T/2)/T = q+1 := by
        apply Nat.div_eq_of_lt_le
        · omega
        · rw [Nat.add_mul (q+1) 1 T]; omega
      by_cases hq7 : q = 7
      · subst hq7
        have hb7 : d.rx.bit = 7 := BitVec.eq_of_toNat_eq (by rw [hb]; rfl)
        have hshift : shiftIn d.rx.shift (idealLine b T n) = b := by
          apply eq_of_eight_samples; exact getLsbD_shiftIn_next _ _ _ 7 (by omega) hsh hlev
        have heq : d.rxStep p (E + n) (idealLine b T n) = { d with
            rx := { d.rx with shift := b, t0 := E + n, state := .samplingStop }
            ring := (d.ring.push b).1 } := by
          have hw2 : waitDone d.rx.start ((d.rx.bit.toNat + 1) * d.cfg.bitTime.toNat) (E + n) = true := by rw [hdT, hb]; exact hw
          simp only [Inst.rxStep, hst, Inst.rxSample]; rw [if_pos hw2, if_pos hb7]; simp only [hshift]
        rw [heq] at hfr' ⊢
        refine ⟨hfr', ?_, by rw [if_pos (by omega)]; simpa [show n ≤ T/2 + 9*T by omega] using hnote, by simp, ?_, by simp, by intros; exfalso; omega, by intros; exfalso; omega, fun _ => rfl, ?_, by intros; exfalso; omega⟩
        · rw [if_neg (by omega)]; rw [if_pos c2] at hring; simp only [hring]
        · simp only [hie]; simp [c0]; omega
        · intro _ _; exact ⟨rfl, by simp only [hd]⟩
      · have hb7 : ¬ d.rx.bit = 7 := by
          intro hc; rw [hc] at hb; exact hq7 hb.symm
        have heq : d.rxStep p (E + n) (idealLine b T n) = { d with
            rx := { d.rx with shift := shiftIn d.rx.shift (idealLine b T n), bit := d.rx.bit + 1 } } := by
          simp only [Inst.rxStep, hst, Inst.rxSample, hdT, hb, hw, if_true, hb7, if_false]
        rw [heq] at hfr' ⊢
        have h8 : (q+1)*T ≤ 7 * T := Nat.mul_le_mul_right _ (by omega)
        refine ⟨hfr', by rw [if_pos (by omega)]; simpa [c2] using hring, by rw [if_pos (by omega)]; simpa [show n ≤ T/2 + 9*T by omega] using hnote, by simp, ?_, by simp, by intros; exfalso; omega, ?_, by intros; exfalso; omega, by intros; exfalso; omega, by intros; exfalso; omega⟩
        · simp only [hie]; simp [c0]; omega
        · intro _ _
          rw [hnx]
          refine ⟨hst, hs, ?_, getLsbD_shiftIn_next _ _ _ q hq8 hsh hlev⟩
          simp only [BitVec.toNat_add, hb]; show (q + 1) % 8 = q + 1; omega
    · have heq : d.rxStep p (E + n) (idealLine b T n) = d := by
        simp only [Inst.rxStep, hst, Inst.rxSample, hdT, hb, hw, hd, decide_false,
            Bool.false_eq_true, if_false]
      have hnx : (n + 1 - 1 - T/2)/T = q := by
        apply Nat.div_eq_of_lt_le <;> omega
      have h8 : (q+1)*T ≤ 8 * T := Nat.mul_le_mul_right _ (by omega)
      rw [heq] at hfr' ⊢
      refine ⟨hfr', by rw [if_pos (by omega)]; simpa [c2] using hring, by rw [if_pos (by omega)]; simpa [show n ≤ T/2 + 9*T by omega] using hnote, by simp, ?_, by simp, by intros; exfalso; omega, ?_, by intros; exfalso; omega, by intros; exfalso; omega, by intros; exfalso; omega⟩
      · simp only [hie]; simp [c0]; omega
      · intro _ _; rw [hnx]; exact ⟨hst, hs, hb, hsh⟩
  by_cases c3 : n ≤ T/2 + 9*T
  · obtain ⟨hst, ht0⟩ := s4 (by omega) c3
    have hsh := s3 (by omega)
    have hdl : delayDone p.timerWidth d.rx.t0 T (E + n) = decide (T ≤ n - (T/2+8*T)) := by
      have : E + n =
          (E + (T/2+8*T)) + (n - (T/2+8*T)) := by
        omega
      rw [ht0, this]; exact delayDone_add (by omega)
    by_cases hd : T ≤ n - (T/2+8*T)
    · have heq : d.rxStep p (E + n) (idealLine b T n) = { d with
            rx := { d.rx with ie := true, state := .idle }
            out := { d.out with rxNotify := d.out.rxNotify || (d.cfg.notify && d.rx.shift == p.lineTerm) } } := by
        simp only [Inst.rxStep, hst, Inst.rxStop, hdT, hdl, hd, decide_true, if_true]
        cases (d.cfg.notify) <;> cases hh : (d.rx.shift == p.lineTerm) <;> simp [Inst.leaveRxEdge, Inst.unmaskRx, Inst.emitNotify]
      rw [heq] at hfr' ⊢
      rw [if_neg c2] at hring
      rw [if_pos c3] at hnote
      refine ⟨hfr', by rw [if_neg (by omega)]; exact hring, ?_, by simp, ?_, by simp, by intros; exfalso; omega, by intros; exfalso; omega, fun _ => hsh, by intros; exfalso; omega, fun _ => rfl⟩
      · rw [if_neg (by omega)]; simp only [hnote, hdc, hsh]
      · simp; omega
    · have heq : d.rxStep p (E + n) (idealLine b T n) = d := by
        simp only [Inst.rxStep, hst, Inst.rxStop, hdT, hdl, hd, decide_false, Bool.false_eq_true,
            if_false]
      rw [heq] at hfr' ⊢
      rw [if_neg c2] at hring
      rw [if_pos c3] at hnote
      refine ⟨hfr', by rw [if_neg (by omega)]; exact hring, by rw [if_pos (by omega)]; exact hnote, by simp, ?_, by simp, by intros; exfalso; omega, by intros; exfalso; omega, fun _ => hsh, fun _ _ => ⟨hst, ht0⟩, by intros; exfalso; omega⟩
      simp only [hie]; simp [c0]; omega
  · have hst := s5 (by omega)
    have hsh := s3 (by omega)
    have hl : idealLine b T n = true := by rw [hL, if_neg (by omega), if_neg (by omega)]
    have hpv : idealLine b T (n-1) = true := by rw [idealLine_eq b T _ (by omega),
        if_neg (by omega), if_neg (by omega)]
    rw [if_neg c0, hpv] at hprev
    have heq : d.rxStep p (E + n) (idealLine b T n) = d := by
      rw [hl]
      simp only [Inst.rxStep, hst, Inst.rxIdle]
      have : edge p.edgePolicy d.rx.prev true = false := by rw [hprev]; cases p.edgePolicy <;> rfl
      simp [this]
    rw [heq] at hfr' ⊢
    rw [if_neg c2] at hring
    rw [if_neg c3] at hnote
    refine ⟨hfr', by rw [if_neg (by omega)]; exact hring, by rw [if_neg (by omega)]; exact hnote, by simp, ?_, by simp, by intros; exfalso; omega, by intros; exfalso; omega, fun _ => hsh, by intros; exfalso; omega, fun _ => hst⟩
    simp only [hie]; simp [c0]; omega

end Sys2Proof.Machine
end

