-- ==== Sys2Proof/Laws/Tick.lean ====
section
/-! SUPPORT. What one step can do, phase by phase. -/

namespace Sys2Proof.Machine

/-- A tick without reset, phase by phase (R14). -/
theorem step_phases {s : State} (h : s.nextInput.reset = false) :
    step s = andThen (wirePhase s.nextInput (s.latch s.nextInput)) fun s1 =>
      andThen (hostPhase s.nextInput s1) fun t => .next ((s.latch s.nextInput).endTick t) := by
  simp only [step, tick, h, Bool.false_eq_true, if_false]

/-- When an instance's host loops have no command to issue. -/
theorem Inst.hasCommand_eq_false {c : Inst} :
    c.hasCommand = false ↔ c.readTask = .idle ∧ ∀ b rest, c.putsTask ≠ .ready b rest := by
  unfold Inst.hasCommand
  cases c.putsTask <;> simp

/-- With no request and no loop that has a command the host does nothing. -/
theorem hostPhase_quiet {i : TickInput} {s : State} (hi : i.host = none)
    (h : ∀ c ∈ s.insts, c.hasCommand = false) : hostPhase i s = .next s := by
  have hf : s.insts.findIdx? Inst.hasCommand = none := List.findIdx?_eq_none_iff.mpr h
  simp only [hostPhase, hi, hf]

/-- Everything one step can do. -/
theorem step_cases {s t : State} (h : step s = .next t) :
    (s.nextInput.reset = true ∧ t = s.externalReset) ∨
    (s.nextInput.reset = false ∧ ∃ s1 s2, wirePhase s.nextInput (s.latch s.nextInput) = .next s1 ∧
      hostPhase s.nextInput s1 = .next s2 ∧ t = (s.latch s.nextInput).endTick s2) := by
  unfold step tick at h
  dsimp only at h
  split at h
  · injection h with h; exact .inl ⟨‹_›, h.symm⟩
  · rename_i hr
    obtain ⟨s1, h1, h⟩ := andThen_next h
    obtain ⟨s2, h2, h⟩ := andThen_next h
    injection h with h
    exact .inr ⟨by simpa using hr, s1, s2, h1, h2, h.symm⟩

/-- The engines and the end of the tick leave the configuration alone. -/
theorem Inst.engines_cfg (s k) (c before : Inst) : (c.engines s k before).cfg = c.cfg := by
  unfold Inst.engines; dsimp only
  rw [Inst.lineExpire_cfg, Inst.putsSettle_cfg]
  split <;> split <;> simp

/-- Everything the far sender's part of a tick can do: at most one instance's line changes. -/
theorem wirePhase_cases {i : TickInput} {s t : State} (h : wirePhase i s = .next t) :
    t = s ∨ ∃ k bits c, i.line = some (k, bits) ∧ s.insts[k]? = some c ∧
      t = (s.address k).setInst (c.sendPositions bits s.ticks) := by
  unfold wirePhase at h
  split at h
  · injection h with h; exact .inl h.symm
  · rename_i k bits hl
    split at h
    · rename_i instr hd
      have hb : instr = .frame (bits.extractLsb' 1 8).reverse ∧
          encodeFrame (bits.extractLsb' 1 8).reverse = bits := by
        have key : ∀ b : FrameBits, b.getLsbD 9 = Config.START_LEVEL ∧
            b.getLsbD 0 = Config.STOP_LEVEL → encodeFrame (b.extractLsb' 1 8).reverse = b := by
          decide
        unfold decodeFrame at hd
        split at hd
        · injection hd with hd; exact ⟨hd.symm, key _ ‹_›⟩
        · cases hd
      rw [hb.1] at h
      obtain ⟨c, hc, rfl⟩ := State.update_cases h
      exact .inr ⟨k, bits, c, hl, by simpa using hc, by rw [hb.2]; rfl⟩
    · obtain ⟨c, hc, rfl⟩ := State.update_cases h
      exact .inr ⟨k, bits, c, hl, by simpa using hc, rfl⟩

/-- What a request can ask for: a host operation or a pseudo-operation, never an internal one (R77,
R79). -/
theorem HostReq.decode_opClass {n : Nat} {req : HostReq} {i : Instr} (h : req.decode n = .ok i) :
    i.opClass = .host ∨ i.opClass = .pseudo := by
  cases req with
  | word cw cfg =>
    simp only [HostReq.decode, Sys2Proof.decode] at h
    split at h
    · injection h with h; subst h
      rename_i r _; cases r.op <;> simp [HostOp.build, Instr.opClass]
    · cases h
  | puts bs => injection h with h; subst h; exact .inr rfl
  | read n => injection h with h; subst h; exact .inr rfl
  | readline n => injection h with h; subst h; exact .inr rfl

/-- Everything the host's part of a tick can do: nothing, the operation the host
presents, or a change of the one instance whose reserved word is refused or whose loop goes on. -/
theorem hostPhase_cases {i : TickInput} {s t : State} (h : hostPhase i s = .next t) :
    t = s ∨ (∃ cmd instr, i.host = some cmd ∧ cmd.req.decode s.params.npins = .ok instr ∧
      exec instr (s.address cmd.chan) = .next t) ∨
    ∃ k c c', s.insts[k]? = some c ∧ t = (s.address k).setInst c' ∧
      (c' = c.refuse ∨
        (∃ b rest, c.putsTask = .ready b rest ∧
          c' = c.putsIssue k s.params s.wrFail s.now b rest) ∨
        c.readAdvance s.params = .ok c') := by
  unfold hostPhase at h
  split at h
  · unfold applyCommand at h
    split at h
    · exact .inr (.inl ⟨_, _, ‹_›, ‹_›, h⟩)
    · obtain ⟨c, hc, rfl⟩ := State.update_cases h
      exact .inr (.inr ⟨_, c, _, by simpa using hc, rfl, .inl rfl⟩)
  · split at h
    · rename_i k hk
      obtain ⟨c, c', hc, hf, rfl⟩ := State.updateE_cases h
      refine .inr (.inr ⟨k, c, c', by simpa using hc, rfl, .inr ?_⟩)
      split at hf
      · injection hf with hf; exact .inl ⟨_, _, ‹_›, hf.symm⟩
      · exact .inr hf
      · exact .inr hf
    · injection h with h; exact .inl h.symm

end Sys2Proof.Machine
end

