-- ==== Sys2Proof/Laws/Transmit.lean ====
section
/-! SUPPORT. Transmission of one byte, tick by tick (R149). -/

namespace Sys2Proof.Machine

/-- `TxData` when it is due and every write succeeds (R144). -/
theorem Inst.txStep_txData {c : Inst} {k : Nat} {p : Params} {w : PinSet} {now : Nat}
    (hst : c.tx.state = .txData)
    (hw : ∀ q, PinSet.has c.cfg.txPins q = true → PinSet.has w q = false)
    (h : waitDone c.tx.start ((c.tx.bit.toNat + 1) * c.cfg.bitTime.toNat) now = true) :
    ∃ L, (∀ q, PinSet.has L q = if PinSet.has c.cfg.txPins q then dataBit c.tx.data c.tx.bit
        else PinSet.has c.tx.level q) ∧
      c.txStep k p w now =
        if c.tx.bit = 7 then { c with tx := { c.tx with level := L, state := .txStopWait } }
        else { c with tx := { c.tx with level := L, bit := c.tx.bit + 1 } } := by
  obtain ⟨L, h1, h2⟩ := Inst.writeTx_succeeds (dataBit c.tx.data c.tx.bit) hw
  exact ⟨L, h2, by simp only [Inst.txStep, hst, Inst.txSend, h, if_true, h1, Inst.orAbort]⟩

/-- `TxStopWait` when it is due and every write succeeds (R145). -/
theorem Inst.txStep_txStopWait {c : Inst} {k : Nat} {p : Params} {w : PinSet} {now : Nat}
    (hst : c.tx.state = .txStopWait)
    (hw : ∀ q, PinSet.has c.cfg.txPins q = true → PinSet.has w q = false)
    (h : waitDone c.tx.start (9 * c.cfg.bitTime.toNat) now = true) :
    ∃ L, (∀ q, PinSet.has L q = (PinSet.has c.cfg.txPins q || PinSet.has c.tx.level q)) ∧
      c.txStep k p w now =
        { c with tx := { c.tx with level := L, t0 := now, state := .txGuard } } := by
  obtain ⟨L, h1, h2⟩ := Inst.writeTx_succeeds true hw
  refine ⟨L, fun q => by rw [h2]; cases PinSet.has c.cfg.txPins q <;> simp, ?_⟩
  simp only [Inst.txStep, hst, Inst.txStop, Config.STOP_AT, h, if_true, Config.STOP_LEVEL, h1,
    Inst.orAbort]

/-- `TxGuard` when it is due and the direction write succeeds (R146, R147). -/
theorem Inst.txStep_txGuard {c : Inst} {k : Nat} {p : Params} {w : PinSet} {now : Nat}
    (hst : c.tx.state = .txGuard)
    (hd : c.cfg.hdx = true → PinSet.has w c.cfg.dirPin = false)
    (h : delayDone p.timerWidth c.tx.t0 (6 * c.cfg.bitTime.toNat) now = true) :
    c.txStep k p w now = { c with
      tx := { c.tx with
        state := .txIdle
        dirLevel := if c.cfg.hdx then !p.dirAsserted else c.tx.dirLevel }
      out := { c.out with txResp := some ⟨.ok, 0⟩ } } := by
  cases hh : c.cfg.hdx
  · simp only [Inst.txStep, hst, Inst.txGuard, Config.GUARD_BITS, h, hh, if_true,
      Bool.false_eq_true, if_false]
    rfl
  · simp only [Inst.txStep, hst, Inst.txGuard, Config.GUARD_BITS, h, hh, if_true, Inst.pinWrite,
      Inst.outPinId, hd hh, Bool.false_eq_true, if_false, Inst.orAbort]
    rfl

/-- A busy transmitter whose wait is not over does nothing (R148). -/
theorem Inst.txStep_waits {c : Inst} {k : Nat} {p : Params} {w : PinSet} {now : Nat}
    (h1 : c.tx.state = .txData →
      waitDone c.tx.start ((c.tx.bit.toNat + 1) * c.cfg.bitTime.toNat) now = false)
    (h2 : c.tx.state = .txStopWait → waitDone c.tx.start (9 * c.cfg.bitTime.toNat) now = false)
    (h3 : c.tx.state = .txGuard →
      delayDone p.timerWidth c.tx.t0 (6 * c.cfg.bitTime.toNat) now = false) :
    c.txStep k p w now = c := by
  unfold Inst.txStep
  split <;> rename_i hst
  · rfl
  · simp [Inst.txSend, h1 hst]
  · simp [Inst.txStop, h2 hst]
  · simp [Inst.txGuard, h3 hst]

/-- One more tick at the end of a run. -/
theorem txRun_snoc (n : Nat) : ∀ (now : Nat) (s : State),
    txRun now (n+1) s = andThen (txRun now n s) (exec (.txStep (now + n))) := by
  induction n with
  | zero => intro now s; simp [txRun]; cases exec (.txStep now) s <;> rfl
  | succ n ih =>
    intro now s
    rw [txRun]
    conv_rhs => rw [txRun]
    cases h : exec (.txStep now) s with
    | fault r => rfl
    | refused r => rfl
    | next t =>
      simp only [andThen_of_next]
      rw [ih]
      congr 3; omega

/-- Where the transmitter stands after `n` ticks of the frame that carries `b`,
    accepted at `S` by the
instance `c`, with a bit period of `T` (R149). -/
structure Sending (p : Params) (c : Inst) (S : Nat) (b : Byte) (T n : Nat) (d : Inst) : Prop where
  cfg : d.cfg = c.cfg
  data : d.tx.data = b
  start : d.tx.start = S
  lev : ∀ q, PinSet.has c.cfg.txPins q = true →
      PinSet.has d.tx.level q = framePosition (encodeFrame b) (n / T)
  lev2 : ∀ q, PinSet.has c.cfg.txPins q = false → PinSet.has d.tx.level q = PinSet.has c.tx.level q
  dir : c.cfg.hdx = true → d.tx.dirLevel = if n < 15 * T then p.dirAsserted else !p.dirAsserted
  resp : d.out.txResp = if n = 15 * T then some ⟨.ok, 0⟩ else none
  s1 : n < 8 * T → d.tx.state = .txData ∧ d.tx.bit.toNat = n / T
  s2 : 8 * T ≤ n → n < 9 * T → d.tx.state = .txStopWait
  s3 : 9 * T ≤ n → n < 15 * T → d.tx.state = .txGuard ∧ d.tx.t0 = S + (9 * T)
  s4 : n = 15 * T → d.tx.state = .txIdle

/-- One tick of transmission (R149). -/
theorem Sending.next {p : Params} {w : PinSet} {c d : Inst} {S : Nat} {b : Byte} {T n k : Nat}
    (hT : c.cfg.bitTime.toNat = T) (h1 : 1 ≤ T) (hw : S + 15 * T < 2 ^ p.timerWidth) (hn : n < 15 * T)
    (hwf : ∀ q, PinSet.has c.cfg.txPins q = true → PinSet.has w q = false)
    (hdf : c.cfg.hdx = true → PinSet.has w c.cfg.dirPin = false) (h : Sending p c S b T n d) :
    Sending p c S b T (n + 1) (d.txStep k p w (S + (n + 1))) := by
  obtain ⟨hcfg, hdata, hstart, hlev, hlev2, hdir, hresp, s1, s2, s3, s4⟩ := h
  have hdT : d.cfg.bitTime.toNat = T := by rw [hcfg]; exact hT
  have hwf' : ∀ q, PinSet.has d.cfg.txPins q = true → PinSet.has w q = false := by
    rw [hcfg]; exact hwf
  have hdf' : d.cfg.hdx = true → PinSet.has w d.cfg.dirPin = false := by rw [hcfg]; exact hdf
  have hwait : ∀ target,
      waitDone d.tx.start target (S + (n+1)) = decide (target ≤ n+1) := by
    intro target; rw [hstart]; exact waitDone_add _ _ _
  by_cases c1 : n < 8 * T
  · obtain ⟨hst, hb⟩ := s1 c1
    generalize hq : n / T = q at *
    have hq1 : q * T ≤ n := by rw [← hq]; exact Nat.div_mul_le_self _ _
    have hq2 : n < (q+1) * T := (Nat.div_lt_iff_lt_mul (by omega)).mp (by omega)
    have hq8 : q < 8 := by
      by_contra hc
      have : 8 * T ≤ q * T := Nat.mul_le_mul_right _ (by omega)
      omega
    have hwq := hwait ((d.tx.bit.toNat + 1) * d.cfg.bitTime.toNat)
    rw [hb, hdT] at hwq
    by_cases hdue : (q+1)*T ≤ n + 1
    · have hnx : (n+1)/T = q+1 := by
        apply Nat.div_eq_of_lt_le
        · omega
        · rw [Nat.add_mul (q+1) 1 T]; omega
      obtain ⟨L, hL, he⟩ := Inst.txStep_txData (k := k) (p := p) hst hwf'
        (by rw [hb, hdT, hwq]; simpa using hdue)
      have hl1 : ∀ q', PinSet.has c.cfg.txPins q' = true →
          PinSet.has L q' = framePosition (encodeFrame b) ((n+1) / T) := by
        intro q' hq'; rw [hL, hcfg, hq', if_pos rfl, hnx, framePosition_encodeFrame,
            if_neg (by omega), if_pos (by omega), hdata, dataBit, hb]; rfl
      have hl2 : ∀ q', PinSet.has c.cfg.txPins q' = false →
          PinSet.has L q' = PinSet.has c.tx.level q' := by
        intro q' hq'; rw [hL, hcfg, hq']; simpa using hlev2 q' hq'
      by_cases hq7 : q = 7
      · subst hq7
        have hb7 : d.tx.bit = 7 := BitVec.eq_of_toNat_eq (by rw [hb]; rfl)
        rw [he, if_pos hb7]
        refine ⟨hcfg, hdata, hstart, hl1, hl2, ?_, ?_, by intros; exfalso; omega, fun _ _ => rfl,
            by intros; exfalso; omega, by intros; exfalso; omega⟩
        · intro hh; rw [hdir hh, if_pos hn, if_pos (by omega)]
        · rw [if_neg (by omega)]; rw [if_neg (by omega)] at hresp; exact hresp
      · have hb7 : ¬ d.tx.bit = 7 := by
          intro hc; rw [hc] at hb; exact hq7 hb.symm
        have h8 : (q+1)*T ≤ 7 * T := Nat.mul_le_mul_right _ (by omega)
        rw [he, if_neg hb7]
        refine ⟨hcfg, hdata, hstart, hl1, hl2, ?_, ?_, ?_, by intros; exfalso; omega,
            by intros; exfalso; omega, by intros; exfalso; omega⟩
        · intro hh; rw [hdir hh, if_pos hn, if_pos (by omega)]
        · rw [if_neg (by omega)]; rw [if_neg (by omega)] at hresp; exact hresp
        · intro _; refine ⟨hst, ?_⟩
          rw [hnx]; simp only [BitVec.toNat_add, hb]; show (q + 1) % 8 = q + 1; omega
    · have hnx : (n+1)/T = q := by apply Nat.div_eq_of_lt_le <;> omega
      have h8 : (q+1)*T ≤ 8 * T := Nat.mul_le_mul_right _ (by omega)
      rw [Inst.txStep_waits (fun _ => by rw [hb, hdT, hwq]; simpa using hdue) (by simp [hst])
        (by simp [hst])]
      refine ⟨hcfg, hdata, hstart, ?_, hlev2, ?_, ?_, fun _ => ⟨hst, by rw [hnx, hb]⟩,
          by intros; exfalso; omega, by intros; exfalso; omega, by intros; exfalso; omega⟩
      · intro q' hq'; rw [hnx]; exact hlev q' hq'
      · intro hh; rw [hdir hh, if_pos hn, if_pos (by omega)]
      · rw [if_neg (by omega)]; rw [if_neg (by omega)] at hresp; exact hresp
  by_cases c2 : n < 9 * T
  · have hst := s2 (by omega) c2
    have hq : n / T = 8 := by apply Nat.div_eq_of_lt_le <;> omega
    by_cases hdue : 9 * T ≤ n + 1
    · have hnx : (n+1)/T = 9 := by apply Nat.div_eq_of_lt_le <;> omega
      obtain ⟨L, hL, he⟩ := Inst.txStep_txStopWait (k := k) (p := p) hst hwf'
        (by rw [hdT, hwait]; simpa using hdue)
      rw [he]
      refine ⟨hcfg, hdata, hstart, ?_, ?_, ?_, ?_, by intros; exfalso; omega,
          by intros; exfalso; omega, ?_, by intros; exfalso; omega⟩
      · intro q' hq'; rw [hL, hcfg, hq', hnx, framePosition_encodeFrame]; rfl
      · intro q' hq'; rw [hL, hcfg, hq']; simpa using hlev2 q' hq'
      · intro hh; rw [hdir hh, if_pos hn, if_pos (by omega)]
      · rw [if_neg (by omega)]; rw [if_neg (by omega)] at hresp; exact hresp
      · intro _ _; refine ⟨rfl, ?_⟩
        show S + _ = _; omega
    · have hnx : (n+1)/T = 8 := by apply Nat.div_eq_of_lt_le <;> omega
      rw [Inst.txStep_waits (by simp [hst]) (fun _ => by rw [hdT, hwait]; simpa using hdue)
        (by simp [hst])]
      refine ⟨hcfg, hdata, hstart, ?_, hlev2, ?_, ?_, by intros; exfalso; omega, fun _ _ => hst,
          by intros; exfalso; omega, by intros; exfalso; omega⟩
      · intro q' hq'; rw [hnx, ← hq]; exact hlev q' hq'
      · intro hh; rw [hdir hh, if_pos hn, if_pos (by omega)]
      · rw [if_neg (by omega)]; rw [if_neg (by omega)] at hresp; exact hresp
  · obtain ⟨hst, ht0⟩ := s3 (by omega) hn
    have hdl : delayDone p.timerWidth d.tx.t0 (6*T)
        (S + (n+1)) = decide (6*T ≤ n + 1 - 9*T) := by
      have : S + (n+1) =
          (S + (9*T)) + (n + 1 - 9*T) := by
        omega
      rw [ht0, this]; exact delayDone_add (by omega)
    have hge : ∀ m, 9 * T ≤ m → framePosition (encodeFrame b) (m / T) = true := by
      intro m hm
      have : 9 ≤ m / T := (Nat.le_div_iff_mul_le (by omega)).mpr hm
      rw [framePosition_encodeFrame, if_neg (by omega), if_neg (by omega)]
    have hl : ∀ q, PinSet.has c.cfg.txPins q = true →
        PinSet.has d.tx.level q = framePosition (encodeFrame b) ((n+1) / T) := by
      intro q hq; rw [hlev q hq, hge n (by omega), hge (n+1) (by omega)]
    by_cases hdue : 6*T ≤ n + 1 - 9*T
    · have hnn : n + 1 = 15 * T := by omega
      rw [Inst.txStep_txGuard (k := k) (p := p) hst hdf' (by rw [hdT, hdl]; simpa using hdue)]
      refine ⟨hcfg, hdata, hstart, hl, hlev2, ?_, ?_, by intros; exfalso; omega,
          by intros; exfalso; omega, by intros; exfalso; omega, fun _ => rfl⟩
      · intro hh; simp [hcfg, hh, hnn]
      · simp [hnn]
    · rw [Inst.txStep_waits (by simp [hst]) (by simp [hst])
        (fun _ => by rw [hdT, hdl]; simpa using hdue)]
      refine ⟨hcfg, hdata, hstart, hl, hlev2, ?_, ?_, by intros; exfalso; omega,
          by intros; exfalso; omega, fun _ _ => ⟨hst, ht0⟩, by intros; exfalso; omega⟩
      · intro hh; rw [hdir hh, if_pos hn, if_pos (by omega)]
      · rw [if_neg (by omega)]; rw [if_neg (by omega)] at hresp; exact hresp

end Sys2Proof.Machine
end

