-- ==== Sys2Proof/Tests/Slice0.lean ====
section
/-! SUPPORT. Small tests, each of one operation, with expected results from the spec's vectors and
worked examples; and for every statement with hypotheses a witness that meets them. -/

namespace Sys2Proof.Tests

open Sys2Proof Sys2Proof.Machine

/-! ## Helpers -/

/-- The next state, if there is one. -/
def nextState : Answer → Option State
  | .next s => some s
  | .fault _ => none
  | .refused _ => none

/-- The addressed instance of the next state. -/
def nextInst (o : Answer) : Option Inst := (nextState o).bind State.inst?

/-- The response word of the command of this tick. -/
def respWord (o : Answer) : Option ResponseWord :=
  (nextInst o).bind fun c => c.out.resp.map Response.word

/-- What a component operation answered. -/
def resultOf (o : Answer) : Option OpResult := (nextState o).map fun s => s.result

/-- A block whose only instance is `c`. -/
def blockOf (c : Inst) : State := { State.reset with insts := [c] }

/-- The instance after `INIT {9600, tx {2}, rx 4, RXEN, TXEN}` (V23, R184): bit period 104, the
interrupt armed, TX pin 2 at 1. -/
def ready : Inst :=
  { Inst.reset with
    cfg := ⟨9600, 104, 4, 0b100, 0, true, true, false, false, true⟩
    rx := { Inst.reset.rx with ie := true }
    tx := { Inst.reset.tx with level := 0b100 } }

/-- The same in half-duplex with direction pin 5 (V18, R157). -/
def readyHdx : Inst := { ready with cfg := { ready.cfg with hdx := true, dirPin := 5 } }

/-- The instance with a ring. -/
def withRing (head tail : SlotIx) (slots : Memory) (ov : Bool) : Inst :=
  { ready with ring := ⟨slots, head, tail, ov⟩ }

/-- The ring after 63 pushes of `1 .. 63` from reset (V5). -/
def fullSlots : Memory := (List.range 63).map fun i => (i, BitVec.ofNat 8 (i + 1))

def fullInst : Inst := withRing 0 63 fullSlots false

/-- A quiet tick: every pin high, no write fails. -/
def quiet : TickInput := ⟨0xFFFFFFFF, 0, true, none, none, false⟩

/-! ## Well-formed terms -/

theorem test_wf_init_reserved_bits :
    Instr.wf 32 32 (.init ⟨9600, 0b100, 4, 0, true, true, false, false, 1⟩) = false := by decide
/-- A TX pin, an RX pin and, in half-duplex, a direction pin that a block with 20 pins has not. -/
theorem test_wf_init_pins_exist :
    Instr.wf 32 20 (.init ⟨9600, 0x100000, 4, 0, true, true, false, false, 0⟩) = false ∧
    Instr.wf 32 20 (.init ⟨9600, 0b100, 20, 0, true, true, false, false, 0⟩) = false ∧
    Instr.wf 32 20 (.init ⟨9600, 0b100, 4, 20, true, true, true, false, 0⟩) = false ∧
    Instr.wf 32 20 (.init ⟨9600, 0b100, 4, 20, true, true, false, false, 0⟩) = true := by decide
theorem test_wf_claim_pins_exist :
    Instr.wf 32 20 (.claim 0x100000 4) = false ∧ Instr.wf 32 20 (.claim 0b100 20) = false ∧
    Instr.wf 32 20 (.claim 0x80000 0) = true := by decide
theorem test_wf_now_in_counter :
    Instr.wf 23 32 (.rxStep 8388608 true) = false ∧ Instr.wf 23 32 (.txStep 8388608) = false ∧
    Instr.wf 23 32 (.rxStep 8388607 true) = true ∧ Instr.wf 23 32 (.txStep 8388607) = true := by
  decide
theorem test_wf_init :
    Instr.wf 32 32 (.init ⟨9600, 0b100, 4, 0, true, true, false, false, 0⟩) = true := by decide
theorem test_wf_read_zero :
    Instr.wf 32 32 (.read 0) = false ∧ Instr.wf 32 32 (.read 1) = true := by decide
theorem test_wf_readline_zero :
    Instr.wf 32 32 (.readline 0) = false ∧ Instr.wf 32 32 (.readline 1) = true := by decide

/-! ## Decoding: words written out from R79, R80, R82 and R70 -/

/-- `OP = 1`, zeros; CFG: zero 00, NOTIFY 0, HDX 0, TXEN 1, RXEN 1, dir 00000, rx 00100, tx {2},
baud 9600 (R82, R83). -/
theorem test_decode_init :
    decode 32 0b0001000000000000
      0b00001100000001000000000000000000000000000000010000000000000000000010010110000000 =
    .ok (.init ⟨9600, 0b100, 4, 0, true, true, false, false, 0⟩) := by decide
/-- Every field of CFG at once: zero 10, NOTIFY 1, HDX 1, TXEN 0, RXEN 1, dir 10001, rx 00110,
tx {31, 0}, baud -1 (R82, R85). -/
theorem test_decode_init_fields :
    decode 32 0b0001000000000000
      0b10110110001001101000000000000000000000000000000111111111111111111111111111111111 =
    .ok (.init ⟨-1, 0x80000001, 6, 17, true, false, true, true, 2⟩) := by decide
/-- With 16 pins the sets have 16 bits and the pin fields four, so the record has 62 (R82): zero 00,
NOTIFY 1, HDX 1, TXEN 0, RXEN 1, dir 1001, rx 0110, tx {15, 0}, baud -1. -/
theorem test_decode_init_16_pins :
    cfgBits 16 = 62 ∧
    decode 16 0b0001000000000000
      0b00110110010110100000000000000111111111111111111111111111111111 =
    .ok (.init ⟨-1, 0x8001, 6, 9, true, false, true, true, 0⟩) := by decide
/-- R82: 80 bits with 32 pins; the pin fields have `ceil(log2 NPINS)` bits. -/
theorem test_cfgBits :
    cfgBits 32 = 80 ∧ pinIdBits 1 = 0 ∧ pinIdBits 2 = 1 ∧ pinIdBits 20 = 5 ∧ pinIdBits 33 = 6 := by
  decide
theorem test_decode_putchar : decode 32 0b0010000001000001 0 = .ok (.putchar 0x41) := by decide
theorem test_decode_getc : decode 32 0b0011000000000000 0 = .ok .getc := by decide
theorem test_decode_available : decode 32 0b0100000000000000 0 = .ok .available := by decide
theorem test_decode_overrun : decode 32 0b0101000000000000 0 = .ok .overrun := by decide
/-- Start 0; bits of 0x41 least significant first 1 0 0 0 0 0 1 0; stop 1 (R70). -/
theorem test_decode_frame : decodeFrame 0b0100000101 = .ok (.frame 0x41) := by decide
/-- The bits of 0xA5 least significant first are 1 0 1 0 0 1 0 1 (V9). -/
theorem test_decode_frame_a5 : decodeFrame 0b0101001011 = .ok (.frame 0xA5) := by decide
theorem test_decode_frame_malformed :
    decodeFrame 0b1100000101 = .error (.malformedFrame 0b1100000101) ∧
    decodeFrame 0b0100000100 = .error (.malformedFrame 0b0100000100) := by decide
/-- V24: the reserved words. -/
theorem test_decode_reserved :
    decode 32 0x0000 0 = .error (.reservedOp 0) ∧ decode 32 0x6000 0 = .error (.reservedOp 6) ∧
    decode 32 0xFFFF 0 = .error (.reservedOp 15) ∧ decode 32 0x2141 0 = .error (.zeroFieldSet 1) ∧
    decode 32 0x3001 0 = .error (.dataFieldSet 1) ∧ decode 32 0x4010 0 = .error (.dataFieldSet 0x10) ∧
    decode 32 0x50FF 0 = .error (.dataFieldSet 0xFF) ∧ decode 32 0x1001 0 = .error (.dataFieldSet 1) := by
  decide
theorem test_decodeTableWord :
    decodeTableWord 16 0x2041 = some (.putchar 0x41) ∧ decodeTableWord 16 0x3000 = some .getc ∧
    decodeTableWord 10 0b0100000101 = some (.frame 0x41) ∧
    decodeTableWord 16 0b0100000101 = some (.frame 0x41) ∧
    decodeTableWord 16 0x0000 = none ∧ decodeTableWord 16 0x6001 = none ∧
    decodeTableWord 96 0x0C0400000004000025801000 =
      some (.init ⟨9600, 0b100, 4, 0, true, true, false, false, 0⟩) := by decide
theorem test_withFetchWord_runs :
    respWord (step (State.reset.withFetchWord 16 0x3000)) = some 0xF000 := by decide
theorem test_withFetchWord_frame :
    (nextInst (step ((blockOf ready).withFetchWord 16 0b0100000101))).map (·.line) =
    some (some ⟨0b0100000101, 0⟩) := by decide
theorem test_encode_init : encode 32 (.init ⟨9600, 0b100, 4, 0, true, true, false, false, 0⟩) =
    some (.command 0x1000 0x0C040000000400002580) := by decide
theorem test_encode_putchar : encode 32 (.putchar 0xFF) = some (.command 0x20FF 0) := by decide

/-! ## One operation -/

/-- V23, R184. -/
theorem test_init :
    let o := exec (.init ⟨9600, 0b100, 4, 0, true, true, false, false, 0⟩)
      { State.reset with pinCfgOk := true }
    respWord o = some 0x0000 ∧ (nextState o).map (·.claimed) = some 0b10100 ∧
    (nextInst o).map (fun c => (c.cfg.bitTime, c.rx.ie, c.tx.level, c.cfg.inited)) =
      some (104, true, 0b100, true) := by decide
/-- V23: overlap is tested before baud; claimed is tested before baud. -/
theorem test_init_order :
    respWord (exec (.init ⟨0, 0b10000, 4, 0, true, true, false, false, 0⟩) State.reset) = some 0x2000 ∧
    respWord (exec (.init ⟨0, 0b10000, 5, 0, true, true, false, false, 0⟩)
      { State.reset with claimed := 0b10100 }) = some 0x3000 := by decide
/-- R157: direction 1, TX pin 0, at tick 5000. -/
theorem test_putchar :
    (nextInst (exec (.putchar 0x41) { blockOf readyHdx with now := 5000 })).map
      (fun c => (c.tx.state, c.tx.level, c.tx.dirLevel, c.tx.start)) =
    some (.txData, 0, true, 5000) := by decide
/-- V25: TXEN = 0. -/
theorem test_putchar_refused :
    respWord (exec (.putchar 0x41)
      (blockOf { ready with cfg := { ready.cfg with txen := false } })) = some 0xF000 := by decide
/-- V8: the zero byte and the empty queue give the same word. -/
theorem test_getc :
    respWord (exec .getc (blockOf (withRing 0 1 [(0, 0)] false))) = some 0x0000 ∧
    respWord (exec .getc (blockOf ready)) = some 0x0000 ∧
    respWord (exec .getc (blockOf (withRing 0 1 [(0, 0x41)] false))) = some 0x0041 := by decide
/-- R83: 63 bytes queued. -/
theorem test_available : respWord (exec .available (blockOf fullInst)) = some 0x003F := by decide
/-- V7. -/
theorem test_overrun :
    respWord (exec .overrun (blockOf (withRing 0 0 [] true))) = some 0x0001 ∧
    (nextInst (exec .overrun (blockOf (withRing 0 0 [] true)))).map (·.ring.overrun) = some false := by
  decide
/-- R70 with bit period 104: 0x41 is 0, 1, 0, ... on the line, then the pin's own level. -/
theorem test_frame :
    (nextInst (exec (.frame 0x41) (blockOf ready))).map
      (fun c => [0, 103, 104, 207, 208, 831, 832, 935, 936, 1040].map (c.pinRead 0)) =
    some [false, false, true, true, false, true, false, false, true, false] := by decide
/-- R13, R198: a counter of 23 bits wraps after 8388607. -/
theorem test_counter_wraps :
    (nextState (step { State.reset with
      params := { Params.default with timerWidth := 23 }, now := 8388607 })).map (·.now) = some 0 := by
  decide
/-- R45 at another width: 5 ticks after 8388606 the counter of 23 bits reads 3. -/
theorem test_delay_wraps :
    delayDone 23 8388606 5 3 = true ∧ delayDone 23 8388606 6 3 = false := by decide
/-- R153, P5: the first byte is sent and the second is left. -/
theorem test_puts :
    (nextInst (exec (.puts [0x41, 0x42]) (blockOf ready))).map (fun c => (c.tx.data, c.putsTask)) =
    some (0x41, .waiting [0x42]) := by decide
/-- R153: a byte that ended with PinWriteError ends the loop. -/
theorem test_puts_abort :
    ({ ready with putsTask := .waiting [0x42], out := ⟨none, some ⟨.pinWriteError, 0⟩, false⟩ }
      : Inst).putsSettle.putsResult = some .pinWriteError := by decide
/-- V21: the overrun flag ends READ before any byte is taken. -/
theorem test_read_overrun :
    (nextInst (exec (.read 16) (blockOf (withRing 0 1 [(0, 0x41)] true)))).map
      (fun c => (c.readResult, c.ring.overrun, c.ring.head)) =
    some (some .overrunError, false, 0) := by decide
/-- V21: `READ 1` gives `Count(0)`, `out = 00`, with the queue untouched. -/
theorem test_read_one :
    ((readRun Params.default 1 { withRing 0 1 [(0, 0x41)] false with
      readTask := .checking false 1 [] }).toOption).map (fun c => (c.readResult, c.ring.head)) =
    some (some (.count 0 [0]), 0) := by decide
/-- V22: queue `0A 41`: `READLINE 8` gives `Count(0)`, `out = 00`, queue `41`. -/
theorem test_readline :
    ((readRun Params.default 2 { withRing 0 2 [(0, 0x0A), (1, 0x41)] false with
      readTask := .checking true 8 [] }).toOption).map (fun c => (c.readResult, c.ring.head)) =
    some (some (.count 0 [0]), 1) := by decide
theorem test_readline_begins :
    (nextInst (exec (.readline 6) (blockOf ready))).map (·.readTask) =
    some (.checking true 6 []) := by decide
/-- R65, U10: while a READ runs, GETC, OVERRUN and a second READLINE are refused; AVAILABLE, which
consumes nothing, is answered. -/
theorem test_second_consumer :
    let s := blockOf { withRing 0 1 [(0, 0x41)] true with readTask := .taking false 8 [] }
    respWord (exec .getc s) = some 0xF000 ∧ respWord (exec .overrun s) = some 0xF000 ∧
    respWord (exec (.readline 8) s) = some 0xF000 ∧ respWord (exec .available s) = some 0x0001 :=
  by decide
/-- V3. -/
theorem test_claim :
    (nextState (exec (.claim 0b100 4) State.reset)).map (fun s => (s.claimed, s.result)) =
    some (0b10100, .claimed) := by decide
/-- V3: overlap is tested first, although 2 is also claimed. -/
theorem test_claim_conflicts :
    resultOf (exec (.claim 0b10000100 7) { State.reset with claimed := 0b10100 }) =
      some .pinConflictOverlap ∧
    resultOf (exec (.claim 0 2) { State.reset with claimed := 0b10100 }) =
      some .pinConflictClaimed := by decide
/-- V1. -/
theorem test_compute :
    resultOf (exec (.compute 1) State.reset) = some (.bitTime 1000000) ∧
    resultOf (exec (.compute 2400) State.reset) = some (.bitTime 417) ∧
    resultOf (exec (.compute 115200) State.reset) = some (.bitTime 9) := by decide
/-- V2. -/
theorem test_compute_corners :
    resultOf (exec (.compute 0x80000000) State.reset) = some .invalidBaud ∧
    resultOf (exec (.compute 400000) State.reset) = some (.bitTime 2) ∧
    resultOf (exec (.compute 1960784) State.reset) = some (.bitTime 1) ∧
    resultOf (exec (.compute 1960785) State.reset) = some (.bitTime 0) := by decide
/-- V4: the index wraps. -/
theorem test_push_wraps :
    (nextInst (exec (.push 0x33) (blockOf (withRing 63 63 [] false)))).map (fun c => c.ring) =
    some ⟨[(63, 0x33)], 63, 0, false⟩ := by decide
/-- V5: the 64th byte is dropped. -/
theorem test_push_full :
    resultOf (exec (.push 0x40) (blockOf fullInst)) = some (.pushed false) ∧
    (nextInst (exec (.push 0x40) (blockOf fullInst))).map (fun c => c.ring) =
      some ⟨fullSlots, 0, 63, true⟩ := by decide
/-- V4. -/
theorem test_pop :
    resultOf (exec .pop (blockOf (withRing 63 0 [(63, 0x33)] false))) = some (.popped (some 0x33)) ∧
    (nextInst (exec .pop (blockOf (withRing 63 0 [(63, 0x33)] false)))).map (·.ring.head) = some 0 ∧
    resultOf (exec .pop (blockOf (withRing 2 2 [] false))) = some (.popped none) := by decide
/-- V6. -/
theorem test_avail :
    resultOf (exec .avail (blockOf (withRing 60 2 [] false))) = some (.count 6) ∧
    resultOf (exec .avail (blockOf (withRing 1 0 [] false))) = some (.count 63) ∧
    resultOf (exec .avail (blockOf (withRing 63 63 [] false))) = some (.count 0) := by decide
/-- V7. -/
theorem test_takeOverrun :
    resultOf (exec .takeOverrun (blockOf (withRing 0 0 [] true))) = some (.overrunWas true) ∧
    resultOf (exec .takeOverrun (blockOf (withRing 0 0 [] false))) = some (.overrunWas false) := by
  decide
/-- V9: entry at 1000. -/
theorem test_rxStep_entry :
    (nextInst (exec (.rxStep 1000 false) (blockOf ready))).map
      (fun c => (c.rx.state, c.rx.ie, c.rx.t0)) =
    some (.samplingStartHalf, false, 1000) := by decide
/-- V9: the eighth sample of 0xA5 at 1884, after `rx_shift = 0x4A`, not a tick earlier. -/
theorem test_rxStep_push :
    let c := { ready with rx := ⟨.samplingBits, 7, 0x4A, 1052, 1000, false, true⟩ }
    (nextInst (exec (.rxStep 1884 true) (blockOf c))).map
      (fun c => (c.ring.slots, c.ring.tail, c.rx.state)) =
      some ([(0, 0xA5)], 1, .samplingStop) ∧
    (nextInst (exec (.rxStep 1883 true) (blockOf c))) = some c := by decide
/-- V17: the first data write at 19, not at 18. -/
theorem test_txStep_data :
    let c := { ready with
      cfg := { ready.cfg with bitTime := 9 }
      tx := ⟨.txData, 0, 0xA5, 10, 0, 0, false⟩ }
    (nextInst (exec (.txStep 19) (blockOf c))).map (fun c => (c.tx.level, c.tx.bit)) =
      some (0b100, 1) ∧
    nextInst (exec (.txStep 18) (blockOf c)) = some c := by decide
/-- R157: completion at 6560 after the stop bit at 5936. -/
theorem test_txStep_completes :
    let c := { readyHdx with tx := ⟨.txGuard, 7, 0x41, 5000, 5936, 0b100, true⟩ }
    (nextInst (exec (.txStep 6560) (blockOf c))).map
      (fun c => (c.tx.state, c.tx.dirLevel, c.out.txResp)) =
      some (.txIdle, false, some ⟨.ok, 0⟩) ∧
    nextInst (exec (.txStep 6559) (blockOf c)) = some c := by decide

/-! ## Witnesses: states and operands that meet the hypotheses of the statements -/

/-- The state an operation leads to. -/
def reached (o : Answer) : State := (nextState o).getD State.reset

theorem next_reached {o : Answer} (h : (nextState o).isSome = true) : o = .next (reached o) := by
  cases o <;> first | rfl | cases h

/-- The block whose coming tick has the input `i`. -/
def comingTick (c : Inst) (i : TickInput) : State := { blockOf c with inputs := [i] }

/-- The configuration of R83, and the same in half-duplex with direction pin 5. -/
def cfgA : CfgRecord := ⟨9600, 0b100, 4, 0, true, true, false, false, 0⟩
def cfgH : CfgRecord := { cfgA with hdx := true, dirPin := 5 }

/-- A transmitter in data bit `i` of 0x41, accepted at 5000 (R157). -/
def sending (i : BitVec 3) : Inst := { ready with tx := ⟨.txData, i, 0x41, 5000, 0, 0, false⟩ }

theorem inv_of_slots {r : Ring} (h1 : Memory.wf r.slots = true)
    (h2 : r.queued.all (fun a => (Memory.read r.slots a).isSome) = true) : r.Inv :=
  ⟨h1, fun a ha => List.all_eq_true.mp h2 a ha⟩

/-- A claim about every member of a set of pins is one about the pins below `n`. -/
theorem forall_members {S : PinSet} {P : Nat → Prop} (n : Nat) (hS : S < 2 ^ n)
    (h : ∀ p < n, PinSet.has S p = true → P p) : ∀ p, PinSet.has S p = true → P p :=
  fun p hp => h p (PinSet.exists_iff.mp hS p hp) hp

theorem fullRing_inv : fullInst.ring.Inv := inv_of_slots (by decide) (by decide)
theorem emptyRing_inv : ready.ring.Inv := inv_of_slots (by decide) (by decide)

theorem ready_inv : ready.Inv 32 where
  ring := emptyRing_inv
  armed := by decide
  disarmed := by decide
  fresh := by decide
  silent := by decide
  timed := by decide
  distinct := by decide
  stamps := by decide

/-! ### Encoding -/

theorem witness_DecodeInvertsEncode :
    ((Instr.init cfgH).fits 32 = true ∧
      encode 32 (.init cfgH) = some (.command 0x1000 0x1CA40000000400002580)) ∧
    (Instr.fits 16 (.init cfgA) = true ∧
      encode 16 (.init cfgA) = some (.command 0x1000 0x0304000400002580)) ∧
    encode 32 (.putchar 0xFF) = some (.command 0x20FF 0) ∧
    encode 32 (.frame 0x00) = some (.wire 0b0000000001) := by decide
theorem witness_EncodeInvertsDecode :
    decode 32 0x1000 0x1CA40000000400002580 = .ok (.init cfgH) ∧
    decode 32 0x2000 0 = .ok (.putchar 0) ∧ decodeFrame 0b0111111111 = .ok (.frame 0xFF) := by decide
theorem witness_EachWordSelectsItsRow :
    (⟨.putchar, 0x2000, 0xFF00⟩ : OpRow) ∈ opRows ∧
    (⟨.putchar, 0x2000, 0xFF00⟩ : OpRow).selects 0x20FF = true := by decide
theorem witness_ReservedWordsAreRefused :
    (blockOf ready).insts[0]? = some ready ∧ (∃ e, decode 32 0x0FFF 0 = .error e) ∧
    (∃ e, decode 32 0x6000 0 = .error e) ∧ (∃ e, decode 32 0x2100 0 = .error e) ∧
    (∃ e, decode 32 0x1001 0 = .error e) :=
  ⟨by decide, ⟨.reservedOp 0, by decide⟩, ⟨.reservedOp 6, by decide⟩,
    ⟨.zeroFieldSet 1, by decide⟩, ⟨.dataFieldSet 1, by decide⟩⟩
theorem witness_FrameIsTenPositions :
    (7 < 8 ∧ 10 ≤ 10) ∧
    (0 < 10 ∧ 0 * 104 ≤ 103 ∧ 103 < (0 + 1) * 104) ∧
    (9 < 10 ∧ 9 * 104 ≤ 1039 ∧ 1039 < (9 + 1) * 104) ∧ 10 * 104 ≤ 1040 := by decide

/-! ### The tick -/

theorem witness_StepRunsTheDecodedCommand :
    let s := comingTick ready { quiet with host := some ⟨0, .word 0x2041 0⟩ }
    s.nextInput.reset = false ∧ s.nextInput.host = some ⟨0, .word 0x2041 0⟩ ∧
    HostReq.decode s.params.npins (.word 0x2041 0) = .ok (.putchar 0x41) ∧
    s.nextInput.line = none ∧ s.inputs = s.nextInput :: [] := by decide
/-- The clauses for a reserved word, and for a tick with neither a request nor a far sender. -/
theorem witness_StepRunsTheDecodedCommand_others :
    let s := comingTick ready { quiet with host := some ⟨0, .word 0x2141 0⟩ }
    let u := comingTick (sending 0) quiet
    (s.nextInput.reset = false ∧ s.nextInput.host = some ⟨0, .word 0x2141 0⟩ ∧
      HostReq.decode s.params.npins (.word 0x2141 0) = .error (.zeroFieldSet 1)) ∧
    (u.nextInput.reset = false ∧ u.nextInput.host = none ∧ u.nextInput.line = none ∧
      ∀ c ∈ u.insts, c.readTask = .idle ∧ ∀ b rest, c.putsTask ≠ .ready b rest) := by
  refine ⟨by decide, by decide, by decide, by decide, ?_⟩
  intro c hc
  rw [List.mem_singleton.mp hc]; exact ⟨by decide, nofun⟩
theorem witness_StepRunsTheFrameOnTheWire :
    let s := comingTick ready { quiet with line := some (0, 0b0100000101) }
    s.nextInput.reset = false ∧ s.nextInput.line = some (0, 0b0100000101) ∧
    decodeFrame 0b0100000101 = .ok (.frame 0x41) ∧ s.nextInput.host = none ∧
    ∀ c ∈ s.insts, c.readTask = .idle ∧ ∀ b rest, c.putsTask ≠ .ready b rest := by
  refine ⟨by decide, by decide, by decide, by decide, ?_⟩
  intro c hc
  rw [List.mem_singleton.mp hc]; exact ⟨by decide, nofun⟩
/-- The clause for ten positions that form no frame: a break. -/
theorem witness_StepRunsTheFrameOnTheWire_malformed :
    let s := comingTick ready { quiet with line := some (0, 0) }
    s.nextInput.reset = false ∧ s.nextInput.line = some (0, 0) ∧
    (decodeFrame 0).toOption = none := by decide
theorem witness_LoopsIssueHostOperations_puts :
    let c := { ready with putsTask := .ready 0x42 [] }
    let s := { State.reset with insts := [ready, c] }
    quiet.host = none ∧ s.insts[1]? = some c ∧ c.cfg.inited = true ∧
    (∀ j d, j < 1 → s.insts[j]? = some d →
      d.readTask = .idle ∧ ∀ b rest, d.putsTask ≠ .ready b rest) ∧
    c.putsTask = .ready 0x42 [] ∧ c.acceptsPutchar = true := by
  refine ⟨by decide, by decide, by decide, ?_, by decide, by decide⟩
  intro j d hj hd
  obtain rfl : j = 0 := by omega
  injection hd with hd; subst hd; exact ⟨by decide, nofun⟩
/-- The clause for a PUTCHAR that is not admitted: the host's own is in flight. -/
theorem witness_LoopsIssueHostOperations_refused :
    let c := { sending 0 with putsTask := .ready 0x42 [] }
    quiet.host = none ∧ (blockOf c).insts[0]? = some c ∧ c.cfg.inited = true ∧
    c.putsTask = .ready 0x42 [] ∧ c.acceptsPutchar = false := by decide
theorem witness_LoopsIssueHostOperations_read :
    let c := { fullInst with readTask := .checking true 6 [] }
    let d := { fullInst with readTask := .taking true 6 [] }
    quiet.host = none ∧ (blockOf c).insts[0]? = some c ∧ (blockOf d).insts[0]? = some d ∧
    c.cfg.inited = true ∧ d.cfg.inited = true ∧ (∀ b rest, c.putsTask ≠ .ready b rest) ∧ 
    (∀ b rest, d.putsTask ≠ .ready b rest) ∧
    c.readTask = .checking true 6 [] ∧ d.readTask = .taking true 6 [] :=
  ⟨by decide, by decide, by decide, by decide, by decide, nofun, nofun, by decide, by decide⟩
theorem witness_TickTakesRxStepThenTxStep :
    (blockOf (sending 0)).insts[0]? = some (sending 0) ∧
    (blockOf ready).insts[0]? = some ready ∧ ready.line = none ∧
    ({ ready with line := some ⟨encodeFrame 0x41, 7⟩ } : Inst).line =
      some ⟨encodeFrame 0x41, 7⟩ := by decide

/-! ### Reset and INIT -/

theorem witness_ResetValuesOfTheSpec : Inst.reset ∈ State.reset.insts := by decide
theorem witness_OnlyInitWorksBeforeInit :
    State.reset.inst? = some Inst.reset ∧ Inst.reset.cfg.inited = false ∧
    (Instr.putchar 0x41).opClass = .host ∧ (Instr.puts []).opClass = .pseudo ∧
    (∀ cfg, Instr.putchar 0x41 ≠ .init cfg) ∧ Inst.reset.rx.ie = false ∧
    Inst.reset.rx.state = .idle ∧ Inst.reset.tx.state = .txIdle :=
  ⟨by decide, by decide, by decide, by decide, nofun, by decide, by decide, by decide⟩
theorem witness_ExternalResetResetsEverything :
    (comingTick ready { quiet with reset := true }).nextInput.reset = true := by decide
theorem witness_InitCommitsTheConfiguration :
    let s := { State.reset with pinCfgOk := true, claimed := 0b1000 }
    s.inst? = some Inst.reset ∧ Inst.reset.cfg.inited = false ∧ cfgH.zero = 0 ∧
    PinSet.has cfgH.txPins cfgH.rxPin = false ∧
    (cfgH.hdx = true → PinSet.has cfgH.txPins cfgH.dirPin = false ∧ cfgH.dirPin ≠ cfgH.rxPin) ∧
    (∀ p, (PinSet.has cfgH.txPins p = true ∨ p = cfgH.rxPin ∨
      (cfgH.hdx = true ∧ p = cfgH.dirPin)) →
      PinSet.has s.claimed p = false ∧ p < s.params.npins) ∧
    0 < cfgH.baud.toInt ∧ s.pinCfgOk = true := by
  refine ⟨by decide, by decide, by decide, by decide, by decide, ?_, by decide, by decide⟩
  rintro p (hp | rfl | ⟨-, rfl⟩)
  · exact forall_members (P := fun p => PinSet.has 0b1000 p = false ∧ p < 32) 32 (by decide)
      (by decide) p hp
  · decide
  · decide
theorem witness_InitReportsTheFirstFailingTest_overlap :
    State.reset.inst? = some Inst.reset ∧ Inst.reset.cfg.inited = false ∧ cfgA.zero = 0 ∧
    PinSet.has 0b10000 4 = true ∧
    (cfgH.hdx = true ∧ (PinSet.has cfgH.txPins 2 = true ∨ (2 : Nat) = cfgH.rxPin)) ∧
    (cfgH.hdx = true ∧ (PinSet.has cfgH.txPins 4 = true ∨ (4 : Nat) = cfgH.rxPin)) := by decide
theorem witness_InitReportsTheFirstFailingTest_taken :
    let cfg : CfgRecord := { cfgA with txPins := 0b10000, rxPin := 5 }
    ¬(PinSet.has cfg.txPins cfg.rxPin = true ∨
      (cfg.hdx = true ∧ (PinSet.has cfg.txPins cfg.dirPin = true ∨ cfg.dirPin = cfg.rxPin))) ∧
    ∃ p, (PinSet.has cfg.txPins p = true ∨ p = cfg.rxPin ∨ (cfg.hdx = true ∧ p = cfg.dirPin)) ∧
      PinSet.has 0b10100 p = true :=
  ⟨by decide, 4, by decide⟩
theorem witness_InitReportsTheFirstFailingTest_rest :
    ¬(PinSet.has cfgA.txPins cfgA.rxPin = true ∨ (cfgA.hdx = true ∧
      (PinSet.has cfgA.txPins cfgA.dirPin = true ∨ cfgA.dirPin = cfgA.rxPin))) ∧
    (¬ ∃ p, (PinSet.has cfgA.txPins p = true ∨ p = cfgA.rxPin ∨
      (cfgA.hdx = true ∧ p = cfgA.dirPin)) ∧ PinSet.has State.reset.claimed p = true) ∧
    BitVec.toInt (0 : BitVec 32) ≤ 0 ∧ BitVec.toInt (0xFFFFFFFF : BitVec 32) ≤ 0 ∧
    0 < BitVec.toInt (1 : BitVec 32) ∧ 0 < BitVec.toInt (0x7FFFFFFF : BitVec 32) ∧
    State.reset.pinCfgOk = false := by
  refine ⟨by decide, ?_, by decide, by decide, by decide, by decide, by decide⟩
  rintro ⟨p, -, hp⟩
  rw [show State.reset.claimed = 0 from rfl, PinSet.has_empty] at hp; cases hp
theorem witness_InitIsRefusedWhenItMayNotRun :
    ((blockOf ready).inst? = some ready ∧ ready.cfg.inited = true) ∧
    (State.reset.inst? = some Inst.reset ∧ ({ cfgA with zero := 1 } : CfgRecord).zero ≠ 0) := by
  decide
/-- The clause for a pin that does not exist: RX pin 25 of a block with 20 pins, which the five-bit
field can name. -/
theorem witness_InitIsRefusedWhenItMayNotRun_pin :
    let s := { State.reset with params := { Params.default with npins := 20 } }
    let cfg := { cfgA with rxPin := 25 }
    s.inst? = some Inst.reset ∧ Inst.reset.cfg.inited = false ∧ cfg.zero = 0 ∧
    PinSet.has cfg.txPins cfg.rxPin = false ∧ cfg.hdx = false ∧
    (∀ p, (PinSet.has cfg.txPins p = true ∨ p = cfg.rxPin ∨ (cfg.hdx = true ∧ p = cfg.dirPin)) →
      PinSet.has s.claimed p = false) ∧ 0 < cfg.baud.toInt ∧ 20 ≤ cfg.rxPin :=
  ⟨by decide, by decide, by decide, by decide, by decide, fun p _ => PinSet.has_empty p, by decide,
    by decide⟩
theorem witness_InitArmsFromTheNextTick :
    let i : TickInput := { quiet with host := some ⟨0, .word 0x1000 (encodeCfg 32 cfgA)⟩ }
    let s := comingTick Inst.reset i
    s.nextInput.reset = false ∧ s.nextInput.host = some ⟨0, .word 0x1000 (encodeCfg 32 cfgA)⟩ ∧
    s.insts[0]? = some Inst.reset ∧ Inst.reset.cfg.inited = false ∧
    step s = .next (reached (step s)) ∧
    ((reached (step s)).insts[0]?).map (fun d => d.cfg.inited) = some true ∧
    s.nextInput.line = none ∧ Inst.reset.line = none :=
  ⟨by decide, by decide, by decide, by decide, next_reached (by decide), by decide, by decide,
    by decide⟩

/-! ### COMPUTE, CLAIM, the ring -/

theorem witness_ComputeFollowsTheFormula :
    BitVec.toInt (0 : BitVec 32) ≤ 0 ∧ BitVec.toInt (0x80000000 : BitVec 32) ≤ 0 ∧
    0 < BitVec.toInt (1 : BitVec 32) ∧ 0 < BitVec.toInt (0x7FFFFFFF : BitVec 32) := by decide
theorem witness_ComputeRoundsUpFromFiftyOneHundredths :
    0 < 1 ∧ 51 * 1960784 ≤ 100 * (1000000 % 1960784) ∧
    ¬ 51 * 1960785 ≤ 100 * (1000000 % 1960785) := by decide
theorem witness_ComputeRange :
    ((1 : Int) ≤ 1 ∧ (1 : Int) ≤ 2 ^ 31 - 1) ∧ ((1 : Int) ≤ 2147483647 ∧
      (2147483647 : Int) ≤ 2 ^ 31 - 1) := by decide
theorem witness_ClaimIsAllOrNothing :
    PinSet.has 0b1000 3 = true ∧
    (PinSet.has 0b10000 5 = false ∧ (PinSet.has 0b10000 4 = true ∧ PinSet.has 0b10100 4 = true)) ∧
    (PinSet.has 0b100 4 = false ∧
      ∀ p, (PinSet.has 0b100 p = true ∨ p = 4) → PinSet.has 0 p = false) :=
  ⟨by decide, by decide, by decide, fun p _ => PinSet.has_empty p⟩
theorem witness_PushStoresAtTail :
    ((blockOf fullInst).inst? = some fullInst ∧ fullInst.ring.tail + 1 = fullInst.ring.head) ∧
    ((blockOf ready).inst? = some ready ∧ ready.ring.tail + 1 ≠ ready.ring.head) := by decide
theorem witness_PopTakesTheByteAtHead :
    ((blockOf ready).inst? = some ready ∧ ready.ring.head = ready.ring.tail) ∧
    ((blockOf fullInst).inst? = some fullInst ∧ fullInst.ring.head ≠ fullInst.ring.tail ∧
      Memory.read fullInst.ring.slots fullInst.ring.head.toNat = some 1) := by decide
theorem witness_UnwrittenSlotFaults :
    let c := withRing 0 1 [] false
    (blockOf c).inst? = some c ∧ c.ring.head ≠ c.ring.tail ∧
    Memory.read c.ring.slots c.ring.head.toNat = none ∧ c.cfg.inited = true ∧
    c.readTask = .idle ∧
    ({ c with readTask := .taking false 8 [] } : Inst).readTask = .taking false 8 [] := by decide
theorem witness_AvailCountsModulo : (blockOf (withRing 60 2 [] false)).inst? =
    some (withRing 60 2 [] false) := by decide
theorem witness_TakeOverrunReadsAndClears : (blockOf (withRing 0 0 [] true)).inst? =
    some (withRing 0 0 [] true) := by decide
theorem witness_RingIsABoundedQueue :
    (fullInst.ring.Inv ∧ fullInst.ring.contents.length = 63 ∧
      fullInst.ring.contents = 1 :: fullInst.ring.contents.tail) ∧
    (ready.ring.Inv ∧ ready.ring.contents = [] ∧ ready.ring.contents.length < 63) :=
  ⟨⟨fullRing_inv, by decide, by decide⟩, emptyRing_inv, by decide, by decide⟩
theorem witness_SixtyThreeBytesFitAndNoMore :
    (blockOf ready).inst? = some ready ∧ ready.ring.Inv ∧ ready.ring.contents = [] ∧
    (List.replicate 63 (0x55 : Byte)).length = 63 :=
  ⟨by decide, emptyRing_inv, by decide, by decide⟩
theorem witness_GetcAnswersTheOldestByte :
    (State.reset.inst? = some Inst.reset ∧ Inst.reset.cfg.inited = false) ∧
    ((blockOf ready).inst? = some ready ∧ ready.cfg.inited = true ∧ ready.readTask = .idle ∧
      ready.ring.Inv ∧ ready.ring.contents = []) ∧
    ((blockOf fullInst).inst? = some fullInst ∧ fullInst.cfg.inited = true ∧
      fullInst.readTask = .idle ∧ fullInst.ring.Inv ∧
      fullInst.ring.contents = 1 :: fullInst.ring.contents.tail) :=
  ⟨by decide, ⟨by decide, by decide, by decide, emptyRing_inv, by decide⟩, by decide, by decide,
    by decide, fullRing_inv, by decide⟩
theorem witness_AvailableAndOverrunAnswer :
    let c := { ready with readTask := .checking false 8 [] }
    ((blockOf fullInst).inst? = some fullInst ∧ fullInst.cfg.inited = true ∧
      fullInst.readTask = .idle) ∧
    ((blockOf c).inst? = some c ∧ c.cfg.inited = true ∧ c.readTask ≠ .idle) ∧
    (State.reset.inst? = some Inst.reset ∧ Inst.reset.cfg.inited = false) := by decide
theorem witness_OverrunIsReportedOnce :
    (blockOf fullInst).inst? = some fullInst ∧ fullInst.cfg.inited = true ∧
    fullInst.readTask = .idle ∧ fullInst.ring.tail + 1 = fullInst.ring.head := by decide

/-! ### The waits and RXSTEP -/

theorem witness_GuardedWaitEnds :
    (1052 + 104 ≤ 2 ^ 32 - 1 ∧ 103 < 104) ∧ 0 < 4294966848 ∧ 4294966848 < 2 ^ 32 ∧ 104 < 2 ^ 32 ∧
    (1 < 2 ^ 23 ∧ 0 < 1) ∧ 2 ^ 23 ≤ 9 * 1000000 := by
  decide
theorem witness_PlainDelayLastsItsDuration : 2 ^ 32 - 1 < 2 ^ 32 ∧ 23 ≤ 23 ∧ 1000000 ≤ 1000000 := by
  decide
theorem witness_RxEntersOnTheFallingEdgeOnly :
    let c := { ready with rx := { ready.rx with prev := false } }
    ((blockOf ready).inst? = some ready ∧ ready.rx.state = .idle ∧ ready.rx.ie = true ∧
      ready.rx.prev = true) ∧
    ((blockOf c).inst? = some c ∧ c.rx.state = .idle ∧ c.rx.prev = false) ∧
    (Inst.reset.rx.state = .idle ∧ Inst.reset.rx.ie = false) := by decide
theorem witness_RxSamplesTheBits :
    let c := { ready with rx := ⟨.samplingStartHalf, 0, 0, 0, 1000, false, false⟩ }
    let d := { ready with rx := ⟨.samplingBits, 7, 0x4A, 1052, 1000, false, true⟩ }
    ((blockOf c).inst? = some c ∧ c.rx.state = .samplingStartHalf ∧
      delayDone 32 c.rx.t0 (c.cfg.bitTime.toNat / 2) 1052 = true ∧
      delayDone 32 c.rx.t0 (c.cfg.bitTime.toNat / 2) 1051 = false) ∧
    ((blockOf d).inst? = some d ∧ d.rx.state = .samplingBits ∧ d.rx.bit = 7 ∧
      waitDone d.rx.start ((d.rx.bit.toNat + 1) * d.cfg.bitTime.toNat) 1884 = true ∧
      waitDone d.rx.start ((d.rx.bit.toNat + 1) * d.cfg.bitTime.toNat) 1883 = false) := by decide
/-- The same clause before the last bit (V9: the seventh sample, at 1780). -/
theorem witness_RxSamplesTheBits_before :
    let d := { ready with rx := ⟨.samplingBits, 6, 0x94, 1052, 1000, false, true⟩ }
    (blockOf d).inst? = some d ∧ d.rx.state = .samplingBits ∧ d.rx.bit ≠ 7 ∧
    waitDone d.rx.start ((d.rx.bit.toNat + 1) * d.cfg.bitTime.toNat) 1780 = true := by decide
theorem witness_RxNotifiesAndLeaves :
    let c := { ready with rx := ⟨.samplingStop, 7, 0x0A, 1052, 1884, false, true⟩ }
    (blockOf c).inst? = some c ∧ c.rx.state = .samplingStop ∧
    delayDone 32 c.rx.t0 c.cfg.bitTime.toNat 1988 = true ∧
    delayDone 32 c.rx.t0 c.cfg.bitTime.toNat 1987 = false := by decide
theorem witness_RxStepWritesOnlyTheReceiver :
    (blockOf fullInst).inst? = some fullInst ∧ (0 : Nat) ≠ fullInst.ring.tail.toNat := by decide
theorem witness_IdealFrameIsReceived :
    let c := { ready with cfg := { ready.cfg with bitTime := 2 } }
    (blockOf c).inst? = some c ∧ 2 ≤ c.cfg.bitTime.toNat ∧ c.rx.state = .idle ∧ c.rx.ie = true ∧
    c.rx.prev = true ∧ 4294967275 + 10 * c.cfg.bitTime.toNat < 2 ^ (blockOf c).params.timerWidth := by
  decide

/-! ### PUTCHAR and TXSTEP -/

theorem witness_PutcharDrivesTheStartBit :
    let s := { blockOf readyHdx with wrFail := 0b1000 }
    s.inst? = some readyHdx ∧ readyHdx.cfg.inited = true ∧ readyHdx.cfg.txen = true ∧
    readyHdx.tx.state = .txIdle ∧
    (∀ p, PinSet.has readyHdx.cfg.txPins p = true → PinSet.has s.wrFail p = false) ∧
    (readyHdx.cfg.hdx = true → PinSet.has s.wrFail readyHdx.cfg.dirPin = false) :=
  ⟨by decide, by decide, by decide, by decide, forall_members 3 (by decide) (by decide), by decide⟩
theorem witness_PutcharIsRefusedUnlessAdmitted :
    let off := { ready with cfg := { ready.cfg with txen := false } }
    (State.reset.inst? = some Inst.reset ∧ Inst.reset.cfg.inited = false) ∧
    ((blockOf off).inst? = some off ∧ off.cfg.txen = false) ∧
    ((blockOf (sending 0)).inst? = some (sending 0) ∧ (sending 0).tx.state ≠ .txIdle) := by decide
theorem witness_TxStepFollowsTheTable :
    let s := blockOf (sending 7)
    (s.inst? = some (sending 7) ∧ (sending 7).tx.state = .txData ∧ (sending 7).tx.bit = 7 ∧
      (sending 6).tx.bit ≠ 7 ∧ waitDone 5000 ((7 + 1) * 104) 5832 = true ∧
      waitDone 5000 ((7 + 1) * 104) 5831 = false ∧ waitDone 5000 ((6 + 1) * 104) 5728 = true ∧
      ready.tx.state = .txIdle) ∧
    ∀ p, PinSet.has (sending 7).cfg.txPins p = true → PinSet.has s.wrFail p = false :=
  ⟨by decide, forall_members 3 (by decide) (by decide)⟩
theorem witness_TxStepFollowsTheTable_stop :
    let c := { readyHdx with tx := ⟨.txStopWait, 7, 0x41, 5000, 0, 0, true⟩ }
    let d := { readyHdx with tx := ⟨.txGuard, 7, 0x41, 5000, 5936, 0b100, true⟩ }
    let s := { blockOf c with wrFail := 0b100000 }
    let u := { blockOf d with wrFail := 0b100 }
    (s.inst? = some c ∧ c.tx.state = .txStopWait ∧
      waitDone c.tx.start (9 * c.cfg.bitTime.toNat) 5936 = true ∧
      waitDone c.tx.start (9 * c.cfg.bitTime.toNat) 5935 = false) ∧
    (∀ p, PinSet.has c.cfg.txPins p = true → PinSet.has s.wrFail p = false) ∧
    (u.inst? = some d ∧ d.tx.state = .txGuard ∧
      delayDone u.params.timerWidth d.tx.t0 (6 * d.cfg.bitTime.toNat) 6560 = true ∧
      delayDone u.params.timerWidth d.tx.t0 (6 * d.cfg.bitTime.toNat) 6559 = false ∧
      (d.cfg.hdx = true → PinSet.has u.wrFail d.cfg.dirPin = false)) :=
  ⟨by decide, forall_members 3 (by decide) (by decide), by decide⟩
theorem witness_FailedWriteAbortsTheByte :
    let s := { blockOf (sending 2) with wrFail := 0b100 }
    (s.inst? = some (sending 2) ∧ (sending 2).tx.state = .txData ∧
      false = (sending 2).tx.data.getLsbD (sending 2).tx.bit.toNat ∧
      waitDone (sending 2).tx.start
        (((sending 2).tx.bit.toNat + 1) * (sending 2).cfg.bitTime.toNat) 5312 = true ∧
      PinSet.has (sending 2).cfg.txPins 2 = true ∧ PinSet.has s.wrFail 2 = true) ∧
    (∀ q, PinSet.has (sending 2).cfg.txPins q = true → q < 2 → PinSet.has s.wrFail q = false) :=
  ⟨by decide, forall_members 3 (by decide) (by decide)⟩
theorem witness_FailedWriteAbortsTheByte_stop :
    let c := { readyHdx with
      cfg := { readyHdx.cfg with txPins := 0x80000004 }
      tx := ⟨.txStopWait, 7, 0x41, 5000, 0, 0, true⟩ }
    let s := { blockOf c with wrFail := 0x80000000 }
    (s.inst? = some c ∧ c.tx.state = .txStopWait ∧ true = true ∧
      waitDone c.tx.start (9 * c.cfg.bitTime.toNat) 5936 = true ∧
      PinSet.has c.cfg.txPins 31 = true ∧ PinSet.has s.wrFail 31 = true) ∧
    (∀ q, PinSet.has c.cfg.txPins q = true → q < 31 → PinSet.has s.wrFail q = false) :=
  ⟨by decide, forall_members 32 (by decide) (by decide)⟩
/-- The clause for the direction pin. -/
theorem witness_FailedWriteAbortsTheByte_direction :
    let d := { readyHdx with tx := ⟨.txGuard, 7, 0x41, 5000, 5936, 0b100, true⟩ }
    let s := { blockOf d with wrFail := 0b100000 }
    s.inst? = some d ∧ d.tx.state = .txGuard ∧ d.cfg.hdx = true ∧
    PinSet.has s.wrFail d.cfg.dirPin = true ∧
    delayDone s.params.timerWidth d.tx.t0 (6 * d.cfg.bitTime.toNat) 6560 = true := by decide
theorem witness_FailedWriteAbortsPutchar :
    let s := { blockOf readyHdx with wrFail := 0b100000 }
    s.inst? = some readyHdx ∧ readyHdx.cfg.inited = true ∧ readyHdx.cfg.txen = true ∧
    readyHdx.tx.state = .txIdle ∧ readyHdx.cfg.hdx = true ∧
    PinSet.has s.wrFail readyHdx.cfg.dirPin = true := by decide
/-- The clause for the start bit: the direction write succeeds and that of TX pin 2 fails. -/
theorem witness_FailedWriteAbortsPutchar_start :
    let s := { blockOf readyHdx with wrFail := 0b100 }
    (s.inst? = some readyHdx ∧ readyHdx.cfg.inited = true ∧ readyHdx.cfg.txen = true ∧
      readyHdx.tx.state = .txIdle ∧
      (readyHdx.cfg.hdx = true → PinSet.has s.wrFail readyHdx.cfg.dirPin = false) ∧
      PinSet.has readyHdx.cfg.txPins 2 = true ∧ PinSet.has s.wrFail 2 = true) ∧
    (∀ q, PinSet.has readyHdx.cfg.txPins q = true → q < 2 → PinSet.has s.wrFail q = false) :=
  ⟨by decide, forall_members 3 (by decide) (by decide)⟩
theorem witness_TxStepWritesOnlyTheTransmitter :
    (blockOf (sending 0)).inst? = some (sending 0) ∧
    PinSet.has (sending 0).cfg.txPins 3 = false := by decide
theorem witness_TransmitterSendsTheFrame :
    let c := { readyHdx with cfg := { readyHdx.cfg with bitTime := 1 } }
    let s := { blockOf c with now := 4294967280 }
    s.inst? = some c ∧ c.cfg.inited = true ∧ c.cfg.txen = true ∧ c.tx.state = .txIdle ∧
    c.out.txResp = none ∧ 1 ≤ c.cfg.bitTime.toNat ∧
    s.now + 15 * c.cfg.bitTime.toNat < 2 ^ s.params.timerWidth ∧
    (∀ p, PinSet.has c.cfg.txPins p = true → PinSet.has s.wrFail p = false) ∧
    (c.cfg.hdx = true → PinSet.has s.wrFail c.cfg.dirPin = false) ∧
    exec (.putchar 0x41) s = .next (reached (exec (.putchar 0x41) s)) ∧
    15 ≤ 15 * c.cfg.bitTime.toNat :=
  ⟨by decide, by decide, by decide, by decide, by decide, by decide, by decide,
    forall_members 3 (by decide) (by decide), by decide, next_reached (by decide), by decide⟩

/-! ### FRAME, PUTS, READ, READLINE -/

theorem witness_FrameGoesOnTheLine : (blockOf ready).inst? = some ready := by decide
theorem witness_PutsSendsByteAfterByte :
    let c := { ready with cfg := { ready.cfg with txen := false } }
    let d := { ready with putsTask := .waiting [0x42], out := ⟨none, some ⟨.ok, 0⟩, false⟩ }
    ((blockOf ready).inst? = some ready ∧ ready.cfg.inited = true ∧ ready.putsTask = .idle ∧
      ready.cfg.txen = true ∧ ready.tx.state = .txIdle) ∧
    ((blockOf c).inst? = some c ∧ c.cfg.inited = true ∧ c.putsTask = .idle ∧
      c.cfg.txen = false) ∧
    ((blockOf (sending 0)).inst? = some (sending 0) ∧ (sending 0).putsTask = .idle ∧
      (sending 0).tx.state ≠ .txIdle) ∧
    (d.putsTask = .waiting [0x42] ∧ d.out.txResp = some ⟨.ok, 0⟩) ∧
    ((blockOf d).inst? = some d ∧ d.cfg.inited = true ∧ d.putsTask ≠ .idle) ∧
    ready.out.txResp = none := by decide
theorem witness_LoopsAreAlwaysServed :
    let c := { sending 0 with putsTask := .waiting [0x42] }
    let s := comingTick c quiet
    s.LoopsServed ∧ step s = .next (reached (step s)) := by
  refine ⟨?_, next_reached (by decide)⟩
  intro d hd
  rw [List.mem_singleton.mp hd]
  exact ⟨fun _ => by decide, fun _ _ => by decide, nofun⟩
/-- The same for a READ about to issue GETC. -/
theorem witness_LoopsAreAlwaysServed_read :
    let c := { withRing 0 1 [(0, 0x41)] false with readTask := .taking false 8 [] }
    let s := comingTick c quiet
    s.LoopsServed ∧ step s = .next (reached (step s)) := by
  refine ⟨?_, next_reached (by decide)⟩
  intro d hd
  rw [List.mem_singleton.mp hd]
  refine ⟨fun _ => by decide, nofun, ?_⟩
  rintro l n g ⟨⟩; decide
theorem witness_ReadReportsTheOverrunFirst :
    let c := withRing 0 1 [(0, 0x41)] true
    ((blockOf c).inst? = some c ∧ c.cfg.inited = true ∧ c.readTask = .idle ∧
      c.ring.overrun = true) ∧
    ((blockOf ready).inst? = some ready ∧ ready.readTask = .idle ∧ ready.ring.overrun = false) ∧
    ({ ready with readTask := .checking false 8 [] } : Inst).readTask ≠ .idle ∧ 1 ≤ 1 := by decide
theorem witness_ReadDeliversTheQueue :
    let c := { fullInst with readTask := .checking true 1 [] }
    c.ring.Inv ∧ 1 ≤ 1 ∧ c.readTask = .checking true 1 [] := ⟨fullRing_inv, by decide, rfl⟩

/-! ### The whole block -/

/-- A block of two instances, the second on pins 6 and 7. -/
def pair : State :=
  { State.reset with
    claimed := 0b11010100
    insts := [ready, { ready with cfg := { ready.cfg with txPins := 0b1000000, rxPin := 7 } }]
    inputs := [{ quiet with host := some ⟨1, .word 0x2041 0⟩ }] }

theorem pair_inv : pair.Inv where
  timer := by decide
  counter := by decide
  pins := by decide
  insts := by
    intro c hc
    rcases List.mem_cons.mp hc with rfl | hc
    · exact ready_inv
    · rw [List.mem_singleton.mp hc]
      exact ⟨emptyRing_inv, by decide, by decide, by decide, by decide, by decide, by decide, by decide⟩
  claimed := by decide
  disjoint := by decide

theorem witness_StepKeepsTheInvariant : pair.Inv ∧ step pair = .next (reached (step pair)) :=
  ⟨pair_inv, next_reached (by decide)⟩
theorem witness_StepAlwaysGoesOn : pair.Inv ∧ pair.nextInput.namesChannels pair.insts.length := by
  refine ⟨pair_inv, ?_, nofun⟩
  rintro cmd ⟨⟩; decide
theorem witness_OnlyInitConfigures :
    let s := { State.reset with pinCfgOk := true }
    let o := exec (.init cfgA) s
    o = .next (reached o) ∧ s.insts[0]? = some Inst.reset ∧
    ((reached o).insts[0]?).isSome = true ∧
    ((reached o).insts[0]?).map (fun d => d.cfg) ≠ some Inst.reset.cfg :=
  ⟨next_reached (by decide), by decide, by decide, by decide⟩
theorem witness_OtherInstancesAreLeftAlone :
    exec (.putchar 0x41) pair = .next (reached (exec (.putchar 0x41) pair)) ∧ 1 ≠ pair.cur ∧
    pair.insts[1]?.isSome = true := ⟨next_reached (by decide), by decide, by decide⟩
theorem witness_ClaimedOnlyGrows :
    step pair = .next (reached (step pair)) ∧ pair.nextInput.reset = false ∧
    PinSet.has pair.claimed 7 = true := ⟨next_reached (by decide), by decide, by decide⟩
theorem witness_RingFieldsHaveSingleWriters_consumer :
    let s := blockOf { fullInst with ring := { fullInst.ring with overrun := true } }
    exec .pop s = .next (reached (exec .pop s)) ∧
    (reached (exec .pop s)).inst?.map (fun d => d.ring.head) = some 1 ∧
    exec .overrun s = .next (reached (exec .overrun s)) ∧
    (reached (exec .overrun s)).inst?.map (fun d => d.ring.overrun) = some false :=
  ⟨next_reached (by decide), by decide, next_reached (by decide), by decide⟩
theorem witness_RingFieldsHaveSingleWriters_producer :
    let s := blockOf ready
    let f := blockOf fullInst
    exec (.push 0x33) s = .next (reached (exec (.push 0x33) s)) ∧
    (reached (exec (.push 0x33) s)).inst?.map (fun d => d.ring.tail) = some 1 ∧
    exec (.push 0x33) f = .next (reached (exec (.push 0x33) f)) ∧
    (reached (exec (.push 0x33) f)).inst?.map (fun d => d.ring.overrun) = some true :=
  ⟨next_reached (by decide), by decide, next_reached (by decide), by decide⟩

end Sys2Proof.Tests
end

section
/-! PROOFS. What a tick is made of: the host operation it executes, and the engines' part (R14). -/

namespace Sys2Proof.Machine

/-! ## What the far sender's part of a tick leaves alone -/

theorem wirePhase_params {i : TickInput} {s t : State} (h : wirePhase i s = .next t) :
    t.params = s.params := by
  obtain rfl | ⟨k, bits, c, -, -, rfl⟩ := wirePhase_cases h <;> rfl

theorem wirePhase_of_line_none {i : TickInput} (h : i.line = none) (s : State) :
    wirePhase i s = .next s := by simp only [wirePhase, h]

theorem wirePhase_hasCommand_eq_false {i : TickInput} {s t : State} (h : wirePhase i s = .next t)
    (hs : ∀ c ∈ s.insts, c.hasCommand = false) : ∀ c ∈ t.insts, c.hasCommand = false := by
  obtain rfl | ⟨k, bits, c, -, hc, rfl⟩ := wirePhase_cases h
  · exact hs
  · exact Inst.forall_mem_set hs (hs c (List.mem_of_getElem? hc))

/-- Sampling the inputs starts no host loop. -/
theorem latch_hasCommand_eq_false {s : State} (i : TickInput)
    (hs : ∀ c ∈ s.insts, c.hasCommand = false) :
    ∀ c ∈ (s.latch i).insts, c.hasCommand = false := by
  intro c hc
  obtain ⟨d, hd, rfl⟩ := List.mem_map.mp hc
  exact hs d hd

/-! ## The host operation of a tick -/

theorem hostPhase_of_decode_ok {i : TickInput} {s : State} {k : Nat} {req : HostReq} {instr : Instr}
    (hi : i.host = some ⟨k, req⟩) (hd : req.decode s.params.npins = .ok instr) :
    hostPhase i s = exec instr (s.address k) := by
  simp only [hostPhase, applyCommand, hi, hd]

theorem hostPhase_of_decode_error {i : TickInput} {s : State} {k : Nat} {req : HostReq}
    {e : DecodeError} (hi : i.host = some ⟨k, req⟩) (hd : req.decode s.params.npins = .error e) :
    hostPhase i s = (s.address k).update Inst.refuse := by
  simp only [hostPhase, applyCommand, hi, hd]

/-- Two continuations that agree on the state a phase answers go on alike. -/
theorem andThen_congr {o : Answer} {f g : State → Answer} (h : ∀ s, o = .next s → f s = g s) :
    andThen o f = andThen o g := by
  cases o with
  | next s => exact h s rfl
  | fault r => rfl
  | refused r => rfl

/-- A tick whose host operation is `op` on every state that the far sender's part can leave is that
part, `op`, and the rest of the tick. -/
theorem step_of_hostPhase {s : State} (hr : s.nextInput.reset = false) {op : State → Answer}
    (h : ∀ s1, wirePhase s.nextInput (s.latch s.nextInput) = .next s1 →
      hostPhase s.nextInput s1 = op s1) :
    step s = andThen (wirePhase s.nextInput (s.latch s.nextInput)) fun s1 =>
      andThen (op s1) fun t => .next ((s.latch s.nextInput).endTick t) := by
  rw [step_phases hr]
  exact andThen_congr fun s1 h1 => by rw [h s1 h1]

/-- Without a far sender such a tick is `op` on the sampled state, and the rest of the tick. -/
theorem step_of_hostPhase_of_line_none {s : State} (hr : s.nextInput.reset = false)
    {op : State → Answer} (hl : s.nextInput.line = none)
    (h : ∀ s1, wirePhase s.nextInput (s.latch s.nextInput) = .next s1 →
      hostPhase s.nextInput s1 = op s1) :
    step s = andThen (op (s.latch s.nextInput)) fun t =>
      .next ((s.latch s.nextInput).endTick t) := by
  rw [step_of_hostPhase hr h, wirePhase_of_line_none hl, andThen_of_next]

/-! ## The engines' part of a tick -/

/-- An instance after RXSTEP, where it was configured as the tick began (log 9), and TXSTEP, where
it was transmitting (R14 c). -/
def Inst.engineSteps (s : State) (k : Nat) (c before : Inst) : Inst :=
  let c1 := if before.cfg.inited then c.rxStep s.params s.now (c.pinRead s.pins s.ticks) else c
  if before.txBusy then c1.txStep k s.params s.wrFail s.now else c1

/-- After the two steps `rx_prev` takes the level, the PUTS loop settles, and the far sender's frame
is dropped when it is over. -/
theorem Inst.engines_eq (s : State) (k : Nat) (c before : Inst) :
    c.engines s k before =
      let e := c.engineSteps s k before
      let d := Inst.putsSettle { e with rx := { e.rx with prev := c.pinRead s.pins s.ticks } }
      { d with line := d.line.filter fun f =>
          decide (s.ticks + 1 - f.start < 10 * d.cfg.bitTime.toNat) } :=
  Inst.lineExpire_eq _ _

/-- An update of the addressed instance under a condition. -/
theorem State.update_if {s : State} {c : Inst} (hc : s.inst? = some c) (b : Bool)
    (f : Inst → Inst) :
    (if b then s.update f else .next s) = .next (s.setInst (if b then f c else c)) := by
  cases b with
  | false => exact congrArg Host.Outcome.next (State.setInst_self hc).symm
  | true => exact State.update_eq hc f

/-- RXSTEP and TXSTEP as operations on instance `k` leave in it what its part of the tick does. -/
theorem exec_engineSteps {s : State} {k : Nat} {c : Inst} (hc : s.insts[k]? = some c)
    (before : Inst) :
    andThen (if before.cfg.inited
        then exec (.rxStep s.now (c.pinRead s.pins s.ticks)) (s.address k)
        else .next (s.address k))
      (fun u => if before.txBusy then exec (.txStep s.now) u else .next u) =
    .next ((s.address k).setInst (c.engineSteps s k before)) := by
  have hk : (s.address k).inst? = some c := hc
  simp only [exec, execRxStep, execTxStep]
  rw [State.update_if hk, andThen_of_next, State.update_if (State.inst?_setInst hk _),
    State.setInst_setInst]
  rfl

theorem endTick_getElem? {s0 s : State} {k : Nat} {c before : Inst} (hc : s.insts[k]? = some c)
    (hb : s0.insts[k]? = some before) :
    (s0.endTick s).insts[k]? = some (c.engines s k before) := by
  simp [State.endTick, hc, hb]

theorem Inst.pinRead_of_line_none {c : Inst} (h : c.line = none) (pins : PinSet) (tick : Nat) :
    c.pinRead pins tick = PinSet.has pins c.cfg.rxPin := by simp only [Inst.pinRead, h]

theorem Inst.pinRead_of_line_some {c : Inst} {f : LineFrame} (h : c.line = some f) (pins : PinSet)
    (tick : Nat) : c.pinRead pins tick =
      (f.levelAt c.cfg.bitTime.toNat tick).getD (PinSet.has pins c.cfg.rxPin) := by
  simp only [Inst.pinRead, h]

/-! ## The obligations -/

/-- Settles O11: the two operations leave in the instance the steps that its part of the tick takes,
and the rest of that part is the settling of the PUTS loop and of the line. -/
theorem tickTakesRxStepThenTxStep : Obligations.TickTakesRxStepThenTxStep := by
  intro s0 s
  refine ⟨rfl, List.length_mapIdx, fun k c before hc hb => ⟨?_, ?_, ?_⟩⟩
  · refine ⟨_, c.engineSteps s k before, _, exec_engineSteps hc before,
      State.inst?_setInst (s := s.address k) hc _, rfl, ?_⟩
    rw [endTick_getElem? hc hb, Inst.engines_eq]
  · exact fun h => Inst.pinRead_of_line_none h _ _
  · exact fun f h => Inst.pinRead_of_line_some h _ _

/-- Settles O8: the far sender's part keeps the parameters and starts no loop, so the host's part
after it is the operation that the request decodes to, the refusal, or nothing. -/
theorem stepRunsTheDecodedCommand : Obligations.StepRunsTheDecodedCommand := by
  intro s hr
  have hparams : ∀ s1, wirePhase s.nextInput (s.latch s.nextInput) = .next s1 →
      s1.params = s.params := fun _ h1 => wirePhase_params (s := s.latch s.nextInput) h1
  refine ⟨?_, rfl, step_phases hr, fun hl => wirePhase_of_line_none hl _, ?_, ?_, ?_⟩
  · intro i rest hi
    simp only [State.nextInput, hi]
  · intro k req i hi hd
    have hop : ∀ s1, wirePhase s.nextInput (s.latch s.nextInput) = .next s1 →
        hostPhase s.nextInput s1 = exec i (s1.address k) :=
      fun s1 h1 => hostPhase_of_decode_ok hi (by rwa [hparams s1 h1])
    exact ⟨step_of_hostPhase hr hop, fun hl => step_of_hostPhase_of_line_none hr hl hop⟩
  · intro k req e hi hd
    exact step_of_hostPhase hr fun s1 h1 =>
      hostPhase_of_decode_error hi (by rwa [hparams s1 h1])
  · intro hi hq
    have hidle : ∀ c ∈ (s.latch s.nextInput).insts, c.hasCommand = false :=
      latch_hasCommand_eq_false _ fun c hc => Inst.hasCommand_eq_false.mpr (hq c hc)
    have hop : ∀ s1, wirePhase s.nextInput (s.latch s.nextInput) = .next s1 →
        hostPhase s.nextInput s1 = .next s1 :=
      fun _ h1 => hostPhase_quiet hi (wirePhase_hasCommand_eq_false h1 hidle)
    exact ⟨step_of_hostPhase hr hop, fun hl => step_of_hostPhase_of_line_none hr hl hop⟩

end Sys2Proof.Machine
end

section
/-! PROOFS. The state of the block: its invariant, which every tick keeps and under which none stops,
the reset, the waits on the counter, and who writes the configuration and the claimed set. -/

namespace Sys2Proof.Machine

/-! ## Sets of pins -/

theorem PinSet.subset_or (S T : PinSet) : S &&& (S ||| T) = S := by
  rw [PinSet.subset_iff]
  intro q hq
  rw [PinSet.has_or, hq, Bool.true_or]

theorem PinSet.subset_trans {S T U : PinSet} (h : S &&& T = S) (h' : T &&& U = T) :
    S &&& U = S := by
  rw [PinSet.subset_iff] at h h' ⊢
  exact fun q hq => h' q (h q hq)

theorem PinSet.disjoint_mono {S T U : PinSet} (h : S &&& U = 0) (hT : T &&& U = T) :
    S &&& T = 0 := by
  rw [PinSet.disjoint_iff] at h ⊢
  rw [PinSet.subset_iff] at hT
  intro q hS
  cases hq : PinSet.has T q with
  | false => rfl
  | true => exact absurd (hT q hq) (by simp [h q hS])

/-- A symmetric condition on every pair of a list holds after a replacement by an element that meets
it with all the old ones. -/
theorem pairwise_set {α : Type} {R : α → α → Prop} {l : List α} (h : l.Pairwise R)
    (hs : ∀ a b, R a b → R b a) {x : α} (hx : ∀ a ∈ l, R x a) (k : Nat) :
    (l.set k x).Pairwise R := by
  rw [List.pairwise_iff_getElem] at h ⊢
  simp only [List.length_set]
  intro i j hi hj hij
  rw [List.getElem_set, List.getElem_set]
  split
  · rw [if_neg (by omega)]
    exact hx _ (List.getElem_mem hj)
  · split
    · exact hs _ _ (hx _ (List.getElem_mem hi))
    · exact h i j hi hj hij

/-! ## The claimed set (R21, R91) -/

/-- The set that a CLAIM that succeeds leaves (R90). -/
theorem claimPins_eq_ok {claimed T cl : PinSet} {r : Nat} (h : claimPins claimed T r = .ok cl) :
    cl = claimed ||| T ||| PinSet.only r := by
  unfold claimPins at h
  split at h
  · cases h
  · split at h
    · cases h
    · injection h with h; exact h.symm

/-- No operation gives a claimed pin back. -/
theorem exec_claimed_subset {i : Instr} {s t : State} (h : exec i s = .next t) :
    s.claimed &&& t.claimed = s.claimed := by
  rcases exec_claimed h with e | ⟨tx, rx, -, e⟩ | ⟨cfg, c, bt, -, -, -, e, -⟩
  · rw [e, Nat.and_self]
  · rw [claimPins_eq_ok e, Nat.or_assoc]
    exact PinSet.subset_or _ _
  · obtain ⟨-, -, -, e, -, -⟩ := initTests_commits e
    rw [e, Nat.or_assoc]
    exact PinSet.subset_or _ _

theorem wirePhase_claimed {i : TickInput} {s t : State} (h : wirePhase i s = .next t) :
    t.claimed = s.claimed := by
  obtain rfl | ⟨k, bits, c, -, -, rfl⟩ := wirePhase_cases h <;> rfl

theorem hostPhase_claimed_subset {i : TickInput} {s t : State} (h : hostPhase i s = .next t) :
    s.claimed &&& t.claimed = s.claimed := by
  obtain rfl | ⟨cmd, instr, -, -, he⟩ | ⟨k, c, c', -, rfl, -⟩ := hostPhase_cases h
  · exact Nat.and_self _
  · exact exec_claimed_subset (s := s.address cmd.chan) he
  · exact Nat.and_self s.claimed

/-! ## Changes that keep the invariant of the block -/

theorem State.Inv.address {s : State} (h : s.Inv) (k : Nat) : (s.address k).Inv :=
  h.of_cfg rfl h.counter h.insts rfl (Nat.and_self _) h.pins

/-- The addressed instance may be replaced by one of the same configuration that has its own
invariant. -/
theorem State.Inv.setInst {s : State} {c c' : Inst} (h : s.Inv) (hc : s.inst? = some c)
    (hi : c'.Inv s.params.timerWidth) (hcfg : c'.cfg = c.cfg) : (s.setInst c').Inv :=
  h.of_cfg rfl h.counter (Inst.forall_mem_set h.insts hi)
    (Inst.map_set _ _ _ _ _ hc (Inst.owns_congr hcfg)) (Nat.and_self _) h.pins

/-- The addressed instance has its own invariant. -/
theorem State.Inv.inst {s : State} {c : Inst} (h : s.Inv) (hc : s.inst? = some c) :
    c.Inv s.params.timerWidth := h.insts c (List.mem_of_getElem? hc)

theorem State.Inv.latch {s : State} (h : s.Inv) (i : TickInput) : (s.latch i).Inv := by
  refine h.of_cfg rfl h.counter ?_ ?_ (Nat.and_self _) h.pins
  · intro c hc
    obtain ⟨d, hd, rfl⟩ := List.mem_map.mp hc
    have hd := h.insts d hd
    exact hd.congr rfl hd.ring ⟨rfl, rfl⟩ hd.silent hd.stamps
  · exact List.map_map

/-! ## INIT keeps the invariant -/

/-- Everything INIT can answer: a response alone, or the commit with the claimed set its tests
give (R175, R181). -/
theorem execInit_cases {cfg : CfgRecord} {s t : State} (h : exec (.init cfg) s = .next t) :
    ∃ c, s.inst? = some c ∧
      ((∃ st v, t = s.setInst (c.respond st v)) ∨
       (c.cfg.inited = false ∧ ∃ cl bt,
          initTests s.params.npins cfg s.claimed s.pinCfgOk = .commits cl bt ∧
          t = { s.setInst ((c.initCommit s.params cfg bt).respond .ok 0) with claimed := cl })) := by
  obtain ⟨c, hc, h⟩ := State.onInst_cases h
  refine ⟨c, hc, ?_⟩
  split at h
  · injection h with h
    exact .inl ⟨_, _, h.symm⟩
  · rename_i hb
    have hi : c.cfg.inited = false := by
      simp only [Bool.or_eq_true, not_or, Bool.not_eq_true] at hb
      exact hb.1
    split at h
    · injection h with h
      exact .inl ⟨_, _, h.symm⟩
    · rename_i cl bt ht
      injection h with h
      exact .inr ⟨hi, cl, bt, ht, h.symm⟩

/-- After the commit the instance owns the pins that INIT claims (R69, R175). -/
theorem Inst.owns_initCommit (c : Inst) (p : Params) (cfg : CfgRecord) (bt : Nat) :
    (c.initCommit p cfg bt).owns = initTxSet cfg ||| PinSet.only cfg.rxPin := by
  cases hh : cfg.hdx
  · simp [Inst.owns, Inst.initCommit, initRegs, initTxSet, hh]
  · simp [Inst.owns, Inst.initCommit, initRegs, initTxSet, hh, Nat.or_right_comm]

/-- The commit of INIT keeps the invariant of the block: the pins it claims were free, so none of them
belongs to another instance (R92, R175). -/
theorem State.Inv.initCommit {s : State} {c : Inst} (h : s.Inv) (hc : s.inst? = some c)
    (hi : c.cfg.inited = false) {cfg : CfgRecord} {ok : Bool} {cl : PinSet} {bt : Nat}
    (ht : initTests s.params.npins cfg s.claimed ok = .commits cl bt) :
    State.Inv { s.setInst ((c.initCommit s.params cfg bt).respond .ok 0) with claimed := cl } := by
  obtain ⟨-, -, -, hcl, hfree, -⟩ := initTests_commits ht
  have hown : ((c.initCommit s.params cfg bt).respond .ok 0).owns =
      initTxSet cfg ||| PinSet.only cfg.rxPin := c.owns_initCommit s.params cfg bt
  rw [Nat.or_assoc] at hcl
  have hold : s.claimed &&& cl = s.claimed := hcl ▸ PinSet.subset_or _ _
  exact {
    timer := h.timer
    counter := h.counter
    pins := initTests_claimed_lt ht h.pins
    insts := Inst.forall_mem_set h.insts (((h.inst hc).initCommit hi ht).respond _ _)
    claimed := Inst.forall_mem_set (fun d hd => PinSet.subset_trans (h.claimed d hd) hold) (by
      rw [hown, hcl, Nat.or_comm s.claimed]
      exact PinSet.subset_or _ _)
    disjoint := pairwise_set h.disjoint (fun a b hab => by rwa [Nat.and_comm])
      (fun d hd => hown ▸ PinSet.disjoint_mono hfree (h.claimed d hd)) _ }

theorem State.Inv.execInit {s t : State} {cfg : CfgRecord} (h : s.Inv)
    (he : exec (.init cfg) s = .next t) : t.Inv := by
  obtain ⟨c, hc, ⟨st, v, rfl⟩ | ⟨hi, cl, bt, ht, rfl⟩⟩ := execInit_cases he
  · exact h.setInst hc ((h.inst hc).respond st v) rfl
  · exact h.initCommit hc hi ht

/-! ## The other operations of the host -/

theorem exec_params_now {i : Instr} {s t : State} (h : exec i s = .next t) :
    t.params = s.params ∧ t.now = s.now := by
  obtain ⟨ht, -⟩ := exec_cases h
  rw [ht]
  exact ⟨rfl, rfl⟩

/-- A host operation or pseudo-operation other than INIT claims no pin and changes only the instance
it names. -/
theorem exec_cases_of_host {i : Instr} {s t : State}
    (hi : i.opClass = .host ∨ i.opClass = .pseudo)
    (hn : ∀ cfg, i ≠ .init cfg) (h : exec i s = .next t) :
    t.claimed = s.claimed ∧
      ∃ c c', s.inst? = some c ∧ Inst.after i s c = .ok c' ∧ t.insts = s.insts.set s.cur c' := by
  constructor
  · rcases exec_claimed h with e | ⟨tx, rx, rfl, -⟩ | ⟨cfg, c, bt, rfl, -⟩
    · exact e
    · simp [Instr.opClass] at hi
    · exact absurd rfl (hn cfg)
  · obtain ⟨-, ⟨-, ⟨tx, rx, rfl⟩ | ⟨b, rfl⟩⟩ | hset⟩ := exec_cases h
    · simp [Instr.opClass] at hi
    · simp [Instr.opClass] at hi
    · exact hset

/-- Every operation that a request can ask for keeps the invariant of the block. -/
theorem State.Inv.exec {s t : State} {i : Instr} (h : s.Inv)
    (hi : i.opClass = .host ∨ i.opClass = .pseudo) (he : exec i s = .next t) : t.Inv := by
  by_cases hn : ∃ cfg, i = .init cfg
  · obtain ⟨cfg, rfl⟩ := hn
    exact h.execInit he
  · have hn' : ∀ cfg, i ≠ .init cfg := fun cfg e => hn ⟨cfg, e⟩
    obtain ⟨hcl, c, c', hc, ha, hset⟩ := exec_cases_of_host hi hn' he
    obtain ⟨hp, hnow⟩ := exec_params_now he
    have hc' : c'.Inv s.params.timerWidth := (h.inst hc).after h.counter
      (by rintro n (⟨l, rfl⟩ | rfl) <;> simp [Instr.opClass] at hi) ha
    refine h.of_cfg hp (hnow ▸ h.counter) ?_ ?_ (by rw [hcl, Nat.and_self]) (hcl ▸ h.pins)
    · rw [hset]
      exact Inst.forall_mem_set h.insts hc'
    · rw [hset]
      exact Inst.map_set _ _ _ _ _ hc (Inst.owns_congr (Inst.after_cfg ha hn'))

/-! ## The phases of a tick keep the invariant -/

theorem State.Inv.wirePhase {s t : State} {i : TickInput} (h : s.Inv)
    (hw : wirePhase i s = .next t) : t.Inv := by
  obtain rfl | ⟨k, bits, c, -, hc, rfl⟩ := wirePhase_cases hw
  · exact h
  · have hi := (h.address k).inst hc
    exact (h.address k).setInst hc (hi.congr rfl hi.ring ⟨rfl, rfl⟩ hi.silent hi.stamps) rfl

theorem State.Inv.hostPhase {s t : State} {i : TickInput} (h : s.Inv)
    (hp : hostPhase i s = .next t) : t.Inv := by
  obtain rfl | ⟨cmd, instr, -, hd, he⟩ | ⟨k, c, c', hc, rfl, hcase⟩ := hostPhase_cases hp
  · exact h
  · exact (h.address cmd.chan).exec (HostReq.decode_opClass hd) he
  · have hi : c.Inv s.params.timerWidth := (h.address k).inst hc
    rcases hcase with rfl | ⟨b, rest, -, rfl⟩ | hr
    · exact (h.address k).setInst hc (hi.respond _ _) rfl
    · exact (h.address k).setInst hc (hi.putsIssue h.counter _ _ _ _ _) (Inst.putsIssue_cfg ..)
    · exact (h.address k).setInst hc (hi.readAdvance hr) (Inst.readAdvance_cases hr).1

/-- An instance's part of a tick keeps its invariant. -/
theorem Inst.Inv.engines {s : State} {c : Inst} (h : c.Inv s.params.timerWidth)
    (hn : s.now < 2 ^ s.params.timerWidth) (k : Nat) (before : Inst) :
    (c.engines s k before).Inv s.params.timerWidth := by
  have hprev : ∀ (d : Inst) (l : Bool), d.Inv s.params.timerWidth →
      Inst.Inv s.params.timerWidth { d with rx := { d.rx with prev := l } } :=
    fun d l hd => hd.congr rfl hd.ring ⟨rfl, rfl⟩ hd.silent hd.stamps
  refine (hprev _ _ ?_).putsSettle.lineExpire _
  have hrx : (if before.cfg.inited then c.rxStep s.params s.now (c.pinRead s.pins s.ticks)
      else c).Inv s.params.timerWidth := by
    split
    · exact h.rxStep hn _ _
    · exact h
  split
  · exact hrx.txStep hn _ _ _
  · exact hrx

theorem State.Inv.endTick {s : State} (h : s.Inv) (start : State) : (start.endTick s).Inv := by
  refine h.of_cfg rfl (Nat.mod_lt _ (Nat.two_pow_pos _)) ?_ ?_ (Nat.and_self _) h.pins
  · intro d hd
    obtain ⟨k, hk, rfl⟩ := List.mem_mapIdx.mp hd
    exact (h.insts _ (List.getElem_mem hk)).engines h.counter k _
  · refine List.ext_getElem (by simp [State.endTick]) fun k h1 h2 => ?_
    simp only [State.endTick, List.getElem_map, List.getElem_mapIdx]
    exact Inst.owns_congr (Inst.engines_cfg ..)

/-! ## Reset -/

theorem Inst.inv_reset (w : Nat) : Inst.reset.Inv w where
  ring := Ring.inv_reset
  armed := nofun
  disarmed := fun _ => ⟨rfl, rfl⟩
  fresh := fun _ => ⟨rfl, rfl, rfl, rfl⟩
  silent := fun _ => rfl
  timed := nofun
  distinct := nofun
  stamps := ⟨Nat.two_pow_pos w, Nat.two_pow_pos w, Nat.two_pow_pos w, Nat.two_pow_pos w⟩

/-- A block with nothing claimed and every instance at its reset values meets the invariant. -/
theorem State.inv_of_reset {s : State} (hw : 23 ≤ s.params.timerWidth)
    (hn : s.now < 2 ^ s.params.timerWidth) (hcl : s.claimed = 0)
    (hi : ∀ c ∈ s.insts, c = Inst.reset) : s.Inv where
  timer := hw
  counter := hn
  pins := hcl ▸ Nat.two_pow_pos _
  insts := fun c hc => hi c hc ▸ Inst.inv_reset _
  claimed := fun c hc => by rw [hi c hc]; exact Nat.zero_and _
  disjoint := List.pairwise_of_forall_mem_list fun c hc d _ => by rw [hi c hc]; exact Nat.zero_and _

theorem State.Inv.externalReset {s : State} (h : s.Inv) : s.externalReset.Inv :=
  State.inv_of_reset h.timer (Nat.mod_lt _ (Nat.two_pow_pos _)) rfl fun _ hc =>
    (List.mem_map.mp hc).elim fun _ hd => hd.2.symm

theorem mem_reset_insts {c : Inst} (h : c ∈ State.reset.insts) : c = Inst.reset :=
  List.eq_of_mem_replicate h

/-! ## When an operation goes on (R47, R52) -/

theorem State.update_goes_on {s : State} {c : Inst} (hc : s.inst? = some c) (f : Inst → Inst) :
    ∃ t, s.update f = .next t := ⟨_, State.update_eq hc f⟩

theorem State.onInst_eq {s : State} {c : Inst} (hc : s.inst? = some c) (f : Inst → Answer) :
    s.onInst f = f c := by simp only [State.onInst, hc]

theorem State.updateE_eq_ok {s : State} {c c' : Inst} {f : Inst → Except Fault Inst}
    (hc : s.inst? = some c) (hf : f c = .ok c') : s.updateE f = .next (s.setInst c') := by
  rw [State.updateE, State.onInst_eq hc, hf]

theorem State.updateE_eq_error {s : State} {c : Inst} {e : Fault} {f : Inst → Except Fault Inst}
    (hc : s.inst? = some c) (hf : f c = .error e) : s.updateE f = .fault e := by
  rw [State.updateE, State.onInst_eq hc, hf]

/-- Under the ring's invariant POP answers (R101). -/
theorem Ring.Inv.pop_eq_ok {r : Ring} (h : r.Inv) : ∃ q, r.pop = .ok q := by
  rcases h.pop with ⟨-, hp, -⟩ | ⟨-, b, hp, -⟩ <;> exact ⟨_, hp⟩

theorem Inst.getc_eq_ok {c : Inst} (h : c.ring.Inv) : ∃ q, c.getc = .ok q := by
  obtain ⟨q, hq⟩ := h.pop_eq_ok
  exact ⟨_, by simp only [Inst.getc, hq]; rfl⟩

theorem Inst.readAdvance_eq_ok {c : Inst} (h : c.ring.Inv) (p : Params) :
    ∃ c', c.readAdvance p = .ok c' := by
  unfold Inst.readAdvance
  split
  · exact ⟨_, rfl⟩
  · dsimp only
    split <;> exact ⟨_, rfl⟩
  · obtain ⟨⟨c1, b⟩, hg⟩ := Inst.getc_eq_ok h
    simp only [hg]
    split <;> exact ⟨_, rfl⟩

/-- Every operation on an instance the block has goes on, if the ring of that instance meets its
invariant. -/
theorem exec_goes_on {s : State} {c : Inst} (hc : s.inst? = some c) (hr : c.ring.Inv) (i : Instr) :
    ∃ t, exec i s = .next t := by
  cases i with
  | init cfg =>
    simp only [exec, execInit, State.onInst_eq hc]
    split
    · exact ⟨_, rfl⟩
    · split <;> exact ⟨_, rfl⟩
  | putchar b => exact State.update_goes_on hc _
  | getc =>
    cases ha : c.admitsConsumer with
    | false => exact ⟨_, State.updateE_eq_ok hc (by rw [ha]; rfl)⟩
    | true =>
      obtain ⟨q, hq⟩ := Inst.getc_eq_ok hr
      exact ⟨_, State.updateE_eq_ok hc (by rw [ha, hq]; rfl)⟩
  | available => exact State.update_goes_on hc _
  | overrun => exact State.update_goes_on hc _
  | frame b => exact State.update_goes_on hc _
  | puts bs => exact State.update_goes_on hc _
  | read n => exact State.update_goes_on hc _
  | readline n => exact State.update_goes_on hc _
  | claim tx rx =>
    simp only [exec, execClaim]
    split <;> exact ⟨_, rfl⟩
  | compute b =>
    simp only [exec, execCompute]
    split <;> exact ⟨_, rfl⟩
  | push b => exact ⟨_, State.onInst_eq hc _⟩
  | pop =>
    obtain ⟨q, hq⟩ := hr.pop_eq_ok
    simp only [exec, execPop, State.onInst_eq hc, hq]
    exact ⟨_, rfl⟩
  | avail => exact ⟨_, State.onInst_eq hc _⟩
  | takeOverrun => exact ⟨_, State.onInst_eq hc _⟩
  | rxStep now level => exact State.update_goes_on hc _
  | txStep now => exact State.update_goes_on hc _

/-! ## When a tick goes on -/

theorem State.address_inst?_of_lt {s : State} {k : Nat} (hk : k < s.insts.length) :
    ∃ c, (s.address k).inst? = some c := ⟨_, List.getElem?_eq_getElem hk⟩

/-- The operation on an instance the block has goes on under the invariant of the block. -/
theorem State.Inv.exec_goes_on {s : State} (h : s.Inv) {k : Nat} (hk : k < s.insts.length)
    (i : Instr) : ∃ t, Machine.exec i (s.address k) = .next t := by
  obtain ⟨c, hc⟩ := s.address_inst?_of_lt hk
  exact Machine.exec_goes_on hc ((h.address k).inst hc).ring i

theorem State.Inv.wirePhase_goes_on {s : State} {i : TickInput} (h : s.Inv)
    (hi : i.namesChannels s.insts.length) : ∃ t, Machine.wirePhase i s = .next t := by
  unfold Machine.wirePhase
  split
  · exact ⟨_, rfl⟩
  · have hk := hi.2 _ ‹_›
    split
    · exact h.exec_goes_on hk _
    · exact (s.address_inst?_of_lt hk).elim fun _ hc => State.update_goes_on hc _

theorem State.Inv.issueLoopCommand_goes_on {s : State} (h : s.Inv) {k : Nat}
    (hk : k < s.insts.length) : ∃ t, issueLoopCommand k s = .next t := by
  obtain ⟨c, hc⟩ := s.address_inst?_of_lt hk
  obtain ⟨c', hc'⟩ := Inst.readAdvance_eq_ok ((h.address k).inst hc).ring s.params
  cases ht : c.putsTask with
  | ready b rest => exact ⟨_, State.updateE_eq_ok hc (by rw [ht])⟩
  | idle => exact ⟨_, State.updateE_eq_ok hc (by rw [ht]; exact hc')⟩
  | waiting rest => exact ⟨_, State.updateE_eq_ok hc (by rw [ht]; exact hc')⟩

theorem State.Inv.hostPhase_goes_on {s : State} {i : TickInput} (h : s.Inv)
    (hi : i.namesChannels s.insts.length) : ∃ t, Machine.hostPhase i s = .next t := by
  unfold Machine.hostPhase
  split
  · have hk := hi.1 _ ‹_›
    unfold applyCommand
    split
    · exact h.exec_goes_on hk _
    · exact (s.address_inst?_of_lt hk).elim fun _ hc => State.update_goes_on hc _
  · split
    · obtain ⟨hk, -⟩ := List.findIdx?_eq_some_iff_getElem.mp ‹_›
      exact h.issueLoopCommand_goes_on hk
    · exact ⟨_, rfl⟩

theorem wirePhase_length {i : TickInput} {s t : State} (h : wirePhase i s = .next t) :
    t.insts.length = s.insts.length := by
  obtain rfl | ⟨k, bits, c, -, -, rfl⟩ := wirePhase_cases h
  · rfl
  · exact List.length_set

/-! ## A slot that nothing has written (R47, U7) -/

theorem Ring.pop_unwritten {r : Ring} (hne : r.head ≠ r.tail)
    (hr : Memory.read r.slots r.head.toNat = none) : r.pop = .error (.unwrittenSlot r.head) := by
  simp [Ring.pop, Ring.empty, hne, hr]

theorem Inst.getc_unwritten {c : Inst} (hne : c.ring.head ≠ c.ring.tail)
    (hr : Memory.read c.ring.slots c.ring.head.toNat = none) :
    c.getc = .error (.unwrittenSlot c.ring.head) := by
  simp only [Inst.getc, Ring.pop_unwritten hne hr]

/-! ## The waits (R44, R45) -/

theorem waitDone_iff {start target now : Nat} :
    waitDone start target now = true ↔ now < start ∨ target ≤ now - start := by
  simp [waitDone]

/-- From any tick the counter comes to any of its values. -/
theorem exists_counter_eq {w v : Nat} (hv : v < 2 ^ w) (now : Nat) :
    ∃ n, (now + n) % 2 ^ w = v := by
  have hm := Nat.mod_lt now (Nat.two_pow_pos w)
  have hdiv := Nat.div_add_mod now (2 ^ w)
  have hsum : now + (v + (2 ^ w - now % 2 ^ w)) = v + 2 ^ w * (now / 2 ^ w + 1) := by
    rw [Nat.mul_add_one]
    omega
  exact ⟨_, by rw [hsum, Nat.add_mul_mod_self_left, Nat.mod_eq_of_lt hv]⟩

/-! ## The obligations -/

/-- Settles O55: sampling, the far sender, the host and the engines each keep the invariant, and the
external reset establishes it. -/
theorem stepKeepsTheInvariant : Obligations.StepKeepsTheInvariant := by
  intro s t h hs
  obtain ⟨-, rfl⟩ | ⟨-, s1, s2, h1, h2, rfl⟩ := step_cases hs
  · exact h.externalReset
  · exact (((h.latch _).wirePhase h1).hostPhase h2).endTick _

/-- Settles O56: only a reading of an unwritten slot or an unknown instance stops a phase; the
invariant, which the far sender's part keeps, excludes the first. -/
theorem stepAlwaysGoesOn : Obligations.StepAlwaysGoesOn := by
  intro s h hi
  cases hr : s.nextInput.reset with
  | true => exact ⟨s.externalReset, by simp only [step, tick, hr, if_true]⟩
  | false =>
    have hl : (s.latch s.nextInput).insts.length = s.insts.length := List.length_map _
    obtain ⟨s1, h1⟩ := (h.latch _).wirePhase_goes_on (i := s.nextInput) (hl ▸ hi)
    have hl1 : s1.insts.length = s.insts.length := (wirePhase_length h1).trans hl
    obtain ⟨s2, h2⟩ := ((h.latch _).wirePhase h1).hostPhase_goes_on (i := s.nextInput) (hl1 ▸ hi)
    rw [step_phases hr, h1, andThen_of_next, h2, andThen_of_next]
    exact ⟨_, rfl⟩

/-- Settles O34: the counter comes to 0, which is below any other start, and to any target below
`2^W`. -/
theorem guardedWaitEnds : Obligations.GuardedWaitEnds := by
  intro w start now target
  have hpos := Nat.two_pow_pos w
  refine ⟨?_, ?_, fun h => waitDone_iff.mpr (.inl h), ?_, ?_⟩
  · rw [waitDone_iff]
    omega
  · intro hfit
    have hmod : ∀ n ≤ target, (start + n) % 2 ^ w = start + n :=
      fun n hn => Nat.mod_eq_of_lt (by omega)
    refine ⟨?_, fun n hn => ?_⟩
    · rw [hmod target le_rfl, waitDone_add]
      exact decide_eq_true le_rfl
    · rw [hmod n hn.le, waitDone_add]
      exact decide_eq_false (by omega)
  · intro hs hcase
    by_cases h0 : 0 < start
    · obtain ⟨n, hn⟩ := exists_counter_eq hpos now
      exact ⟨n, waitDone_iff.mpr (.inl (by omega))⟩
    · obtain ⟨n, hn⟩ := exists_counter_eq (hcase.resolve_left h0) now
      exact ⟨n, waitDone_iff.mpr (.inr (by omega))⟩
  · intro ht n
    have hn : n % 2 ^ w < 2 ^ w := Nat.mod_lt _ hpos
    rw [← Bool.not_eq_true, waitDone_iff]
    omega

/-- Settles O35: six bit periods of at most 1000000 counts are fewer than `2^23`. -/
theorem plainDelayLastsItsDuration : Obligations.PlainDelayLastsItsDuration := by
  refine ⟨fun w t0 d n hn => by rw [delayDone_add_mod hn, decide_eq_true_iff], ?_⟩
  intro w t0 bitTime hw hb
  have hpow : 2 ^ 23 ≤ 2 ^ w := Nat.pow_le_pow_right (by decide) hw
  have hlt : 6 * bitTime < 2 ^ w := by omega
  exact ⟨6 * bitTime, hlt, by rw [delayDone_add_mod hlt, decide_eq_true_iff]⟩

/-- Settles O57: only the addressed instance changes, every operation but INIT keeps its
configuration, and INIT changes it by its commit alone. -/
theorem onlyInitConfigures : Obligations.OnlyInitConfigures := by
  intro i s t k c d he hc hd hne
  obtain ⟨-, ⟨hsame, -⟩ | ⟨b, b', hb, ha, hset⟩⟩ := exec_cases he
  · rw [hsame, hc] at hd
    injection hd with hd
    exact absurd (congrArg Inst.cfg hd.symm) hne
  · by_cases hk : k = s.cur
    · subst hk
      obtain rfl : b = c := Option.some.inj (hb.symm.trans hc)
      obtain rfl : b' = d := by
        have hlt := (List.getElem?_eq_some_iff.mp hc).1
        simpa [hset, hlt] using hd
      by_cases hi : ∃ cfg, i = .init cfg
      · obtain ⟨cfg, rfl⟩ := hi
        obtain ⟨st, v, rfl⟩ | ⟨hin, cl, bt, -, rfl⟩ := Inst.after_init ha
        · exact absurd rfl hne
        · exact ⟨⟨cfg, rfl⟩, rfl, hin, rfl⟩
      · exact absurd (Inst.after_cfg ha fun cfg e => hi ⟨cfg, e⟩) hne
    · rw [hset, List.getElem?_set_ne (Ne.symm hk), hc] at hd
      injection hd with hd
      exact absurd (congrArg Inst.cfg hd.symm) hne

/-- Settles O59: the host's part of a tick lets the set grow, and the other parts keep it. -/
theorem claimedOnlyGrows : Obligations.ClaimedOnlyGrows := by
  intro s t hs hr
  obtain ⟨hr', -⟩ | ⟨-, s1, s2, h1, h2, rfl⟩ := step_cases hs
  · simp [hr] at hr'
  · have hsub := hostPhase_claimed_subset h2
    rw [wirePhase_claimed h1] at hsub
    exact PinSet.subset_iff.mp hsub

/-- Settles O12: the values of R46 and R11, read off the one instance after reset. -/
theorem resetValuesOfTheSpec : Obligations.ResetValuesOfTheSpec := by
  refine ⟨rfl, rfl, rfl, fun c hc => ?_⟩
  rw [mem_reset_insts hc]
  exact ⟨rfl, rfl, rfl, rfl, rfl, rfl, rfl, rfl, fun _ => rfl, rfl, rfl, rfl, rfl⟩

/-- Settles O13: every instance is at its reset values, and no host loop runs. -/
theorem resetHoldsTheInvariant : Obligations.ResetHoldsTheInvariant := by
  refine ⟨State.inv_of_reset (by decide) (by decide) rfl fun c => mem_reset_insts, fun c hc => ?_⟩
  rw [mem_reset_insts hc]
  exact ⟨by decide, nofun, nofun⟩

/-- Settles O26: all three take the byte by POP, which faults. -/
theorem unwrittenSlotFaults : Obligations.UnwrittenSlotFaults := by
  intro s c hc hne hr
  have hp := Ring.pop_unwritten hne hr
  have hg := Inst.getc_unwritten hne hr
  refine ⟨?_, fun hin hidle => ?_, fun p line maxLen got ht => ?_⟩
  · simp only [exec, execPop, State.onInst_eq hc, hp]
  · refine State.updateE_eq_error hc ?_
    rw [Inst.admitsConsumer_iff.mpr ⟨hin, hidle⟩, hg]
    rfl
  · simp only [Inst.readAdvance, ht, hg]

end Sys2Proof.Machine
end

section
/-! PROOFS. The ring buffer and the bounds of what an operation writes (20_memory.md): the ring is a
bounded queue, each of its fields has a single writer, and no other instance is touched. -/

namespace Sys2Proof.Machine

/-! ## The ring as a bounded queue (R57, R100, R104) -/

/-- A queue with room takes the byte at its end and keeps the flag (R100). -/
theorem Ring.Inv.push_of_length_lt {r : Ring} (hr : r.Inv) (h : r.contents.length < 63) (b : Byte) :
    (r.push b).2 = true ∧ (r.push b).1.contents = r.contents ++ [b] ∧
      (r.push b).1.overrun = r.overrun := by
  have hf : r.full = false := by
    rw [← Bool.not_eq_true, hr.full_iff_length]
    exact h.ne
  rw [Ring.contents_push, Ring.push_notFull hf, hf]
  exact ⟨rfl, rfl, rfl⟩

/-- A full queue drops the byte and sets the flag (R100). -/
theorem Ring.Inv.push_of_length_eq {r : Ring} (hr : r.Inv) (h : r.contents.length = 63) (b : Byte) :
    (r.push b).2 = false ∧ (r.push b).1.contents = r.contents ∧ (r.push b).1.overrun = true := by
  have hf : r.full = true := hr.full_iff_length.mpr h
  rw [Ring.contents_push, Ring.push_full hf, hf]
  exact ⟨rfl, rfl, rfl⟩

/-! ## What a ring operation leaves alone (R59) -/

@[simp] theorem Ring.push_head (r : Ring) (b : Byte) : (r.push b).1.head = r.head := by
  cases h : r.full with
  | true => rw [Ring.push_full h]
  | false => rw [Ring.push_notFull h]

/-- PUSH never clears the flag (R100). -/
theorem Ring.push_overrun_of_set {r : Ring} (hr : r.overrun = true) (b : Byte) :
    (r.push b).1.overrun = true := by
  cases h : r.full with
  | true => rw [Ring.push_full h]
  | false => rw [Ring.push_notFull h]; exact hr

/-- POP writes no field but `head` (R101). -/
theorem Ring.pop_keeps {r r' : Ring} {o : Option Byte} (h : r.pop = .ok (r', o)) :
    r'.tail = r.tail ∧ r'.slots = r.slots ∧ r'.overrun = r.overrun := by
  obtain ⟨-, rfl, -⟩ | ⟨-, b, -, rfl, -⟩ := Ring.pop_cases h <;> exact ⟨rfl, rfl, rfl⟩

/-! ## The operation of the ring that an operation of the block applies (R59, R62) -/

/-- How operation `i` takes a ring to the next: it leaves it, or it is a consumer that applies POP, a
producer that applies PUSH, or a consumer that applies TAKE_OVERRUN. -/
inductive RingChange (i : Instr) (r : Ring) : Ring → Prop where
  | kept : RingChange i r r
  | popped {r' : Ring} {o : Option Byte} (hi : i = .pop ∨ i = .getc)
      (hp : r.pop = .ok (r', o)) : RingChange i r r'
  | pushed (b : Byte) (hi : (∃ b, i = .push b) ∨ ∃ now level, i = .rxStep now level) :
      RingChange i r (r.push b).1
  | overrunTaken
      (hi : i = .takeOverrun ∨ i = .overrun ∨ (∃ n, i = .read n) ∨ ∃ n, i = .readline n) :
      RingChange i r r.takeOverrun.1

namespace RingChange
variable {i : Instr} {r r' : Ring}

theorem of_eq (h : r' = r) : RingChange i r r' := h ▸ kept

theorem head_writer (h : RingChange i r r') (hne : r'.head ≠ r.head) : i = .pop ∨ i = .getc := by
  cases h with
  | kept => exact absurd rfl hne
  | popped hi hp => exact hi
  | pushed b hi => exact absurd (Ring.push_head r b) hne
  | overrunTaken hi => exact absurd rfl hne

theorem tail_slots_writer (h : RingChange i r r') (hne : r'.tail ≠ r.tail ∨ r'.slots ≠ r.slots) :
    (∃ b, i = .push b) ∨ ∃ now level, i = .rxStep now level := by
  cases h with
  | kept => exact absurd rfl (hne.resolve_left fun h => h rfl)
  | popped hi hp =>
    obtain ⟨htail, hslots, -⟩ := Ring.pop_keeps hp
    exact absurd hslots (hne.resolve_left fun h => h htail)
  | pushed b hi => exact hi
  | overrunTaken hi => exact absurd rfl (hne.resolve_left fun h => h rfl)

theorem overrun_setter (h : RingChange i r r') (hr : r.overrun = false) (hr' : r'.overrun = true) :
    (∃ b, i = .push b) ∨ ∃ now level, i = .rxStep now level := by
  cases h with
  | kept => simp [hr] at hr'
  | popped hi hp =>
    obtain ⟨-, -, hov⟩ := Ring.pop_keeps hp
    simp [hov, hr] at hr'
  | pushed b hi => exact hi
  | overrunTaken hi => exact absurd hr' Bool.false_ne_true

theorem overrun_clearer (h : RingChange i r r') (hr : r.overrun = true)
    (hr' : r'.overrun = false) :
    i = .takeOverrun ∨ i = .overrun ∨ (∃ n, i = .read n) ∨ ∃ n, i = .readline n := by
  cases h with
  | kept => simp [hr] at hr'
  | popped hi hp =>
    obtain ⟨-, -, hov⟩ := Ring.pop_keeps hp
    simp [hov, hr] at hr'
  | pushed b hi => simp [Ring.push_overrun_of_set hr b] at hr'
  | overrunTaken hi => exact hi

end RingChange

/-- RXSTEP leaves the ring, or pushes the byte it assembled, on the eighth sample (R120). -/
theorem Inst.rxStep_ring_cases (p : Params) (now : Nat) (level : Bool) (c : Inst) :
    (c.rxStep p now level).ring = c.ring ∨
      ∃ b, (c.rxStep p now level).ring = (c.ring.push b).1 := by
  unfold Inst.rxStep
  split
  · unfold Inst.rxIdle Inst.takeRxEdge
    split
    · dsimp only
      split <;> exact .inl rfl
    · exact .inl rfl
  · unfold Inst.rxStartHalf
    split <;> exact .inl rfl
  · unfold Inst.rxSample
    split
    · dsimp only
      split
      · exact .inr ⟨_, rfl⟩
      · exact .inl rfl
    · exact .inl rfl
  · unfold Inst.rxStop
    split
    · dsimp only
      split <;> exact .inl rfl
    · exact .inl rfl

/-- Everything an operation does to the ring of the instance it names. -/
theorem Inst.after_ring {i : Instr} {s : State} {c c' : Inst} (h : Inst.after i s c = .ok c') :
    RingChange i c.ring c'.ring := by
  cases i with
  | init cfg =>
    obtain ⟨st, v, rfl⟩ | ⟨-, cl, bt, -, rfl⟩ := Inst.after_init h <;> exact .kept
  | getc =>
    simp only [Inst.after] at h
    split at h
    · cases hg : c.getc with
      | error e => rw [hg] at h; cases h
      | ok q =>
        obtain ⟨d, b⟩ := q
        obtain ⟨r, o, hp, -, rfl⟩ := Inst.getc_cases hg
        rw [hg] at h
        cases h
        exact .popped (.inr rfl) hp
    · cases h
      exact .kept
  | pop =>
    simp only [Inst.after] at h
    cases hp : c.ring.pop with
    | error e => rw [hp] at h; cases h
    | ok q =>
      rw [hp] at h
      cases h
      exact .popped (.inl rfl) hp
  | push b => cases h; exact .pushed b (.inl ⟨b, rfl⟩)
  | rxStep now level =>
    cases h
    rcases c.rxStep_ring_cases s.params now level with hr | ⟨b, hr⟩
    · exact .of_eq hr
    · exact hr ▸ .pushed b (.inr ⟨now, level, rfl⟩)
  | takeOverrun => cases h; exact .overrunTaken (.inl rfl)
  | overrun =>
    cases h
    split
    · exact .overrunTaken (.inr (.inl rfl))
    · exact .kept
  | read n =>
    cases h
    rcases c.readBegin_ring false n with hr | hr
    · exact .of_eq hr
    · exact hr ▸ .overrunTaken (.inr (.inr (.inl ⟨n, rfl⟩)))
  | readline n =>
    cases h
    rcases c.readBegin_ring true n with hr | hr
    · exact .of_eq hr
    · exact hr ▸ .overrunTaken (.inr (.inr (.inr ⟨n, rfl⟩)))
  | available => cases h; split <;> exact .kept
  | putchar b => cases h; exact .of_eq (Inst.putchar_ring ..)
  | puts bs => cases h; exact .of_eq (Inst.putsBegin_ring ..)
  | txStep now => cases h; exact .of_eq (Inst.txStep_ring ..)
  | frame _ | claim _ _ | compute _ | avail => cases h; exact .kept

/-! ## The instance an operation names, and everything else (R68, R205) -/

theorem exec_cur {i : Instr} {s t : State} (h : exec i s = .next t) : t.cur = s.cur := by
  obtain ⟨ht, -⟩ := exec_cases h
  rw [ht]

/-- An operation replaces at most the instance it names. -/
theorem exec_other_insts {i : Instr} {s t : State} (h : exec i s = .next t) :
    t.insts.length = s.insts.length ∧ ∀ k, k ≠ s.cur → t.insts[k]? = s.insts[k]? := by
  obtain ⟨-, ⟨hsame, -⟩ | ⟨c, c', -, -, hset⟩⟩ := exec_cases h
  · rw [hsame]
    exact ⟨rfl, fun _ _ => rfl⟩
  · rw [hset]
    exact ⟨List.length_set, fun k hk => List.getElem?_set_ne hk.symm⟩

/-- The instance an operation names is afterwards what `Inst.after` makes of it. -/
theorem exec_inst?_after {i : Instr} {s t : State} {c d : Inst} (h : exec i s = .next t)
    (hc : s.inst? = some c) (hd : t.inst? = some d) : Inst.after i s c = .ok d := by
  rw [State.inst?, exec_cur h] at hd
  obtain ⟨-, ⟨hsame, hi⟩ | ⟨b, b', hb, ha, hset⟩⟩ := exec_cases h
  · obtain rfl : c = d := by
      rw [hsame] at hd
      exact Option.some.inj (hc.symm.trans hd)
    obtain ⟨tx, rx, rfl⟩ | ⟨baud, rfl⟩ := hi <;> rfl
  · obtain rfl : b = c := Option.some.inj (hb.symm.trans hc)
    obtain rfl : b' = d := by
      rw [hset, List.getElem?_set_self (List.getElem?_eq_some_iff.mp hc).1] at hd
      exact Option.some.inj hd
    exact ha

/-! ## The obligations -/

/-- Settles O29: the count is below `N`, PUSH splits on whether the queue holds 63 bytes, and POP on
whether it is empty. -/
theorem ringIsABoundedQueue : Obligations.RingIsABoundedQueue := by
  intro r hr
  have hle : r.contents.length ≤ 63 := hr.length_contents ▸ Nat.le_of_lt_succ r.avail_lt
  refine ⟨hr.length_contents, hle, fun b => ⟨hr.push b, fun h => hr.push_of_length_lt h b,
    fun h => hr.push_of_length_eq h b⟩, hr.pop_nil, fun b rest h => ?_, rfl, hr.takeOverrun⟩
  obtain ⟨hp, hrest, hinv⟩ := hr.pop_cons h
  exact ⟨_, hp, hrest, rfl, hinv⟩

/-- Settles O58: an operation replaces the instance it names, the claimed set and the result of a
component operation, and nothing else. -/
theorem otherInstancesAreLeftAlone : Obligations.OtherInstancesAreLeftAlone := by
  intro i s t h
  obtain ⟨hlen, hother⟩ := exec_other_insts h
  obtain ⟨ht, -⟩ := exec_cases h
  refine ⟨hlen, hother, ?_⟩
  rw [ht]
  exact ⟨rfl, rfl, rfl, rfl, rfl, rfl, rfl, rfl⟩

/-- Settles O60: each operation leaves the ring or applies the one ring operation of its side, which
writes only that side's fields. -/
theorem ringFieldsHaveSingleWriters : Obligations.RingFieldsHaveSingleWriters := by
  intro i s t c d he hc hd
  have hring := Inst.after_ring (exec_inst?_after he hc hd)
  exact ⟨hring.head_writer, hring.tail_slots_writer, hring.overrun_setter, hring.overrun_clearer⟩

end Sys2Proof.Machine
end

section
/-! PROOFS. The encoding (30_encoding.md): the fields of `CFG`, of a command word and of a response
word, the positions of a frame, and that decoder and encoder are inverse to each other. -/

namespace Sys2Proof

/-! ## Fields cut from a number, and packed in one (R82) -/

/-- Fields of the widths given, cut from a number from bit 0 up. -/
def cutFields : List Nat → Nat → List (Nat × Nat)
  | [], _ => []
  | n :: ns, w => (n, w % 2 ^ n) :: cutFields ns (w / 2 ^ n)

theorem packFields_cutFields (ns : List Nat) (w : Nat) :
    packFields (cutFields ns w) = w % 2 ^ ns.sum := by
  induction ns generalizing w with
  | nil => simp [cutFields, packFields, Nat.mod_one]
  | cons n ns ih => rw [cutFields, packFields_cons_mod n ns.sum w _ (ih _), List.sum_cons]

theorem cutFields_packFields {fs : List (Nat × Nat)} (h : ∀ f ∈ fs, f.2 < 2 ^ f.1) :
    cutFields (fs.map Prod.fst) (packFields fs) = fs := by
  induction fs with
  | nil => rfl
  | cons f fs ih =>
    obtain ⟨hf, hfs⟩ := List.forall_mem_cons.mp h
    rw [List.map_cons, cutFields, packFields_mod hf, packFields_div hf, ih hfs]

/-! ## The configuration record (R82) -/

/-- The fields of `CFG`, each with its width, in the order in which `encodeCfg` packs them. -/
def cfgFields (npins : Nat) (c : CfgRecord) : List (Nat × Nat) :=
  [(32, c.baud.toNat), (npins, c.txPins), (pinIdBits npins, c.rxPin),
    (pinIdBits npins, c.dirPin), (1, c.rxen.toNat), (1, c.txen.toNat), (1, c.hdx.toNat),
    (1, c.notify.toNat), (2, c.zero.toNat)]

/-- The widths of the fields of `CFG`. -/
def cfgWidths (npins : Nat) : List Nat :=
  [32, npins, pinIdBits npins, pinIdBits npins, 1, 1, 1, 1, 2]

theorem encodeCfg_eq (npins : Nat) (c : CfgRecord) :
    encodeCfg npins c = packFields (cfgFields npins c) := rfl

theorem cfgFields_map_fst (npins : Nat) (c : CfgRecord) :
    (cfgFields npins c).map Prod.fst = cfgWidths npins := rfl

theorem cfgWidths_sum (npins : Nat) : (cfgWidths npins).sum = cfgBits npins := by
  simp only [cfgWidths, cfgBits, List.sum_cons, List.sum_nil]
  omega

/-- The decoder cuts the fields of `CFG` one above the other. -/
theorem cfgFields_decodeCfg (npins : Nat) (w : CfgWord) :
    cfgFields npins (decodeCfg npins w) = cutFields (cfgWidths npins) w := by
  simp [cfgFields, decodeCfg, cfgWidths, cutFields, cfgField, Nat.toNat_testBit,
    Nat.div_div_eq_div_mul, Nat.pow_add, Nat.two_mul, Nat.mul_assoc]

theorem boolToNat_injective : Function.Injective Bool.toNat := by decide

/-- A record is determined by its fields. -/
theorem cfgFields_injective (npins : Nat) : Function.Injective (cfgFields npins) := by
  intro c d h
  obtain ⟨⟩ := c
  obtain ⟨⟩ := d
  simpa [cfgFields, BitVec.toNat_inj, boolToNat_injective.eq_iff] using h

theorem CfgRecord.fits_iff {npins : Nat} {c : CfgRecord} : c.fits npins = true ↔
    c.txPins < 2 ^ npins ∧ c.rxPin < 2 ^ pinIdBits npins ∧ c.dirPin < 2 ^ pinIdBits npins := by
  simp [CfgRecord.fits, and_assoc]

/-- Every field of a record that fits has a value that its width admits. -/
theorem CfgRecord.field_lt {npins : Nat} {c : CfgRecord} (h : c.fits npins = true) :
    ∀ f ∈ cfgFields npins c, f.2 < 2 ^ f.1 := by
  obtain ⟨htx, hrx, hdir⟩ := CfgRecord.fits_iff.mp h
  simp only [cfgFields, List.forall_mem_cons]
  exact ⟨c.baud.isLt, htx, hrx, hdir, c.rxen.toNat_lt, c.txen.toNat_lt, c.hdx.toNat_lt,
    c.notify.toNat_lt, c.zero.isLt, nofun⟩

theorem decodeCfg_encodeCfg {npins : Nat} {c : CfgRecord} (h : c.fits npins = true) :
    decodeCfg npins (encodeCfg npins c) = c := by
  apply cfgFields_injective npins
  rw [cfgFields_decodeCfg, encodeCfg_eq, ← cfgFields_map_fst npins c,
    cutFields_packFields (CfgRecord.field_lt h)]

theorem encodeCfg_decodeCfg (npins : Nat) (w : CfgWord) :
    encodeCfg npins (decodeCfg npins w) = w % 2 ^ cfgBits npins := by
  rw [encodeCfg_eq, cfgFields_decodeCfg, packFields_cutFields, cfgWidths_sum]

theorem decodeCfg_fits (npins : Nat) (w : CfgWord) : (decodeCfg npins w).fits npins = true := by
  have hlt : ∀ lo n, cfgField w lo n < 2 ^ n := fun lo n => Nat.mod_lt _ (Nat.two_pow_pos n)
  exact CfgRecord.fits_iff.mpr ⟨hlt _ _, hlt _ _, hlt _ _⟩

/-! ## The fields of a command word (R79) -/

theorem fields_append (w : CommandWord) : opField w ++ zeroField w ++ dataField w = w := by
  apply BitVec.eq_of_getLsbD_eq
  intro i hi
  simp only [opField, zeroField, dataField, BitVec.getLsbD_append, BitVec.getLsbD_extractLsb']
  interval_cases i <;> simp

/-- Two command words are equal when their fields are. -/
theorem eq_iff_fields (v w : CommandWord) : v = w ↔
    opField v = opField w ∧ zeroField v = zeroField w ∧ dataField v = dataField w := by
  rw [← fields_inj, fields_append, fields_append]

theorem opField_and (v w : CommandWord) : opField (v &&& w) = opField v &&& opField w :=
  BitVec.extractLsb'_and ..

theorem zeroField_and (v w : CommandWord) : zeroField (v &&& w) = zeroField v &&& zeroField w :=
  BitVec.extractLsb'_and ..

theorem dataField_and (v w : CommandWord) : dataField (v &&& w) = dataField v &&& dataField w :=
  BitVec.extractLsb'_and ..

/-! ## The rows of the table (R80) -/

/-- A row tests the three fields of a word. -/
theorem OpRow.selects_iff (r : OpRow) (w : CommandWord) : r.selects w = true ↔
    opField w &&& opField r.mask = opField r.pattern ∧
    zeroField w &&& zeroField r.mask = zeroField r.pattern ∧
    dataField w &&& dataField r.mask = dataField r.pattern := by
  rw [OpRow.selects, beq_iff_eq, eq_iff_fields, opField_and, zeroField_and, dataField_and]

/-- Every row tests the whole of `OP`, and no two rows for the same value of it. -/
theorem opRows_opField :
    (∀ r ∈ opRows, opField r.mask = BitVec.allOnes 4) ∧
    ∀ r ∈ opRows, ∀ r' ∈ opRows, opField r.pattern = opField r'.pattern → r = r' := by decide

theorem opField_of_selects {r : OpRow} {w : CommandWord} (hr : r ∈ opRows)
    (h : r.selects w = true) : opField w = opField r.pattern := by
  obtain ⟨hop, -⟩ := (r.selects_iff w).mp h
  rwa [opRows_opField.1 r hr, BitVec.and_allOnes] at hop

/-- The rows are disjoint. -/
theorem opRow_unique {r r' : OpRow} {w : CommandWord} (hr : r ∈ opRows) (hr' : r' ∈ opRows)
    (h : r.selects w = true) (h' : r'.selects w = true) : r = r' :=
  opRows_opField.2 r hr r' hr' ((opField_of_selects hr h).symm.trans (opField_of_selects hr' h'))

theorem selects_of_find? {w : CommandWord} {r : OpRow} (h : opRows.find? (·.selects w) = some r) :
    r ∈ opRows ∧ r.selects w = true :=
  ⟨List.mem_of_find?_eq_some h, List.find?_some (p := fun r => OpRow.selects r w) h⟩

/-- A word that selects a row decodes by it. -/
theorem decode_of_selects {r : OpRow} {w : CommandWord} (hr : r ∈ opRows)
    (h : r.selects w = true) (npins : Nat) (cfg : CfgWord) :
    decode npins w cfg = .ok (r.op.build npins w cfg) := by
  cases hf : opRows.find? (·.selects w) with
  | none => exact absurd h (List.find?_eq_none.mp hf r hr)
  | some r' =>
    obtain ⟨hr', h'⟩ := selects_of_find? hf
    obtain rfl := opRow_unique hr hr' h h'
    rw [decode, hf]

/-- A word decodes exactly by the row it selects. -/
theorem decode_eq_ok_iff {npins : Nat} {w : CommandWord} {cfg : CfgWord} {i : Instr} :
    decode npins w cfg = .ok i ↔
      ∃ r ∈ opRows, r.selects w = true ∧ i = r.op.build npins w cfg := by
  constructor
  · intro h
    cases hf : opRows.find? (·.selects w) with
    | none => rw [decode, hf] at h; cases h
    | some r =>
      rw [decode, hf] at h
      cases h
      obtain ⟨hr, hs⟩ := selects_of_find? hf
      exact ⟨r, hr, hs, rfl⟩
  · rintro ⟨r, hr, h, rfl⟩
    exact decode_of_selects hr h npins cfg

/-- A word is rejected exactly when it selects no row. -/
theorem decode_eq_error_iff {npins : Nat} {w : CommandWord} {cfg : CfgWord} :
    (∃ e, decode npins w cfg = .error e) ↔ ¬ ∃ r ∈ opRows, r.selects w = true := by
  constructor
  · rintro ⟨e, he⟩ ⟨r, hr, h⟩
    rw [decode_of_selects hr h] at he
    cases he
  · intro h
    have hf : opRows.find? (·.selects w) = none :=
      List.find?_eq_none.mpr fun r hr hs => h ⟨r, hr, hs⟩
    exact ⟨reservedBecause w, by rw [decode, hf]⟩

/-! ## The command word of PUTCHAR (R140) -/

theorem putcharWord_eq (b : Byte) : putcharWord b = (0x2 : BitVec 4) ++ (0 : BitVec 4) ++ b := by
  apply BitVec.eq_of_getLsbD_eq
  intro i hi
  simp only [putcharWord, BitVec.getLsbD_append, BitVec.getLsbD_or, BitVec.getLsbD_setWidth]
  interval_cases i <;> simp

theorem opField_putcharWord (b : Byte) : opField (putcharWord b) = 0x2 := by
  rw [putcharWord_eq]; exact extract_opField ..

theorem zeroField_putcharWord (b : Byte) : zeroField (putcharWord b) = 0 := by
  rw [putcharWord_eq]; exact extract_zeroField ..

theorem dataField_putcharWord (b : Byte) : dataField (putcharWord b) = b := by
  rw [putcharWord_eq]; exact extract_dataField ..

/-- The command words of PUTCHAR. -/
theorem eq_putcharWord_iff (w : CommandWord) :
    w = putcharWord (dataField w) ↔ opField w = 2 ∧ zeroField w = 0 := by
  rw [eq_iff_fields, opField_putcharWord, zeroField_putcharWord, dataField_putcharWord]
  simp only [and_true]

/-- The words of PUTCHAR's row are the command words of PUTCHAR. -/
theorem putcharRow_selects_iff (w : CommandWord) :
    (⟨.putchar, 0x2000, 0xFF00⟩ : OpRow).selects w = true ↔ w = putcharWord (dataField w) := by
  have hmask : opField 0xFF00 = BitVec.allOnes 4 ∧ zeroField 0xFF00 = BitVec.allOnes 4 ∧
      dataField 0xFF00 = 0 := by decide
  have hpattern : opField 0x2000 = 0x2 ∧ zeroField 0x2000 = 0 ∧ dataField 0x2000 = 0 := by decide
  have hdata : dataField w &&& 0 = 0 := BitVec.and_zero
  rw [OpRow.selects_iff, eq_putcharWord_iff]
  simp only [hmask, hpattern, hdata, BitVec.and_allOnes, and_true]

/-- A row that tests every bit is selected by its one word. -/
theorem fullRow_selects_iff (op : HostOp) (p w : CommandWord) :
    (⟨op, p, 0xFFFF⟩ : OpRow).selects w = true ↔ w = p := by
  rw [OpRow.selects, and_fullMask, beq_iff_eq]

/-- Decoding, row by row. -/
theorem decode_eq_ok_iff_row {npins : Nat} {w : CommandWord} {cfg : CfgWord} {i : Instr} :
    decode npins w cfg = .ok i ↔
      (w = 0x1000 ∧ i = .init (decodeCfg npins cfg)) ∨
      (w = putcharWord (dataField w) ∧ i = .putchar (dataField w)) ∨
      (w = 0x3000 ∧ i = .getc) ∨ (w = 0x4000 ∧ i = .available) ∨ (w = 0x5000 ∧ i = .overrun) := by
  rw [decode_eq_ok_iff]
  simp only [opRows, List.exists_mem_cons_iff, List.not_mem_nil, false_and, exists_false, or_false,
    fullRow_selects_iff, putcharRow_selects_iff, HostOp.build]

/-! ## The reserved words (R81) -/

/-- A word without operand: its two lower fields are 0. -/
theorem eq_opWord_iff (w : CommandWord) (op : BitVec 4) :
    w = op ++ (0 : BitVec 4) ++ (0 : Byte) ↔
      opField w = op ∧ zeroField w = 0 ∧ dataField w = 0 := by
  rw [← fields_inj, fields_append]

/-- The fields of a word that selects a row: `OP` is a code of the table, the zero field is 0, and
so is `DATA` but for PUTCHAR. -/
theorem selects_some_row_iff (w : CommandWord) : (∃ r ∈ opRows, r.selects w = true) ↔
    zeroField w = 0 ∧ (opField w = 2 ∨
      (opField w = 1 ∨ opField w = 3 ∨ opField w = 4 ∨ opField w = 5) ∧ dataField w = 0) := by
  simp only [opRows, List.exists_mem_cons_iff, List.not_mem_nil, false_and, exists_false, or_false,
    fullRow_selects_iff, putcharRow_selects_iff]
  refine (or_congr (eq_opWord_iff w 1) <| or_congr (eq_putcharWord_iff w) <|
    or_congr (eq_opWord_iff w 3) <| or_congr (eq_opWord_iff w 4) (eq_opWord_iff w 5)).trans ?_
  tauto

theorem opCode_reserved_iff (op : BitVec 4) :
    (op = 0x0 ∨ 0x6 ≤ op) ↔ ¬ (op = 2 ∨ op = 1 ∨ op = 3 ∨ op = 4 ∨ op = 5) := by
  revert op
  decide

/-- The words the decoder rejects are those that R81 lists. -/
theorem decode_eq_error_iff_reserved {npins : Nat} {w : CommandWord} {cfg : CfgWord} :
    (∃ e, decode npins w cfg = .error e) ↔
      opField w = 0x0 ∨ 0x6 ≤ opField w ∨ zeroField w ≠ 0 ∨
        ((opField w = 0x1 ∨ opField w = 0x3 ∨ opField w = 0x4 ∨ opField w = 0x5) ∧
          dataField w ≠ 0) := by
  rw [decode_eq_error_iff, selects_some_row_iff, ← or_assoc (a := opField w = 0x0),
    opCode_reserved_iff]
  have hputchar : opField w = 2 →
      ¬ (opField w = 1 ∨ opField w = 3 ∨ opField w = 4 ∨ opField w = 5) := by
    intro h
    rw [h]
    decide
  tauto

/-! ## The ten positions of a frame (R70) -/

theorem startBit_encodeFrame (b : Byte) : (encodeFrame b).getLsbD 9 = Config.START_LEVEL :=
  Machine.framePosition_encodeFrame b 0

theorem stopBit_encodeFrame (b : Byte) : (encodeFrame b).getLsbD 0 = Config.STOP_LEVEL :=
  Machine.framePosition_encodeFrame b 9

theorem dataBits_encodeFrame (b : Byte) : (encodeFrame b).extractLsb' 1 8 = b.reverse := by
  apply BitVec.eq_of_getLsbD_eq
  intro i hi
  simp only [encodeFrame, BitVec.getLsbD_append, BitVec.getLsbD_extractLsb']
  interval_cases i <;> simp

/-- Ten positions with a start bit and a stop bit are the frame of the byte between them. -/
theorem encodeFrame_dataBits {bits : FrameBits} (hstart : bits.getLsbD 9 = Config.START_LEVEL)
    (hstop : bits.getLsbD 0 = Config.STOP_LEVEL) :
    encodeFrame (bits.extractLsb' 1 8).reverse = bits := by
  rw [encodeFrame, BitVec.reverse_reverse_eq, ← hstart, ← hstop]
  apply BitVec.eq_of_getLsbD_eq
  intro i hi
  simp only [bitOf, BitVec.getLsbD_append, BitVec.getLsbD_extractLsb']
  interval_cases i <;> simp

/-- Ten positions decode exactly when they are the frame of a byte. -/
theorem decodeFrame_eq_ok_iff {bits : FrameBits} {i : Instr} :
    decodeFrame bits = .ok i ↔ ∃ b, bits = encodeFrame b ∧ i = .frame b := by
  unfold decodeFrame
  constructor
  · intro h
    split at h
    next hbits =>
      cases h
      exact ⟨_, (encodeFrame_dataBits hbits.1 hbits.2).symm, rfl⟩
    next => cases h
  · rintro ⟨b, rfl, rfl⟩
    rw [if_pos ⟨startBit_encodeFrame b, stopBit_encodeFrame b⟩, dataBits_encodeFrame,
      BitVec.reverse_reverse_eq]

/-! ## The obligations on the decoder and the encoder -/

/-- Settles O2: INIT's record is cut into the fields it was packed from, PUTCHAR's word selects its
row with its byte as `DATA`, the other command words are the patterns of their rows, and a frame has
its start and stop bit around the byte. -/
theorem decodeInvertsEncode : Obligations.DecodeInvertsEncode := by
  intro npins i w hfits henc
  cases i with
  | init cfg =>
    cases henc
    exact decode_eq_ok_iff_row.mpr (.inl ⟨rfl, by rw [decodeCfg_encodeCfg hfits]⟩)
  | putchar b =>
    cases henc
    exact decode_eq_ok_iff_row.mpr (.inr (.inl (by simp only [dataField_putcharWord, and_self])))
  | getc => cases henc; exact decode_eq_ok_iff_row.mpr (.inr (.inr (.inl ⟨rfl, rfl⟩)))
  | available =>
    cases henc; exact decode_eq_ok_iff_row.mpr (.inr (.inr (.inr (.inl ⟨rfl, rfl⟩))))
  | overrun =>
    cases henc; exact decode_eq_ok_iff_row.mpr (.inr (.inr (.inr (.inr ⟨rfl, rfl⟩))))
  | frame b => cases henc; exact decodeFrame_eq_ok_iff.mpr ⟨b, rfl, rfl⟩
  | puts _ | read _ | readline _ | claim _ _ | compute _ | push _ | pop | avail | takeOverrun
  | rxStep _ _ | txStep _ => cases henc

/-- Settles O3: the row a word selects fixes the word, up to the byte of PUTCHAR, which is `DATA`;
INIT's record packs the fields cut from the `cfg` port. -/
theorem encodeInvertsDecode : Obligations.EncodeInvertsDecode := by
  constructor
  · intro npins cw cfg i h
    rcases decode_eq_ok_iff_row.mp h with
      ⟨rfl, rfl⟩ | ⟨hw, rfl⟩ | ⟨rfl, rfl⟩ | ⟨rfl, rfl⟩ | ⟨rfl, rfl⟩
    · exact ⟨decodeCfg_fits npins cfg, by rw [encode, encodeCfg_decodeCfg, if_pos rfl]⟩
    · have hne : cw ≠ 0x1000 := fun h1 => by
        have hop := opField_putcharWord (dataField cw)
        rw [← hw, h1] at hop
        exact absurd hop (by decide)
      exact ⟨rfl, by rw [encode, ← hw, if_neg hne]⟩
    · exact ⟨rfl, rfl⟩
    · exact ⟨rfl, rfl⟩
    · exact ⟨rfl, rfl⟩
  · intro npins bits i h
    obtain ⟨b, rfl, rfl⟩ := decodeFrame_eq_ok_iff.mp h
    rfl

/-- Settles O4: the decoder answers by the row it finds, which is the only one the word selects. -/
theorem eachWordSelectsItsRow : Obligations.EachWordSelectsItsRow := by
  refine ⟨fun npins w cfg i => ?_, fun w r r' hr hr' h h' => opRow_unique hr hr' h h'⟩
  rw [decode_eq_ok_iff]
  simp only [opRows, List.exists_mem_cons_iff, List.not_mem_nil, false_and, exists_false, or_false,
    OpRow.selects, beq_iff_eq, HostOp.build, dataField]

/-- Settles O1, by evaluating the decoder on each word. -/
theorem decodeReadsTheWrittenOutWords : Obligations.DecodeReadsTheWrittenOutWords := by
  unfold Obligations.DecodeReadsTheWrittenOutWords
  decide

end Sys2Proof

namespace Sys2Proof.Machine

/-! ## A reserved word is refused (R81) -/

theorem applyCommand_of_decode_error {cmd : HostCmd} {s : State} {c : Inst} {e : DecodeError}
    (hc : s.insts[cmd.chan]? = some c) (he : cmd.req.decode s.params.npins = .error e) :
    applyCommand cmd s = .next ((s.address cmd.chan).setInst c.refuse) := by
  simp only [applyCommand, he]
  exact State.update_eq (s := s.address cmd.chan) hc _

/-- Settles O5: a word is rejected when it selects no row, which is a condition on its three fields,
and the host's part then only answers Refused. -/
theorem reservedWordsAreRefused : Obligations.ReservedWordsAreRefused := by
  refine fun npins cw cfg => ⟨decode_eq_error_iff_reserved, fun s k c hc he => ?_⟩
  obtain ⟨e, he⟩ := he
  exact ⟨applyCommand_of_decode_error hc he, by decide⟩

/-! ## The response word (R79, R88, R186) -/

theorem Response.word_status (r : Response) : r.word.extractLsb' 12 4 = r.status.code :=
  extract_opField ..

theorem Response.word_zeros (r : Response) : r.word.extractLsb' 8 4 = 0 :=
  extract_zeroField ..

theorem Response.word_value (r : Response) : r.word.extractLsb' 0 8 = r.value :=
  extract_dataField ..

theorem countValue_toNat {n : Nat} (h : n < 256) : (countValue n).toNat = n := by
  rw [countValue, if_pos h, BitVec.toNat_ofNat, Nat.mod_eq_of_lt h]

/-- Settles O7: a response word is its three fields, and the result of READ and READLINE is a
response word. -/
theorem responseWordFields : Obligations.ResponseWordFields := by
  refine ⟨fun r => ⟨r.word_status, r.word_zeros, r.word_value⟩,
    rfl, rfl, rfl, rfl, rfl, rfl, rfl, rfl, fun n out => ⟨Response.word_status _, fun hn => ?_⟩,
    Response.word_status _, Response.word_zeros _⟩
  rw [ReadResult.word, Response.word_value, countValue_toNat hn]

/-! ## The frame on the line (R70) -/

/-- The level of the line `n` ticks after a far sender began: position `n / bitTime` while the ten
positions last. -/
theorem LineFrame.levelAt_add (bits : FrameBits) (bitTime start n : Nat) :
    LineFrame.levelAt ⟨bits, start⟩ bitTime (start + n) =
      if n < 10 * bitTime then some (framePosition bits (n / bitTime)) else none := by
  simp only [LineFrame.levelAt, Nat.add_sub_cancel_left, Config.FRAME_BITS]

/-- Settles O6: the positions are those of `framePosition_encodeFrame`, each lasts the ticks whose
number divided by the bit period is its own, and ten positions decode when they are a frame. -/
theorem frameIsTenPositions : Obligations.FrameIsTenPositions := by
  refine ⟨fun b => ⟨?_, fun i hi => ?_, ?_, fun k hk => ?_⟩,
    fun bits bitTime start n => ⟨fun k hk hlo hhi => ?_, fun hn => ?_⟩, fun bits => ?_⟩
  · rw [framePosition_encodeFrame, if_pos (by omega)]
  · rw [framePosition_encodeFrame, if_neg (by omega), if_pos (by omega), Nat.add_sub_cancel]
  · rw [framePosition_encodeFrame, if_neg (by omega), if_neg (by omega)]
  · rw [framePosition_encodeFrame, if_neg (by omega), if_neg (by omega)]
  · have hlt : n < 10 * bitTime :=
      hhi.trans_le (Nat.mul_le_mul_right _ (Nat.succ_le_of_lt hk))
    rw [LineFrame.levelAt_add, if_pos hlt, Nat.div_eq_of_lt_le hlo hhi]
  · rw [LineFrame.levelAt_add, if_neg (Nat.not_lt.mpr hn)]
  · simp only [decodeFrame_eq_ok_iff]
    exact ⟨fun ⟨_, b, hb, _⟩ => ⟨b, hb⟩, fun ⟨b, hb⟩ => ⟨_, b, hb, rfl⟩⟩

/-- Settles O50: FRAME writes the line of the instance it names, and the receiver's level is that of
the line, or the pin's where the line has none. -/
theorem frameGoesOnTheLine : Obligations.FrameGoesOnTheLine := by
  intro s c b hc d
  refine ⟨State.update_eq hc _, fun pins j => ?_⟩
  rw [Inst.pinRead_of_line_some (c := d) rfl, LineFrame.levelAt_add]
  split <;> rfl

/-! ## A far sender's part of a tick (log 11, log 25) -/

theorem wirePhase_of_decodeFrame_ok {i : TickInput} {k : Nat} {bits : FrameBits} {instr : Instr}
    (hl : i.line = some (k, bits)) (hd : decodeFrame bits = .ok instr) (s : State) :
    wirePhase i s = exec instr (s.address k) := by simp only [wirePhase, hl, hd]

theorem wirePhase_of_decodeFrame_error {i : TickInput} {k : Nat} {bits : FrameBits}
    {e : DecodeError} (hl : i.line = some (k, bits)) (hd : decodeFrame bits = .error e)
    (s : State) : wirePhase i s = (s.address k).update (Inst.sendPositions bits s.ticks) := by
  simp only [wirePhase, hl, hd]

/-- Settles O9: the far sender's part is FRAME, or the bare positions, and it starts no loop, so that
a host with nothing to do stays so. -/
theorem stepRunsTheFrameOnTheWire : Obligations.StepRunsTheFrameOnTheWire := by
  intro s k bits hr hl
  refine ⟨fun i hd => ⟨?_, fun hi hq => ?_⟩, fun e hd => ?_⟩
  · rw [step_phases hr, wirePhase_of_decodeFrame_ok hl hd]
  · have hidle : ∀ c ∈ (s.latch s.nextInput).insts, c.hasCommand = false :=
      latch_hasCommand_eq_false _ fun c hc => Inst.hasCommand_eq_false.mpr (hq c hc)
    rw [step_of_hostPhase hr fun s1 h1 =>
        hostPhase_quiet hi (wirePhase_hasCommand_eq_false h1 hidle),
      wirePhase_of_decodeFrame_ok hl hd]
    rfl
  · rw [step_phases hr, wirePhase_of_decodeFrame_error hl hd]
    rfl

end Sys2Proof.Machine
end

section
/-! PROOFS. A running PUTS, READ or READLINE loop issues host operations (R87, R153, R165, R166). -/

namespace Sys2Proof.Machine

/-! ## Updates of the addressed instance, one after the other -/

/-- Two fallible updates that agree on the addressed instance are the same. -/
theorem State.updateE_congr {s : State} {c : Inst} {f g : Inst → Except Fault Inst}
    (hc : s.inst? = some c) (h : f c = g c) : s.updateE f = s.updateE g := by
  rw [State.updateE, State.updateE, State.onInst_eq hc, State.onInst_eq hc, h]

theorem State.updateE_of_none {s : State} (hc : s.inst? = none) (f : Inst → Except Fault Inst) :
    s.updateE f = .fault (.noSuchChannel s.cur) := by
  simp only [State.updateE, State.onInst, hc]

theorem andThen_updateE_update (s : State) (f : Inst → Except Fault Inst) (g : Inst → Inst) :
    (andThen (s.updateE f) fun t => t.update g) = s.updateE fun c => (f c).map g := by
  cases hc : s.inst? with
  | none => rw [State.updateE_of_none hc, State.updateE_of_none hc]; rfl
  | some c =>
    cases hf : f c with
    | error e =>
      rw [State.updateE_eq_error hc hf, State.updateE_eq_error (e := e) hc (by rw [hf]; rfl)]
      rfl
    | ok d =>
      rw [State.updateE_eq_ok hc hf, andThen_of_next, State.update_eq (State.inst?_setInst hc d),
        State.setInst_setInst, State.updateE_eq_ok (c' := g d) hc (by rw [hf]; rfl)]

theorem andThen_update_updateE {s : State} {c : Inst} (hc : s.inst? = some c) (f : Inst → Inst)
    (g : Inst → Except Fault Inst) :
    (andThen (s.update f) fun t => t.updateE g) = s.updateE fun d => g (f d) := by
  rw [State.update_eq hc, andThen_of_next]
  have hd := State.inst?_setInst hc (f c)
  cases hg : g (f c) with
  | error e => rw [State.updateE_eq_error hd hg, State.updateE_eq_error hc hg]
  | ok d => rw [State.updateE_eq_ok hd hg, State.updateE_eq_ok hc hg, State.setInst_setInst]

/-! ## The host operations a loop issues -/

theorem exec_putchar (b : Byte) (s : State) : exec (.putchar b) s =
    s.updateE fun c => .ok (c.putchar s.cur s.params s.wrFail s.now b) := rfl

theorem exec_available (s : State) : exec .available s =
    s.updateE fun c => .ok (if c.cfg.inited then c.available.1 else c.refuse) := rfl

theorem exec_getc (s : State) : exec .getc s =
    s.updateE fun c => if c.admitsConsumer then c.getc.map Prod.fst else .ok c.refuse := rfl

/-- GETC answers with the byte it takes (R105). -/
theorem Inst.getc_resp {c c' : Inst} {b : Byte} (h : c.getc = .ok (c', b)) :
    c'.out.resp = some ⟨.ok, b⟩ := by
  obtain ⟨r, o, -, -, rfl⟩ := Inst.getc_cases h
  rfl

/-- GETC does not look at the reading loop (R105). -/
theorem Inst.getc_with_readTask (c : Inst) (r : ReadTask) : ({ c with readTask := r } : Inst).getc =
    c.getc.map fun q => ({ q.1 with readTask := r }, q.2) := by
  unfold Inst.getc
  cases c.ring.pop <;> rfl

/-! ## The command that a loop issues (log 12) -/

/-- With no request of the host's the lowest instance with a command issues it. -/
theorem hostPhase_of_first_command {i : TickInput} {s : State} {k : Nat} {c : Inst}
    (hi : i.host = none) (hc : s.insts[k]? = some c) (hcmd : c.hasCommand = true)
    (hq : ∀ j d, j < k → s.insts[j]? = some d → d.hasCommand = false) :
    hostPhase i s = issueLoopCommand k s := by
  obtain ⟨hk, rfl⟩ := List.getElem?_eq_some_iff.mp hc
  have hf : s.insts.findIdx? Inst.hasCommand = some k := by
    refine List.findIdx?_eq_some_iff_getElem.mpr ⟨hk, hcmd, fun j hj => ?_⟩
    rw [hq j _ hj (List.getElem?_eq_getElem (hj.trans hk))]
    exact Bool.false_ne_true
  simp only [hostPhase, hi, hf]

theorem Inst.hasCommand_of_ready {c : Inst} {b : Byte} {rest : List Byte}
    (h : c.putsTask = .ready b rest) : c.hasCommand = true := by
  rw [← Bool.not_eq_false, Inst.hasCommand_eq_false]
  exact fun hq => hq.2 b rest h

theorem Inst.hasCommand_of_reading {c : Inst} (h : c.readTask ≠ .idle) : c.hasCommand = true := by
  rw [← Bool.not_eq_false, Inst.hasCommand_eq_false]
  exact fun hq => h hq.1

/-- A PUTS loop with a byte to issue comes first: its command is PUTCHAR, with the change `g` that
`putsIssue` makes to the loop's own fields after it (R153). -/
theorem issueLoopCommand_of_ready {s : State} {k : Nat} {c : Inst} {b : Byte} {rest : List Byte}
    {g : Inst → Inst} (hc : s.insts[k]? = some c) (h : c.putsTask = .ready b rest)
    (hg : c.putsIssue k s.params s.wrFail s.now b rest =
      g (c.putchar k s.params s.wrFail s.now b)) :
    issueLoopCommand k s = andThen (exec (.putchar b) (s.address k)) fun t => t.update g := by
  rw [exec_putchar, andThen_updateE_update]
  exact State.updateE_congr (s := s.address k) hc (by rw [h]; exact congrArg Except.ok hg)

/-- Without one the command is that of the reading loop. -/
theorem issueLoopCommand_of_not_ready {s : State} {k : Nat} {c : Inst}
    (hc : s.insts[k]? = some c) (h : ∀ b rest, c.putsTask ≠ .ready b rest) :
    issueLoopCommand k s = (s.address k).updateE (Inst.readAdvance s.params) := by
  refine State.updateE_congr (s := s.address k) hc ?_
  cases hp : c.putsTask with
  | ready b rest => exact absurd hp (h b rest)
  | idle => rfl
  | waiting rest => rfl

/-- A loop that issues AVAILABLE goes on to GETC, or ends (R165, log 27). -/
theorem Inst.readAdvance_of_checking {c : Inst} {line : Bool} {maxLen : Nat} {got : List Byte}
    (h : c.readTask = .checking line maxLen got) (p : Params) : c.readAdvance p =
      .ok (if 0 < c.ring.avail ∧ got.length < maxLen - 1
        then { c.available.1 with readTask := .taking line maxLen got }
        else c.available.1.readFinish p got) := by
  simp only [Inst.readAdvance, h, Inst.available, gt_iff_lt]
  split <;> rfl

/-- A loop that issues GETC collects its byte, or ends at READLINE's terminator (R166). -/
theorem Inst.readAdvance_of_taking {c : Inst} {line : Bool} {maxLen : Nat} {got : List Byte}
    (h : c.readTask = .taking line maxLen got) (p : Params) : c.readAdvance p =
      c.getc.map fun q => if line = true ∧ q.2 = p.lineTerm then q.1.readFinish p got
        else { q.1 with readTask := .checking line maxLen (got ++ [q.2]) } := by
  simp only [Inst.readAdvance, h]
  cases c.getc with
  | error e => rfl
  | ok q =>
    simp only [Bool.and_eq_true, beq_iff_eq, Except.map]
    split <;> rfl

/-! ## The obligation -/

/-- Settles O10: each loop's command is a change of one instance, and so is the host operation with
the change of the loop's own fields after it; the two agree on that instance. -/
theorem loopsIssueHostOperations : Obligations.LoopsIssueHostOperations := by
  intro s i k c hi hc hinit hq
  have hk : (s.address k).inst? = some c := hc
  have hissue : c.hasCommand = true → hostPhase i s = issueLoopCommand k s := fun hcmd =>
    hostPhase_of_first_command hi hc hcmd fun j d hj hd =>
      Inst.hasCommand_eq_false.mpr (hq j d hj hd)
  refine ⟨fun b rest hp ha => ?_, fun b rest hp ha => ?_, fun line maxLen got hp hr => ?_,
    fun line maxLen got hp hr => ?_⟩
  · rw [hissue (Inst.hasCommand_of_ready hp)]
    exact issueLoopCommand_of_ready hc hp (by rw [Inst.putsIssue, if_pos ha])
  · rw [hissue (Inst.hasCommand_of_ready hp)]
    exact issueLoopCommand_of_ready hc hp (by rw [Inst.putsIssue, if_neg (Bool.eq_false_iff.mp ha)])
  · rw [hissue (Inst.hasCommand_of_reading (by simp [hr])), issueLoopCommand_of_not_ready hc hp,
      exec_available, andThen_updateE_update]
    refine State.updateE_congr hk ?_
    rw [Inst.readAdvance_of_checking hr, hinit]
    rfl
  · rw [hissue (Inst.hasCommand_of_reading (by simp [hr])), issueLoopCommand_of_not_ready hc hp]
    simp only [exec_getc, andThen_updateE_update]
    rw [andThen_update_updateE hk]
    refine State.updateE_congr hk ?_
    have hadm : ({ c with readTask := .idle } : Inst).admitsConsumer = true :=
      Inst.admitsConsumer_iff.mpr ⟨hinit, rfl⟩
    rw [Inst.readAdvance_of_taking hr, if_pos hadm, Inst.getc_with_readTask c .idle]
    cases hg : c.getc with
    | error e => rfl
    | ok q =>
      obtain ⟨d, b⟩ := q
      simp only [Except.map, Inst.getc_resp hg]
      split <;> rfl

end Sys2Proof.Machine
end

section
/-! PROOFS. CLAIM as an operation of the block (R90). -/

namespace Sys2Proof.Machine

/-! ## The three outcomes of CLAIM -/

/-- The overlap is tested before anything is looked up in the claimed set. -/
theorem claimPins_overlap {T : PinSet} {r : Nat} (h : PinSet.has T r = true) (claimed : PinSet) :
    claimPins claimed T r = .overlap := if_pos h

theorem exec_claim_of_overlap {s : State} {T : PinSet} {r : Nat}
    (h : claimPins s.claimed T r = .overlap) :
    exec (.claim T r) s = .next { s with result := .pinConflictOverlap } := by
  simp only [exec, execClaim, h]

theorem exec_claim_of_alreadyClaimed {s : State} {T : PinSet} {r : Nat}
    (h : claimPins s.claimed T r = .alreadyClaimed) :
    exec (.claim T r) s = .next { s with result := .pinConflictClaimed } := by
  simp only [exec, execClaim, h]

theorem exec_claim_of_ok {s : State} {T claimed : PinSet} {r : Nat}
    (h : claimPins s.claimed T r = .ok claimed) :
    exec (.claim T r) s = .next { s with claimed := claimed, result := .claimed } := by
  simp only [exec, execClaim, h]

/-- The set a successful CLAIM leaves, pin by pin. -/
theorem has_claimed_union (claimed T : PinSet) (r p : Nat) :
    PinSet.has (claimed ||| T ||| PinSet.only r) p =
      (PinSet.has claimed p || PinSet.has T p || p == r) := by
  simp only [PinSet.has_or, PinSet.has_only, Bool.beq_eq_decide_eq]

/-- Settles O23: the tests of CLAIM decide its outcome in their order, and the set of the successful
outcome is the union. -/
theorem claimIsAllOrNothing : Obligations.ClaimIsAllOrNothing := by
  intro s tx rx
  refine ⟨fun hover => ?_, fun hdistinct htaken => ?_, fun hdistinct hfree => ?_⟩
  · exact exec_claim_of_overlap (claimPins_overlap hover s.claimed)
  · exact exec_claim_of_alreadyClaimed (claimPins_taken hdistinct htaken)
  · exact ⟨_, exec_claim_of_ok (claimPins_ok hdistinct hfree), has_claimed_union s.claimed tx rx⟩

end Sys2Proof.Machine
end

section
/-! PROOFS. COMPUTE, the bit period of a baud rate (41_bit_timing.md). -/

namespace Sys2Proof.Machine

/-! ## The two outcomes of COMPUTE (R95) -/

theorem computeBitTime_of_nonpos {baud : Int} (h : baud ≤ 0) : computeBitTime baud = none :=
  if_pos h

/-- The formula, with the constants of the spec. -/
theorem computeBitTime_of_pos {baud : Int} (h : 0 < baud) : computeBitTime baud =
    some (if 100000000 / baud.toNat - 100 * (1000000 / baud.toNat) > 50
      then 1000000 / baud.toNat + 1 else 1000000 / baud.toNat) := by
  rw [computeBitTime, if_neg h.not_ge]
  exact (apply_ite some _ _ _).symm

theorem exec_compute_of_none {s : State} {baud : BitVec 32}
    (h : computeBitTime baud.toInt = none) :
    exec (.compute baud) s = .next { s with result := .invalidBaud } := by
  simp only [exec, execCompute, h]

theorem exec_compute_of_some {s : State} {baud : BitVec 32} {t : Nat}
    (h : computeBitTime baud.toInt = some t) :
    exec (.compute baud) s = .next { s with result := .bitTime (BitVec.ofNat 20 t) } := by
  simp only [exec, execCompute, h]

/-- A positive word is the same number read signed and unsigned. -/
theorem toNat_toInt_of_pos {w : Nat} {x : BitVec w} (h : 0 < x.toInt) :
    x.toInt.toNat = x.toNat := by
  have hcond := BitVec.toInt_eq_toNat_cond x
  have hlt : x.toNat < 2 ^ w := x.isLt
  split at hcond <;> omega

/-! ## Rounding (R96) -/

theorem remainderTerm_le {d : Nat} (hd : 0 < d) : 100 * (1000000 % d) / d ≤ 99 := by
  have hr : 1000000 % d < d := Nat.mod_lt _ hd
  exact Nat.le_of_lt_succ ((Nat.div_lt_iff_lt_mul hd).mpr (by omega))

/-- The test of COMPUTE on the remainder term is the one on the fraction `(1000000 % d) / d`. -/
theorem computeBitTime_eq_rounded {d : Nat} (hd : 0 < d) : computeBitTime d =
    some (if 51 * d ≤ 100 * (1000000 % d) then 1000000 / d + 1 else 1000000 / d) := by
  have htest : 100 * (1000000 % d) / d > 50 ↔ 51 * d ≤ 100 * (1000000 % d) :=
    Nat.le_div_iff_mul_le hd
  rw [computeBitTime_of_pos (by exact_mod_cast hd), Int.toNat_natCast, remainderTerm_eq d hd]
  simp only [htest]

/-! ## Range (R97) -/

/-- The bit period is at most `n` exactly when `1000000 / d`, as a fraction, is below `n + 0.51`:
this gives every interval of baud rates with one result. -/
theorem computeBitTime_le_iff {d t : Nat} (hd : 0 < d) (h : computeBitTime d = some t) (n : Nat) :
    t ≤ n ↔ 100000000 < (100 * n + 51) * d := by
  rw [computeBitTime_eq_rounded hd, Option.some.injEq] at h
  have hdiv : 1000000 / d * d + 1000000 % d = 1000000 := Nat.div_add_mod' _ _
  have hr : 1000000 % d < d := Nat.mod_lt _ hd
  have hexp : (100 * n + 51) * d = 100 * (n * d) + 51 * d := by ring
  have hstep {a b : Nat} (hab : a < b) : a * d + d ≤ b * d :=
    (Nat.succ_mul a d).symm.trans_le (Nat.mul_le_mul_right d hab)
  rw [hexp]
  rcases lt_trichotomy n (1000000 / d) with hn | rfl | hn
  · have hbelow := hstep hn
    split at h <;> omega
  · split at h <;> omega
  · have habove := hstep hn
    split at h <;> omega

/-! ## The obligations -/

/-- Settles O21: the remainder term is computed on the remainder of the division, and its test is
then a comparison of that remainder with 51 hundredths of the divisor. -/
theorem computeRoundsUpFromFiftyOneHundredths :
    Obligations.ComputeRoundsUpFromFiftyOneHundredths :=
  ⟨fun d hd => ⟨remainderTerm_eq d hd, remainderTerm_le hd, computeBitTime_eq_rounded hd⟩,
    by decide⟩

/-- Settles O22: each bound and each interval is `computeBitTime_le_iff` at one bit period; a result
is 1 when it is at most 1 and not at most 0. -/
theorem computeRange : Obligations.ComputeRange := by
  refine ⟨fun baud hpos _ => ?_, by decide⟩
  obtain ⟨d, rfl⟩ := Int.eq_ofNat_of_zero_le (Int.le_of_lt hpos)
  have hd : 0 < d := by omega
  obtain ⟨t, ht⟩ : ∃ t, computeBitTime d = some t := ⟨_, computeBitTime_eq_rounded hd⟩
  have hzero := computeBitTime_le_iff hd ht 0
  have hone := computeBitTime_le_iff hd ht 1
  have hmax := computeBitTime_le_iff hd ht 1000000
  exact ⟨t, ht, by omega, by omega, by omega, by omega⟩

/-- Settles O20: COMPUTE executed alone answers `computeBitTime` of the signed operand, which the
formula divides by as an unsigned word. -/
theorem computeFollowsTheFormula : Obligations.ComputeFollowsTheFormula := by
  refine ⟨fun s baud => ⟨fun h => exec_compute_of_none (computeBitTime_of_nonpos h), fun h => ?_⟩,
    fun s => exec_compute_of_some (by decide)⟩
  rw [← toNat_toInt_of_pos h]
  exact exec_compute_of_some (computeBitTime_of_pos h)

end Sys2Proof.Machine
end

section
/-! PROOFS. The ring buffer as operations of the block (42_ring_buffer.md): PUSH, POP, AVAIL and
TAKE_OVERRUN executed alone, and the host operations GETC, AVAILABLE and OVERRUN. -/

namespace Sys2Proof.Machine

/-! ## The component operations (R100 to R103) -/

theorem Ring.full_iff_eq {r : Ring} : r.full = true ↔ r.tail + 1 = r.head := beq_iff_eq

theorem exec_push {s : State} {c : Inst} (hc : s.inst? = some c) (b : Byte) :
    exec (.push b) s = .next { s.setInst { c with ring := (c.ring.push b).1 } with
      result := .pushed (c.ring.push b).2 } :=
  State.onInst_eq hc _

/-- The block after a PUSH that is not accepted (R100). -/
theorem exec_push_of_full {s : State} {c : Inst} (hc : s.inst? = some c) (h : c.ring.full = true)
    (b : Byte) :
    exec (.push b) s = .next { s.setInst { c with ring := { c.ring with overrun := true } } with
      result := .pushed false } := by
  rw [exec_push hc, Ring.push_full h]

theorem exec_pop_of_ok {s : State} {c : Inst} {r : Ring} {o : Option Byte}
    (hc : s.inst? = some c) (hp : c.ring.pop = .ok (r, o)) :
    exec .pop s = .next { s.setInst { c with ring := r } with result := .popped o } := by
  simp only [exec, execPop, State.onInst_eq hc, hp]

theorem Ring.pop_of_empty {r : Ring} (h : r.head = r.tail) : r.pop = .ok (r, none) :=
  if_pos (beq_iff_eq.mpr h)

theorem Ring.pop_of_written {r : Ring} {b : Byte} (hne : r.head ≠ r.tail)
    (hb : Memory.read r.slots r.head.toNat = some b) :
    r.pop = .ok ({ r with head := r.head + 1 }, some b) := by
  have he : r.empty = false := beq_eq_false_iff_ne.mpr hne
  simp only [Ring.pop, he, hb, Bool.false_eq_true, if_false]

theorem exec_avail {s : State} {c : Inst} (hc : s.inst? = some c) :
    exec .avail s = .next { s with result := .count c.ring.avail } :=
  State.onInst_eq hc _

theorem exec_takeOverrun {s : State} {c : Inst} (hc : s.inst? = some c) :
    exec .takeOverrun s =
      .next { s.setInst { c with ring := { c.ring with overrun := false } } with
        result := .overrunWas c.ring.overrun } :=
  State.onInst_eq hc _

/-- The count of R102 over the integers, where `tail - head` may be negative. -/
theorem Ring.avail_eq_emod (r : Ring) :
    (r.avail : Int) = ((r.tail.toNat : Int) - r.head.toNat + 64) % 64 := by
  have hhead : r.head.toNat < 64 := r.head.isLt
  simp only [Ring.avail, Config.N]
  omega

/-! ## Several PUSHes, one after the other (R100, R108) -/

/-- Bytes that the queue has room for are appended to it in order, and the flag is kept. -/
theorem exec_pushes {bs : List Byte} {s : State} {c : Inst} (hc : s.inst? = some c)
    (hr : c.ring.Inv) (hroom : c.ring.contents.length + bs.length ≤ 63) : ∃ t d,
    bs.foldl (fun o b => andThen o (exec (.push b))) (.next s) = .next t ∧
      t.inst? = some d ∧ d.ring.Inv ∧ d.ring.contents = c.ring.contents ++ bs ∧
      d.ring.overrun = c.ring.overrun := by
  induction bs generalizing s c with
  | nil => exact ⟨s, c, rfl, hc, hr, (List.append_nil _).symm, rfl⟩
  | cons b bs ih =>
    rw [List.length_cons] at hroom
    obtain ⟨-, hqueue, hflag⟩ := hr.push_of_length_lt (by omega) b
    have hc1 : ({ s.setInst { c with ring := (c.ring.push b).1 } with
        result := .pushed (c.ring.push b).2 } : State).inst? =
          some { c with ring := (c.ring.push b).1 } := State.inst?_setInst hc _
    have hroom1 : (c.ring.push b).1.contents.length + bs.length ≤ 63 := by
      rw [hqueue, List.length_append, List.length_singleton]
      omega
    obtain ⟨t, d, hrun, hd, hinv, hcontents, hov⟩ := ih hc1 (hr.push b) hroom1
    refine ⟨t, d, ?_, hd, hinv, ?_, hov.trans hflag⟩
    · rw [List.foldl_cons, andThen_of_next, exec_push hc, hrun]
    · rw [hcontents, hqueue, List.append_assoc, List.singleton_append]

/-! ## The host operations (R65, R105 to R107, R180) -/

/-- When a consuming operation is refused (R65, R180). -/
theorem Inst.admitsConsumer_eq_false_iff {c : Inst} :
    c.admitsConsumer = false ↔ c.cfg.inited = false ∨ c.readTask ≠ .idle := by
  rw [← Bool.not_eq_true, Inst.admitsConsumer_iff, not_and_or, Bool.not_eq_true]

theorem exec_getc_of_not_admitted {s : State} {c : Inst} (hc : s.inst? = some c)
    (ha : c.admitsConsumer = false) : exec .getc s = .next (s.setInst c.refuse) :=
  State.updateE_eq_ok hc (by rw [ha]; rfl)

/-- An admitted GETC does what POP does to the ring, and answers 0 for POP's none (R105). -/
theorem exec_getc_of_pop {s : State} {c : Inst} {r : Ring} {o : Option Byte}
    (hc : s.inst? = some c) (ha : c.admitsConsumer = true) (hp : c.ring.pop = .ok (r, o)) :
    exec .getc s = .next (s.setInst { c with
      ring := r
      out := { c.out with resp := some ⟨.ok, o.getD 0⟩ } }) :=
  State.updateE_eq_ok hc (by rw [ha, Inst.getc, hp]; rfl)

theorem exec_available_answers {s : State} {c : Inst} (hc : s.inst? = some c) :
    exec .available s = .next (s.setInst (if c.cfg.inited then c.available.1 else c.refuse)) :=
  State.update_eq hc _

theorem exec_overrun_answers {s : State} {c : Inst} (hc : s.inst? = some c) :
    exec .overrun s = .next (s.setInst (if c.admitsConsumer then c.overrun.1 else c.refuse)) :=
  State.update_eq hc _

/-- An admitted OVERRUN applies TAKE_OVERRUN and answers the flag as it was (R107). -/
theorem exec_overrun_of_admitted {s : State} {c : Inst} (hc : s.inst? = some c)
    (ha : c.admitsConsumer = true) : exec .overrun s = .next (s.setInst { c with
      ring := { c.ring with overrun := false }
      out := { c.out with resp := some ⟨.ok, if c.ring.overrun then 0x01 else 0x00⟩ } }) := by
  rw [exec_overrun_answers hc, ha]
  rfl

/-! ## The obligations -/

/-- Settles O24: PUSH splits on whether the ring is full; the slots of an accepted byte are those of
one write at `tail`. -/
theorem pushStoresAtTail : Obligations.PushStoresAtTail := by
  intro s c b hc
  refine ⟨fun hfull => exec_push_of_full hc (Ring.full_iff_eq.mpr hfull) b, fun hroom =>
    ⟨Memory.write c.ring.slots c.ring.tail.toNat b, ?_, fun a => Memory.read_write ..⟩⟩
  rw [exec_push hc, Ring.push_notFull (beq_eq_false_iff_ne.mpr hroom)]

/-- Settles O25: POP splits on whether the ring is empty; an empty ring is put back as it was. -/
theorem popTakesTheByteAtHead : Obligations.PopTakesTheByteAtHead := by
  intro s c hc
  refine ⟨fun hempty => ?_, fun b hne hb => exec_pop_of_ok hc (Ring.pop_of_written hne hb)⟩
  rw [exec_pop_of_ok hc (Ring.pop_of_empty hempty), State.setInst_self hc]

/-- Settles O27: the answer is `Ring.avail`, a remainder modulo 64. -/
theorem availCountsModulo : Obligations.AvailCountsModulo := fun _ c hc =>
  ⟨exec_avail hc, c.ring.avail_eq_emod, Nat.le_of_lt_succ c.ring.avail_lt, c.ring.avail_eq_zero⟩

/-- Settles O28: the flag is read before it is cleared. -/
theorem takeOverrunReadsAndClears : Obligations.TakeOverrunReadsAndClears := fun _ _ hc =>
  exec_takeOverrun hc

/-- Settles O30: the 63 bytes fit one after the other (`exec_pushes`); the queue is then full, and a
full queue drops the byte and sets the flag. -/
theorem sixtyThreeBytesFitAndNoMore : Obligations.SixtyThreeBytesFitAndNoMore := by
  intro s c hc hr hempty bs hlen
  obtain ⟨t, d, hrun, hd, hinv, hcontents, hov⟩ :=
    exec_pushes (bs := bs) hc hr (by rw [hempty, hlen]; decide)
  rw [hempty, List.nil_append] at hcontents
  have hfull : d.ring.contents.length = 63 := hcontents ▸ hlen
  refine ⟨t, d, hrun, hd, hcontents, hov, fun b => ?_⟩
  obtain ⟨-, hkept, hset⟩ := hinv.push_of_length_eq hfull b
  exact ⟨_, _, exec_push hd b, State.inst?_setInst hd _, hkept.trans hcontents, hset⟩

/-- Settles O31: an admitted GETC is a POP of the queue, which under the invariant takes the oldest
byte, or none of an empty queue. -/
theorem getcAnswersTheOldestByte : Obligations.GetcAnswersTheOldestByte := by
  intro s c hc
  refine ⟨fun hrefused =>
    exec_getc_of_not_admitted hc (Inst.admitsConsumer_eq_false_iff.mpr hrefused), ?_⟩
  intro hinit hidle hr
  have ha : c.admitsConsumer = true := Inst.admitsConsumer_iff.mpr ⟨hinit, hidle⟩
  refine ⟨fun hempty => exec_getc_of_pop hc ha (hr.pop_nil hempty), fun b rest hcons => ?_⟩
  obtain ⟨hpop, hrest, -⟩ := hr.pop_cons hcons
  exact ⟨hrest, exec_getc_of_pop hc ha hpop⟩

/-- Settles O32: AVAILABLE looks only at whether INIT has run, OVERRUN also at the reading loop. -/
theorem availableAndOverrunAnswer : Obligations.AvailableAndOverrunAnswer := by
  intro s c hc
  refine ⟨fun hinit => ⟨?_, fun hidle =>
    exec_overrun_of_admitted hc (Inst.admitsConsumer_iff.mpr ⟨hinit, hidle⟩)⟩,
    fun hinit => ?_, fun hrefused => ?_⟩
  · rw [exec_available_answers hc, hinit]
    rfl
  · rw [exec_available_answers hc, hinit]
    rfl
  · rw [exec_overrun_answers hc, Inst.admitsConsumer_eq_false_iff.mpr hrefused]
    rfl

/-- Settles O33: the rejected PUSH sets the flag, the first OVERRUN reads and clears it, and neither
touches the queue, `inited` or the reading loop. -/
theorem overrunIsReportedOnce : Obligations.OverrunIsReportedOnce := by
  intro s c b hc hinit hidle hfull
  have ha : c.admitsConsumer = true := Inst.admitsConsumer_iff.mpr ⟨hinit, hidle⟩
  have hc1 := State.inst?_setInst hc { c with ring := { c.ring with overrun := true } }
  have hpush := exec_push_of_full hc (Ring.full_iff_eq.mpr hfull) b
  exact ⟨_, _, _, _, _, hpush, exec_overrun_of_admitted hc1 ha,
    exec_overrun_of_admitted (State.inst?_setInst hc1 _) ha, State.inst?_setInst hc1 _, rfl,
    State.inst?_setInst (State.inst?_setInst hc1 _) _, rfl, rfl⟩

end Sys2Proof.Machine
end

section
/-! PROOFS. RXSTEP (43_rx_sampler.md): the rows of its table, what it leaves unchanged, and the
reception of an ideal sender's frame; and what TXSTEP leaves unchanged. -/

namespace Sys2Proof.Machine

/-! ## RXSTEP and TXSTEP as operations of the block (R115, R143) -/

theorem exec_rxStep {s : State} {c : Inst} (hc : s.inst? = some c) (now : Nat) (level : Bool) :
    exec (.rxStep now level) s = .next (s.setInst (c.rxStep s.params now level)) :=
  State.update_eq hc _

theorem exec_txStep {s : State} {c : Inst} (hc : s.inst? = some c) (now : Nat) :
    exec (.txStep now) s = .next (s.setInst (c.txStep s.cur s.params s.wrFail now)) :=
  State.update_eq hc _

/-- An RXSTEP with no net change of the instance has none of the block (R124). -/
theorem exec_rxStep_of_eq_self {s : State} {c : Inst} {now : Nat} {level : Bool}
    (hc : s.inst? = some c) (h : c.rxStep s.params now level = c) :
    exec (.rxStep now level) s = .next s := by
  rw [exec_rxStep hc, h, State.setInst_self hc]

/-! ## The rows of RXSTEP (R116 to R124) -/

section rows
variable {p : Params} {now : Nat} {level : Bool} {c : Inst}

theorem Inst.rxStep_of_idle (h : c.rx.state = .idle) :
    c.rxStep p now level = c.rxIdle p now level := by
  simp only [Inst.rxStep, h]

theorem Inst.rxStep_of_startHalf (h : c.rx.state = .samplingStartHalf) :
    c.rxStep p now level = c.rxStartHalf p now := by
  simp only [Inst.rxStep, h]

theorem Inst.rxStep_of_sampling (h : c.rx.state = .samplingBits) :
    c.rxStep p now level = c.rxSample now level := by
  simp only [Inst.rxStep, h]

theorem Inst.rxStep_of_stop (h : c.rx.state = .samplingStop) :
    c.rxStep p now level = c.rxStop p now := by
  simp only [Inst.rxStep, h]

/-- With the pin low the two policies see an edge in the same case. -/
theorem edge_low (policy : EdgePolicy) (prev : Bool) : edge policy prev false = prev := by
  cases policy with
  | fallingOnly => exact Bool.and_true prev
  | anyEdge => exact Bool.bne_false prev

/-- The noise-rejection exit restores the enable that the entry cleared (R117). -/
theorem Inst.takeRxEdge_of_high (h : c.rx.ie = true) : c.takeRxEdge now true = c := by
  show { c with rx := { c.rx with ie := true } } = c
  rw [← h]

/-- `Idle` enters on a falling edge with the interrupt enabled and does nothing else (R116, R117).
The policy does not occur on the right (R129). -/
theorem Inst.rxIdle_eq : c.rxIdle p now level =
    if c.rx.ie = true ∧ c.rx.prev = true ∧ level = false then
      { c with rx := { c.rx with ie := false, t0 := now, state := .samplingStartHalf } }
    else c := by
  cases hie : c.rx.ie with
  | false => simp [Inst.rxIdle, hie]
  | true =>
    cases level with
    | false => simp [Inst.rxIdle, hie, edge_low, Inst.takeRxEdge, Inst.maskRx]
    | true => simp [Inst.rxIdle, Inst.takeRxEdge_of_high hie]

/-- `SamplingStop`: the notification is an event of the tick, or stays one (R121, R122, R123). -/
theorem Inst.rxStop_of_due (h : delayDone p.timerWidth c.rx.t0 c.cfg.bitTime.toNat now = true) :
    c.rxStop p now = { c with
      rx := { c.rx with ie := true, state := .idle }
      out := { c.out with
        rxNotify := c.out.rxNotify || (c.cfg.notify && c.rx.shift == p.lineTerm) } } := by
  rw [Inst.rxStop, if_pos h]
  cases hn : c.cfg.notify && c.rx.shift == p.lineTerm with
  | true => rw [Bool.or_true]; rfl
  | false => rw [Bool.or_false]; rfl

end rows

/-! ## What RXSTEP leaves unchanged (R132) -/

/-- An instance that agrees with `c` outside the receiver is `c` with the receiver's own replaced. -/
theorem Inst.eq_of_restOfRx {c d : Inst} (h : d.restOfRx = c.restOfRx) : d = { c with
    rx := d.rx
    ring := d.ring
    out := { c.out with rxNotify := d.out.rxNotify } } :=
  congrArg (fun e : Inst => { e with
    rx := d.rx, ring := d.ring, out := { e.out with rxNotify := d.out.rxNotify } }) h

/-- RXSTEP does not write `rx_prev`: the tick does (R14 d). -/
@[simp] theorem Inst.rxStep_prev (p : Params) (now : Nat) (level : Bool) (c : Inst) :
    (c.rxStep p now level).rx.prev = c.rx.prev := by
  cases hst : c.rx.state with
  | idle => rw [Inst.rxStep_of_idle hst, Inst.rxIdle_eq]; split <;> rfl
  | samplingStartHalf => rw [Inst.rxStep_of_startHalf hst, Inst.rxStartHalf]; split <;> rfl
  | samplingBits =>
    rw [Inst.rxStep_of_sampling hst, Inst.rxSample]
    split
    · dsimp only
      split <;> rfl
    · rfl
  | samplingStop =>
    rw [Inst.rxStep_of_stop hst]
    by_cases h : delayDone p.timerWidth c.rx.t0 c.cfg.bitTime.toNat now = true
    · rw [Inst.rxStop_of_due h]
    · rw [Inst.rxStop, if_neg h]

/-- How a producer may change a ring: `tail`, the slot at `tail`, and setting the flag (R59, R100). -/
structure Ring.ProducedFrom (r r' : Ring) : Prop where
  head : r'.head = r.head
  overrun : r.overrun = true → r'.overrun = true
  slots : ∀ a, a ≠ r.tail.toNat → Memory.read r'.slots a = Memory.read r.slots a

/-- Such a ring is the one before with those three fields replaced. -/
theorem Ring.ProducedFrom.eq {r r' : Ring} (h : r.ProducedFrom r') :
    r' = { r with slots := r'.slots, tail := r'.tail, overrun := r'.overrun } := by
  rw [← h.head]

theorem Ring.ProducedFrom.refl (r : Ring) : r.ProducedFrom r := ⟨rfl, id, fun _ _ => rfl⟩

theorem Ring.ProducedFrom.push (r : Ring) (b : Byte) : r.ProducedFrom (r.push b).1 := by
  refine ⟨r.push_head b, fun h => Ring.push_overrun_of_set h b, fun a ha => ?_⟩
  cases hf : r.full with
  | true => rw [Ring.push_full hf]
  | false => rw [Ring.push_notFull hf, Memory.read_write, if_neg ha]

theorem Inst.rxStep_ring_producedFrom (p : Params) (now : Nat) (level : Bool) (c : Inst) :
    c.ring.ProducedFrom (c.rxStep p now level).ring := by
  obtain h | ⟨b, h⟩ := c.rxStep_ring_cases p now level
  · rw [h]; exact .refl _
  · rw [h]; exact .push _ b

/-! ## What TXSTEP leaves unchanged (R132, R156) -/

/-- An instance that agrees with `c` outside the transmitter is `c` with the transmitter's own
replaced. -/
theorem Inst.eq_of_restOfTx {c d : Inst} (h : d.restOfTx = c.restOfTx) : d = { c with
    tx := d.tx
    out := { c.out with txResp := d.out.txResp }
    freeIx := d.freeIx } :=
  congrArg (fun e : Inst => { e with
    tx := d.tx, out := { e.out with txResp := d.out.txResp }, freeIx := d.freeIx }) h

/-- What the transmitter keeps while it sends a byte, aborted or not: the byte, its start time, and the
level of every pin that is no TX pin of the instance. -/
structure Inst.KeepsTxByte (c d : Inst) : Prop where
  data : d.tx.data = c.tx.data
  start : d.tx.start = c.tx.start
  level : ∀ q, PinSet.has c.cfg.txPins q = false → PinSet.has d.tx.level q = PinSet.has c.tx.level q

theorem Inst.KeepsTxByte.refl (c : Inst) : c.KeepsTxByte c := ⟨rfl, rfl, fun _ _ => rfl⟩

/-- `Abort` at the direction pin touches no TX level (R151). -/
theorem Inst.KeepsTxByte.abort_dir (k : Nat) (c : Inst) : c.KeepsTxByte (c.abort k .dir) := by
  cases h : c.cfg.hdx <;> constructor <;>
    simp [Inst.abort, Inst.loseLevel, Inst.setLevel, Inst.respondTx, h]

/-- A write of the TX pins, and what follows it: an abort happens at a TX pin (R137, R151). -/
theorem Inst.KeepsTxByte.orAbort_writeTx {c : Inst} {f : Inst → Inst} (k : Nat) (wrFail : PinSet)
    (v : Bool) (hf : ∀ d, c.KeepsTxByte d → c.KeepsTxByte (f d)) :
    c.KeepsTxByte (Inst.orAbort k (c.writeTx wrFail v) f) := by
  cases hr : c.writeTx wrFail v with
  | mk d o =>
    obtain ⟨L, rfl, ⟨rfl, -, hL⟩ | ⟨p, rfl, hp, -, -, hL⟩⟩ := Inst.writeTx_cases hr
    · exact hf _ ⟨rfl, rfl, fun q hq => by simp [hL, hq]⟩
    · obtain ⟨lost, dir, n, habort, -⟩ :=
        Inst.abort_tx_eq k p { c with tx := { c.tx with level := L } }
      show c.KeepsTxByte (Inst.abort k (.tx p) { c with tx := { c.tx with level := L } })
      rw [habort]
      refine ⟨rfl, rfl, fun q hq => ?_⟩
      have hne : q ≠ p := fun h => by simp [h, hp] at hq
      simp [PinSet.has_put, hne, hL, hq]

/-- A write of the direction pin, and what follows it. -/
theorem Inst.KeepsTxByte.orAbort_pinWrite_dir {c : Inst} {f : Inst → Inst} (k : Nat)
    (wrFail : PinSet) (v : Bool) (hf : ∀ d, c.KeepsTxByte d → c.KeepsTxByte (f d)) :
    c.KeepsTxByte (Inst.orAbort k (c.pinWrite wrFail .dir v) f) := by
  unfold Inst.pinWrite
  split
  · exact .abort_dir k c
  · exact hf _ ⟨rfl, rfl, fun _ _ => rfl⟩

theorem Inst.KeepsTxByte.txStep (k : Nat) (p : Params) (wrFail : PinSet) (now : Nat) (c : Inst) :
    c.KeepsTxByte (c.txStep k p wrFail now) := by
  unfold Inst.txStep
  split
  · exact .refl c
  · unfold Inst.txSend
    split
    · exact .orAbort_writeTx k wrFail _ fun d h => by split <;> exact ⟨h.data, h.start, h.level⟩
    · exact .refl c
  · unfold Inst.txStop
    split
    · exact .orAbort_writeTx k wrFail _ fun d h => ⟨h.data, h.start, h.level⟩
    · exact .refl c
  · unfold Inst.txGuard
    have hcomplete : ∀ d, c.KeepsTxByte d → c.KeepsTxByte d.txComplete :=
      fun d h => ⟨h.data, h.start, h.level⟩
    split
    · split
      · exact .orAbort_pinWrite_dir k wrFail _ hcomplete
      · exact hcomplete c (.refl c)
    · exact .refl c

/-! ## The run of an ideal frame (R125, R133) -/

/-- An armed receiver before the first tick of the frame. -/
theorem Receiving.zero {p : Params} {c : Inst} (E : Nat) (b : Byte) (T : Nat)
    (hst : c.rx.state = .idle) (hie : c.rx.ie = true) (hprev : c.rx.prev = true) :
    Receiving p c E b T 0 c where
  frame := rfl
  ring := by simp
  note := by simp
  prev := by simpa using hprev
  ie := by simpa using hie
  s0 := fun _ => hst
  s1 := by omega
  s2 := by omega
  s3 := by omega
  s4 := by omega
  s5 := by omega

/-- The run of the receiver alone over the first `n` ticks of the frame. -/
theorem rxRun_receiving {s : State} {c : Inst} {e : Nat} {b : Byte} (hc : s.inst? = some c)
    (hT : 2 ≤ c.cfg.bitTime.toNat) (hst : c.rx.state = .idle) (hie : c.rx.ie = true)
    (hprev : c.rx.prev = true) (hw : e + 10 * c.cfg.bitTime.toNat < 2 ^ s.params.timerWidth)
    (n : Nat) (hn : n ≤ 10 * c.cfg.bitTime.toNat) :
    ∃ d, rxRun (idealLine b c.cfg.bitTime.toNat) 0 n e s = .next (s.setInst d) ∧
      Receiving s.params c e b c.cfg.bitTime.toNat n d := by
  induction n with
  | zero => exact ⟨c, by rw [State.setInst_self hc]; rfl, .zero e b _ hst hie hprev⟩
  | succ n ih =>
    obtain ⟨d, hrun, hd⟩ := ih (by omega)
    refine ⟨_, ?_, hd.next _ _ _ _ _ _ _ rfl hT hw hn⟩
    rw [rxRun_snoc, hrun, andThen_of_next, rxTick_eq (State.inst?_setInst hc d), Nat.zero_add,
      State.setInst_setInst, State.setInst_params]

/-! ## The obligations -/

/-- Settles O41: `Receiving` holds after every tick of the frame (`rxRun_receiving`), and after the
last it says that the receiver has pushed the byte, left and armed itself. -/
theorem idealFrameIsReceived : Obligations.IdealFrameIsReceived := by
  intro s c e b hc hT hst hie hprev hw
  obtain ⟨d, hrun, hd⟩ := rxRun_receiving (b := b) hc hT hst hie hprev hw _ le_rfl
  have hring := hd.ring.trans (if_neg (by omega))
  have hnote := hd.note.trans (if_neg (by omega))
  have harmed : d.rx.ie = true := by
    rw [hd.ie, Bool.or_eq_true, decide_eq_true_eq, decide_eq_true_eq]
    exact .inr (by omega)
  refine ⟨_, d.rx, _, hrun, ?_, hd.s5 (by omega), harmed, hd.s3 (by omega), hnote⟩
  rw [← hring]
  exact congrArg s.setInst (Inst.eq_of_restOfRx hd.frame)

/-- Settles O37: row by row; the sampled byte is the shift register with the level put in at the top
(R73). -/
theorem rxSamplesTheBits : Obligations.RxSamplesTheBits := by
  intro s c now level hc
  obtain ⟨htop, hshifted⟩ := getLsbD_shiftIn c.rx.shift level
  refine ⟨fun hst => ⟨fun hdue => ?_, fun hwait => exec_rxStep_of_eq_self hc ?_⟩, fun hst =>
    ⟨fun hdue => ⟨shiftIn c.rx.shift level, htop, hshifted, fun hbit => ?_, fun hbit => ?_⟩,
      fun hwait => exec_rxStep_of_eq_self hc ?_⟩⟩
  · rw [exec_rxStep hc, Inst.rxStep_of_startHalf hst, Inst.rxStartHalf, if_pos hdue]
  · rw [Inst.rxStep_of_startHalf hst, Inst.rxStartHalf, hwait]; rfl
  · rw [exec_rxStep hc, Inst.rxStep_of_sampling hst, Inst.rxSample, if_pos hdue, if_neg hbit]
  · rw [exec_rxStep hc, Inst.rxStep_of_sampling hst, Inst.rxSample, if_pos hdue, if_pos hbit]
  · rw [Inst.rxStep_of_sampling hst, Inst.rxSample, hwait]; rfl

/-- Settles O40: RXSTEP keeps everything outside the receiver (`restOfRx_rxStep`), and of the ring it
changes what a producer may (`rxStep_ring_producedFrom`). -/
theorem rxStepWritesOnlyTheReceiver : Obligations.RxStepWritesOnlyTheReceiver := by
  intro s c now level hc
  rw [exec_rxStep hc]
  have hrest := c.restOfRx_rxStep s.params now level
  have hprev := c.rxStep_prev s.params now level
  have hring := c.rxStep_ring_producedFrom s.params now level
  generalize c.rxStep s.params now level = d at *
  refine ⟨d.rx, d.ring.slots, d.ring.tail, d.ring.overrun, d.out.rxNotify, ?_, hprev,
    hring.overrun, hring.slots⟩
  rw [← hring.eq, ← Inst.eq_of_restOfRx hrest]

/-- Settles O47: TXSTEP keeps everything outside the transmitter (`restOfTx_txStep`), and of the
transmitter what every row and every abort keeps (`KeepsTxByte`). -/
theorem txStepWritesOnlyTheTransmitter : Obligations.TxStepWritesOnlyTheTransmitter := by
  intro s c now hc
  rw [exec_txStep hc]
  have hrest := c.restOfTx_txStep s.cur s.params s.wrFail now
  obtain ⟨hdata, hstart, hlevel⟩ := Inst.KeepsTxByte.txStep s.cur s.params s.wrFail now c
  generalize c.txStep s.cur s.params s.wrFail now = d at *
  refine ⟨d.tx, d.out.txResp, d.freeIx, ?_, hdata, hstart, hlevel⟩
  rw [← Inst.eq_of_restOfTx hrest]

/-- Settles O36: `Inst.rxIdle_eq` with its condition true, and false for each of its three causes. -/
theorem rxEntersOnTheFallingEdgeOnly : Obligations.RxEntersOnTheFallingEdgeOnly := by
  intro s c now level hc hst
  refine ⟨fun hie hprev hlow => ?_, fun hnone => exec_rxStep_of_eq_self hc ?_⟩
  · rw [exec_rxStep hc, Inst.rxStep_of_idle hst, Inst.rxIdle_eq, if_pos ⟨hie, hprev, hlow⟩]
  · rw [Inst.rxStep_of_idle hst, Inst.rxIdle_eq, if_neg]
    rintro ⟨hie, hprev, hlow⟩
    simp [hie, hprev, hlow] at hnone

/-- Settles O38: the row of `SamplingStop` when the bit period is over, and before. -/
theorem rxNotifiesAndLeaves : Obligations.RxNotifiesAndLeaves := by
  intro s c now level hc hst
  refine ⟨fun hdue => ?_, fun hwait => exec_rxStep_of_eq_self hc ?_⟩
  · rw [exec_rxStep hc, Inst.rxStep_of_stop hst, Inst.rxStop_of_due hdue]
  · rw [Inst.rxStep_of_stop hst, Inst.rxStop, hwait]; rfl

/-- Settles O39: only `Idle` looks at the policy, and what it does is the same under both
(`Inst.rxIdle_eq`). -/
theorem edgePoliciesAgree : Obligations.EdgePoliciesAgree := by
  intro p now level c
  cases hst : c.rx.state with
  | idle => simp only [Inst.rxStep_of_idle hst, Inst.rxIdle_eq]
  | samplingStartHalf => rw [Inst.rxStep_of_startHalf hst, Inst.rxStep_of_startHalf hst]; rfl
  | samplingBits => rw [Inst.rxStep_of_sampling hst, Inst.rxStep_of_sampling hst]
  | samplingStop => rw [Inst.rxStep_of_stop hst, Inst.rxStep_of_stop hst]; rfl

end Sys2Proof.Machine
end

section
/-! PROOFS. The transmitter (44_tx_encoder.md): PUTCHAR, the rows of TXSTEP and their aborts, the
frame that a byte sends, PUTS, and that every host loop is served. -/

namespace Sys2Proof.Machine

/-! ## Admission of PUTCHAR (R141) -/

theorem Inst.txBusy_iff {c : Inst} : c.txBusy = true ↔ c.tx.state ≠ .txIdle := by
  simp [Inst.txBusy]

theorem Inst.acceptsPutchar_iff {c : Inst} : c.acceptsPutchar = true ↔
    c.cfg.inited = true ∧ c.cfg.txen = true ∧ c.tx.state = .txIdle := by
  simp [Inst.acceptsPutchar, Inst.txBusy, and_assoc]

theorem Inst.acceptsPutchar_eq_false {c : Inst}
    (h : c.cfg.inited = false ∨ c.cfg.txen = false ∨ c.tx.state ≠ .txIdle) :
    c.acceptsPutchar = false := by
  rw [← Bool.not_eq_true, Inst.acceptsPutchar_iff]
  rintro ⟨hinit, htxen, hst⟩
  simp [hinit, htxen, hst] at h

theorem Inst.putchar_of_accepts {c : Inst} (h : c.acceptsPutchar = true) (k : Nat) (p : Params)
    (wrFail : PinSet) (now : Nat) (b : Byte) :
    c.putchar k p wrFail now b = c.txAccept k p wrFail now b := if_pos h

theorem Inst.putchar_of_not_accepts {c : Inst} (h : c.acceptsPutchar = false) (k : Nat) (p : Params)
    (wrFail : PinSet) (now : Nat) (b : Byte) : c.putchar k p wrFail now b = c.refuse := by
  rw [Inst.putchar, h]; rfl

theorem exec_putchar_answers {s : State} {c : Inst} (hc : s.inst? = some c) (b : Byte) :
    exec (.putchar b) s = .next (s.setInst (c.putchar s.cur s.params s.wrFail s.now b)) :=
  State.update_eq hc _

/-! ## The writes of the transmitter and their abort (R136, R137, R151) -/

theorem Inst.pinWrite_dir_of_ok {wrFail : PinSet} {c : Inst}
    (h : PinSet.has wrFail c.cfg.dirPin = false) (v : Bool) :
    c.pinWrite wrFail .dir v = ({ c with tx := { c.tx with dirLevel := v } }, none) := by
  simp only [Inst.pinWrite, Inst.outPinId, h]; rfl

theorem Inst.pinWrite_dir_of_fails {wrFail : PinSet} {c : Inst}
    (h : PinSet.has wrFail c.cfg.dirPin = true) (v : Bool) :
    c.pinWrite wrFail .dir v = (c, some .dir) := by
  simp only [Inst.pinWrite, Inst.outPinId, h]; rfl

/-- Everything `Abort` does at the direction pin (R151). -/
theorem Inst.abort_dir_eq (k : Nat) (c : Inst) : ∃ dir n, c.abort k .dir = { c with
    tx := { c.tx with state := .txIdle, dirLevel := dir }
    out := { c.out with txResp := some ⟨.pinWriteError, 0⟩ }
    freeIx := n } := by
  cases h : c.cfg.hdx with
  | false => exact ⟨_, _, by simp only [Inst.abort, Inst.loseLevel_cfg, h]; rfl⟩
  | true => exact ⟨_, _, by simp only [Inst.abort, Inst.loseLevel_cfg, h]; rfl⟩

/-- A `WriteTx(v)` that stops at pin `p` ends the byte: the pins below `p` have the level, and what
would have come after the write does not (R137, R151). -/
theorem Inst.orAbort_writeTx_of_fails {wrFail : PinSet} {c : Inst} (v : Bool) {p : Nat}
    (hp : PinSet.has c.cfg.txPins p = true) (hf : PinSet.has wrFail p = true)
    (hlow : ∀ q, PinSet.has c.cfg.txPins q = true → q < p → PinSet.has wrFail q = false)
    (k : Nat) (f : Inst → Inst) :
    ∃ level dir n,
      Inst.orAbort k (c.writeTx wrFail v) f = { c with
        tx := { c.tx with state := .txIdle, level := level, dirLevel := dir }
        out := { c.out with txResp := some ⟨.pinWriteError, 0⟩ }
        freeIx := n } ∧
      (∀ q, q ≠ p → PinSet.has level q =
        if PinSet.has c.cfg.txPins q = true ∧ q < p then v else PinSet.has c.tx.level q) ∧
      (c.cfg.hdx = false → dir = c.tx.dirLevel) := by
  obtain ⟨L, hw, hL⟩ := Inst.writeTx_fails v hp hf hlow
  obtain ⟨lost, dir, n, habort, hdir⟩ :=
    Inst.abort_tx_eq k p { c with tx := { c.tx with level := L } }
  refine ⟨PinSet.put L p lost, dir, n, ?_, fun q hq => ?_, hdir⟩
  · rw [hw]; exact habort
  · rw [PinSet.has_put, if_neg hq, hL]

/-! ## The acceptance tick (R140) -/

/-- Step 1 of PUTCHAR: the start time and the byte are captured (R140). -/
def Inst.txCapture (now : Nat) (b : Byte) (c : Inst) : Inst :=
  { c with tx := { c.tx with start := now, data := b } }

/-- An accepted PUTCHAR captures, writes the direction pin in half-duplex, and drives the start
bit. -/
theorem Inst.txAccept_eq (k : Nat) (p : Params) (wrFail : PinSet) (now : Nat) (b : Byte)
    (c : Inst) : c.txAccept k p wrFail now b =
      if c.cfg.hdx then
        Inst.orAbort k ((c.txCapture now b).pinWrite wrFail .dir p.dirAsserted)
          (Inst.txDriveStart k wrFail)
      else (c.txCapture now b).txDriveStart k wrFail := rfl

/-- Where the write of the direction pin succeeds, or is not made, what is left of an accepted
PUTCHAR is the start bit. -/
theorem Inst.txAccept_of_dir_ok {c : Inst} {wrFail : PinSet}
    (h : c.cfg.hdx = true → PinSet.has wrFail c.cfg.dirPin = false)
    (k : Nat) (p : Params) (now : Nat) (b : Byte) :
    c.txAccept k p wrFail now b = Inst.txDriveStart k wrFail { c with tx := { c.tx with
      start := now, data := b
      dirLevel := if c.cfg.hdx then p.dirAsserted else c.tx.dirLevel } } := by
  cases hh : c.cfg.hdx with
  | false => rw [Inst.txAccept_eq, hh]; rfl
  | true =>
    rw [Inst.txAccept_eq, if_pos hh, Inst.pinWrite_dir_of_ok (c := c.txCapture now b) (h hh)]
    rfl

theorem Inst.txDriveStart_of_ok {c : Inst} {wrFail : PinSet}
    (h : ∀ p, PinSet.has c.cfg.txPins p = true → PinSet.has wrFail p = false) (k : Nat) :
    ∃ level, c.txDriveStart k wrFail =
        { c with tx := { c.tx with level := level, bit := 0, state := .txData } } ∧
      ∀ q, PinSet.has level q = (!PinSet.has c.cfg.txPins q && PinSet.has c.tx.level q) := by
  obtain ⟨L, hw, hL⟩ := Inst.writeTx_succeeds Config.START_LEVEL h
  refine ⟨L, by rw [Inst.txDriveStart, hw]; rfl, fun q => ?_⟩
  rw [hL]
  cases PinSet.has c.cfg.txPins q <;> rfl

/-- An accepted PUTCHAR none of whose writes fails. -/
theorem Inst.putchar_of_writes_ok {c : Inst} {wrFail : PinSet} (ha : c.acceptsPutchar = true)
    (htx : ∀ p, PinSet.has c.cfg.txPins p = true → PinSet.has wrFail p = false)
    (hdir : c.cfg.hdx = true → PinSet.has wrFail c.cfg.dirPin = false)
    (k : Nat) (p : Params) (now : Nat) (b : Byte) :
    ∃ level, c.putchar k p wrFail now b = { c with tx := { c.tx with
        start := now, data := b, bit := 0, state := .txData, level := level
        dirLevel := if c.cfg.hdx then p.dirAsserted else c.tx.dirLevel } } ∧
      ∀ q, PinSet.has level q = (!PinSet.has c.cfg.txPins q && PinSet.has c.tx.level q) := by
  rw [Inst.putchar_of_accepts ha, Inst.txAccept_of_dir_ok hdir]
  obtain ⟨level, he, hlevel⟩ := Inst.txDriveStart_of_ok (c := { c with tx := { c.tx with
    start := now, data := b
    dirLevel := if c.cfg.hdx then p.dirAsserted else c.tx.dirLevel } }) htx k
  exact ⟨level, he, hlevel⟩

/-- An accepted PUTCHAR whose write of the direction pin fails writes no TX pin (R151). -/
theorem Inst.txAccept_of_dir_fails {c : Inst} {wrFail : PinSet} (hh : c.cfg.hdx = true)
    (hf : PinSet.has wrFail c.cfg.dirPin = true) (k : Nat) (p : Params) (now : Nat) (b : Byte) :
    c.txAccept k p wrFail now b = (c.txCapture now b).abort k .dir := by
  rw [Inst.txAccept_eq, if_pos hh, Inst.pinWrite_dir_of_fails (c := c.txCapture now b) hf]
  rfl

/-! ## The rows of TXSTEP (R144 to R148) -/

/-- A TXSTEP with no net change of the instance has none of the block (R148). -/
theorem exec_txStep_of_eq_self {s : State} {c : Inst} {now : Nat} (hc : s.inst? = some c)
    (h : c.txStep s.cur s.params s.wrFail now = c) : exec (.txStep now) s = .next s := by
  rw [exec_txStep hc, h, State.setInst_self hc]

section rows
variable {c : Inst} {k : Nat} {p : Params} {wrFail : PinSet} {now : Nat}

theorem Inst.txStep_of_txData_due (hst : c.tx.state = .txData)
    (h : waitDone c.tx.start ((c.tx.bit.toNat + 1) * c.cfg.bitTime.toNat) now = true) :
    ∃ f, c.txStep k p wrFail now =
      Inst.orAbort k (c.writeTx wrFail (c.tx.data.getLsbD c.tx.bit.toNat)) f :=
  ⟨_, by simp only [Inst.txStep, hst, Inst.txSend, h, if_true]; rfl⟩

theorem Inst.txStep_of_txStopWait_due (hst : c.tx.state = .txStopWait)
    (h : waitDone c.tx.start (9 * c.cfg.bitTime.toNat) now = true) :
    ∃ f, c.txStep k p wrFail now = Inst.orAbort k (c.writeTx wrFail true) f :=
  ⟨_, by simp only [Inst.txStep, hst, Inst.txStop, Config.STOP_AT, h, if_true]; rfl⟩

theorem Inst.txStep_of_txGuard_due_of_fails (hst : c.tx.state = .txGuard)
    (h : delayDone p.timerWidth c.tx.t0 (6 * c.cfg.bitTime.toNat) now = true)
    (hh : c.cfg.hdx = true) (hf : PinSet.has wrFail c.cfg.dirPin = true) :
    c.txStep k p wrFail now = c.abort k .dir := by
  simp only [Inst.txStep, hst, Inst.txGuard, Config.GUARD_BITS, h, hh, if_true]
  rw [Inst.pinWrite_dir_of_fails hf]
  rfl

end rows

/-! ## The frame of a byte (R149) -/

/-- The transmitter after the acceptance tick. -/
theorem Sending.zero {p : Params} {c : Inst} {S : Nat} {b : Byte} {T : Nat} {level : PinSet}
    (hT : 1 ≤ T) (hresp : c.out.txResp = none)
    (hlevel : ∀ q, PinSet.has level q = (!PinSet.has c.cfg.txPins q && PinSet.has c.tx.level q)) :
    Sending p c S b T 0 { c with tx := { c.tx with
      start := S, data := b, bit := 0, state := .txData, level := level
      dirLevel := if c.cfg.hdx then p.dirAsserted else c.tx.dirLevel } } where
  cfg := rfl
  data := rfl
  start := rfl
  lev := fun q hq => by
    rw [hlevel, hq, Nat.zero_div, framePosition_encodeFrame, if_pos (by omega)]; rfl
  lev2 := fun q hq => by rw [hlevel, hq]; rfl
  dir := fun hh => (if_pos hh).trans (if_pos (by omega)).symm
  resp := hresp.trans (if_neg (by omega)).symm
  s1 := fun _ => ⟨rfl, (Nat.zero_div T).symm⟩
  s2 := by omega
  s3 := by omega
  s4 := by omega

/-- The transmitter is idle again exactly at the end of the 15 bit periods. -/
theorem Sending.idle_iff {p : Params} {c d : Inst} {S T n : Nat} {b : Byte}
    (h : Sending p c S b T n d) (hn : n ≤ 15 * T) : d.tx.state = .txIdle ↔ n = 15 * T := by
  refine ⟨fun hidle => ?_, h.s4⟩
  by_contra hne
  by_cases h8 : n < 8 * T
  · obtain ⟨hst, -⟩ := h.s1 h8
    simp [hst] at hidle
  · by_cases h9 : n < 9 * T
    · simp [h.s2 (by omega) h9] at hidle
    · obtain ⟨hst, -⟩ := h.s3 (by omega) (by omega)
      simp [hst] at hidle

/-- The run of the transmitter alone over the `n` ticks after the acceptance tick. -/
theorem txRun_sending {s : State} {c d0 : Inst} {b : Byte} {S T : Nat} (hd0 : s.inst? = some d0)
    (h0 : Sending s.params c S b T 0 d0) (hT : c.cfg.bitTime.toNat = T) (h1 : 1 ≤ T)
    (hw : S + 15 * T < 2 ^ s.params.timerWidth)
    (htx : ∀ p, PinSet.has c.cfg.txPins p = true → PinSet.has s.wrFail p = false)
    (hdir : c.cfg.hdx = true → PinSet.has s.wrFail c.cfg.dirPin = false)
    (n : Nat) (hn : n ≤ 15 * T) :
    ∃ d, txRun (S + 1) n s = .next (s.setInst d) ∧ Sending s.params c S b T n d := by
  induction n with
  | zero => exact ⟨d0, by rw [State.setInst_self hd0]; rfl, h0⟩
  | succ n ih =>
    obtain ⟨d, hrun, hd⟩ := ih (by omega)
    refine ⟨_, ?_, hd.next (k := s.cur) hT h1 hw hn htx hdir⟩
    rw [txRun_snoc, hrun, andThen_of_next, exec_txStep (State.inst?_setInst hd0 d),
      State.setInst_setInst, Nat.add_assoc, Nat.add_comm 1 n]
    rfl

/-! ## RXSTEP and TXSTEP commute (R156) -/

theorem Inst.rxStep_eq_withRx (p : Params) (now : Nat) (level : Bool) (c : Inst) :
    ∃ rx r n, c.rxStep p now level = c.withRx rx r n :=
  ⟨_, _, _, Inst.eq_of_restOfRx (c.restOfRx_rxStep p now level)⟩

theorem Inst.txStep_eq_withTx (k : Nat) (p : Params) (wrFail : PinSet) (now : Nat) (c : Inst) :
    ∃ tx r n, c.txStep k p wrFail now = c.withTx tx r n :=
  ⟨_, _, _, Inst.eq_of_restOfTx (c.restOfTx_txStep k p wrFail now)⟩

theorem Inst.txStep_rxStep_comm (k : Nat) (p : Params) (wrFail : PinSet) (now now' : Nat)
    (level : Bool) (c : Inst) :
    (c.rxStep p now level).txStep k p wrFail now' =
      (c.txStep k p wrFail now').rxStep p now level := by
  obtain ⟨rx, r, n, hrx⟩ := c.rxStep_eq_withRx p now level
  obtain ⟨tx, o, m, htx⟩ := c.txStep_eq_withTx k p wrFail now'
  calc (c.rxStep p now level).txStep k p wrFail now'
      = (c.txStep k p wrFail now').withRx rx r n := by rw [hrx, Inst.txStep_withRx]
    _ = (c.rxStep p now level).withTx tx o m := by rw [htx, hrx]; rfl
    _ = (c.txStep k p wrFail now').rxStep p now level := by rw [htx, Inst.rxStep_withTx]

/-- Two updates of the addressed instance, one after the other, are one. -/
theorem andThen_update_update {s : State} {c : Inst} (hc : s.inst? = some c) (f g : Inst → Inst) :
    (andThen (s.update f) fun t => t.update g) = .next (s.setInst (g (f c))) := by
  rw [State.update_eq hc, andThen_of_next, State.update_eq (State.inst?_setInst hc _),
    State.setInst_setInst]

theorem State.update_of_none {s : State} (hc : s.inst? = none) (f : Inst → Inst) :
    s.update f = .fault (.noSuchChannel s.cur) := by
  simp only [State.update, State.onInst, hc]

/-! ## PUTS (R153) -/

theorem exec_puts {s : State} {c : Inst} (hc : s.inst? = some c) (bs : List Byte) :
    exec (.puts bs) s = .next (s.setInst (c.putsBegin s.cur s.params s.wrFail s.now bs)) :=
  State.update_eq hc _

section puts
variable {c : Inst} {k : Nat} {p : Params} {wrFail : PinSet} {now : Nat}

theorem Inst.putsIssue_of_accepts (h : c.acceptsPutchar = true) (b : Byte) (rest : List Byte) :
    c.putsIssue k p wrFail now b rest = { c.putchar k p wrFail now b with
      putsTask := .waiting rest, putsResult := none } := if_pos h

theorem Inst.putsIssue_of_not_accepts (h : c.acceptsPutchar = false) (b : Byte)
    (rest : List Byte) : c.putsIssue k p wrFail now b rest = { c.refuse with
      putsTask := .idle, putsResult := some .refused } := by
  simp only [Inst.putsIssue, Inst.putchar_of_not_accepts h, h]; rfl

theorem Inst.putsBegin_of_running (h : c.putsTask ≠ .idle) (bs : List Byte) :
    c.putsBegin k p wrFail now bs = c.refuse := by simp [Inst.putsBegin, h]

theorem Inst.putsBegin_nil (hinit : c.cfg.inited = true) (h : c.putsTask = .idle) :
    c.putsBegin k p wrFail now [] = { c with putsResult := some .ok } := by
  simp [Inst.putsBegin, hinit, h]

theorem Inst.putsBegin_cons (hinit : c.cfg.inited = true) (h : c.putsTask = .idle) (b : Byte)
    (rest : List Byte) :
    c.putsBegin k p wrFail now (b :: rest) = c.putsIssue k p wrFail now b rest := by
  simp [Inst.putsBegin, hinit, h]

end puts

/-! A byte of the loop ended in the tick: the last one, one before the last, or one that failed. -/

theorem Inst.putsSettle_of_last {d : Inst} {r : Response} (ht : d.putsTask = .waiting [])
    (hr : d.out.txResp = some r) (hok : r.status = .ok) :
    d.putsSettle = { d with putsTask := .idle, putsResult := some .ok } := by
  simp only [Inst.putsSettle, ht, hr, hok, if_true]

theorem Inst.putsSettle_of_more {d : Inst} {r : Response} {b : Byte} {bs : List Byte}
    (ht : d.putsTask = .waiting (b :: bs)) (hr : d.out.txResp = some r) (hok : r.status = .ok) :
    d.putsSettle = { d with putsTask := .ready b bs } := by
  simp only [Inst.putsSettle, ht, hr, hok, if_true]

theorem Inst.putsSettle_of_failed {d : Inst} {r : Response} {rest : List Byte}
    (ht : d.putsTask = .waiting rest) (hr : d.out.txResp = some r) (hne : r.status ≠ .ok) :
    d.putsSettle = { d with putsTask := .idle, putsResult := some r.status } := by
  simp only [Inst.putsSettle, ht, hr, hne, if_false]

theorem Inst.putsSettle_eq_self {d : Inst}
    (h : (∀ rest, d.putsTask ≠ .waiting rest) ∨ d.out.txResp = none) : d.putsSettle = d := by
  unfold Inst.putsSettle
  split
  · rename_i rest r ht hr
    simp [ht, hr] at h
  · rfl

/-! ## The obligations -/

/-- Settles O42: the writes of the acceptance tick succeed one after the other
(`putchar_of_writes_ok`). -/
theorem putcharDrivesTheStartBit : Obligations.PutcharDrivesTheStartBit := by
  intro s c b hc hinit htxen hst htx hdir
  obtain ⟨level, he, hlevel⟩ := Inst.putchar_of_writes_ok
    (Inst.acceptsPutchar_iff.mpr ⟨hinit, htxen, hst⟩) htx hdir s.cur s.params s.now b
  exact ⟨level, by rw [exec_putchar_answers hc, he], hlevel⟩

/-- Settles O43: each of the three causes makes the admission test fail. -/
theorem putcharIsRefusedUnlessAdmitted : Obligations.PutcharIsRefusedUnlessAdmitted := by
  intro s c b hc hcause
  rw [exec_putchar_answers hc, Inst.putchar_of_not_accepts (Inst.acceptsPutchar_eq_false hcause)]
  rfl

/-- Settles O44: row by row; a state whose wait is not over does nothing (`txStep_waits`). -/
theorem txStepFollowsTheTable : Obligations.TxStepFollowsTheTable := by
  intro s c now hc
  refine ⟨fun hst => exec_txStep_of_eq_self hc ?_,
    fun hst => ⟨fun hwait => ?_, fun hdue htx => ?_⟩,
    fun hst => ⟨fun hwait => ?_, fun hdue htx => ?_⟩,
    fun hst => ⟨fun hwait => ?_, fun hdue hdir => ?_⟩⟩
  · exact Inst.txStep_waits (by simp [hst]) (by simp [hst]) (by simp [hst])
  · exact exec_txStep_of_eq_self hc
      (Inst.txStep_waits (fun _ => hwait) (by simp [hst]) (by simp [hst]))
  · obtain ⟨level, hlevel, he⟩ := Inst.txStep_txData (k := s.cur) (p := s.params) hst htx hdue
    refine ⟨level, hlevel, fun hbit => ?_, fun hbit => ?_⟩
    · rw [exec_txStep hc, he, if_neg hbit]
    · rw [exec_txStep hc, he, if_pos hbit]
  · exact exec_txStep_of_eq_self hc
      (Inst.txStep_waits (by simp [hst]) (fun _ => hwait) (by simp [hst]))
  · obtain ⟨level, hlevel, he⟩ := Inst.txStep_txStopWait (k := s.cur) (p := s.params) hst htx hdue
    exact ⟨level, hlevel, by rw [exec_txStep hc, he]⟩
  · exact exec_txStep_of_eq_self hc
      (Inst.txStep_waits (by simp [hst]) (by simp [hst]) (fun _ => hwait))
  · rw [exec_txStep hc, Inst.txStep_txGuard hst hdir hdue]

/-- Settles O45: both rows that write the TX pins go through `orAbort` (`orAbort_writeTx_of_fails`),
and the guard's end aborts at the direction pin (`abort_dir_eq`). -/
theorem failedWriteAbortsTheByte : Obligations.FailedWriteAbortsTheByte := by
  intro s c now hc
  rw [exec_txStep hc]
  refine ⟨rfl, fun v p hdue hp hf hlow => ?_, fun hst hh hf hdue => ?_⟩
  · have hstep : ∃ f, c.txStep s.cur s.params s.wrFail now =
        Inst.orAbort s.cur (c.writeTx s.wrFail v) f := by
      obtain ⟨hst, rfl, hwait⟩ | ⟨hst, rfl, hwait⟩ := hdue
      · exact Inst.txStep_of_txData_due hst hwait
      · exact Inst.txStep_of_txStopWait_due hst hwait
    obtain ⟨f, hf'⟩ := hstep
    obtain ⟨level, dir, n, he, hlevel, hdir⟩ :=
      Inst.orAbort_writeTx_of_fails v hp hf hlow s.cur f
    exact ⟨level, dir, n, by rw [hf', he], hlevel, hdir⟩
  · obtain ⟨dir, n, he⟩ := c.abort_dir_eq s.cur
    exact ⟨dir, n, by rw [Inst.txStep_of_txGuard_due_of_fails hst hdue hh hf, he]⟩

/-- Settles O46: the abort of the direction write comes before any TX pin is written, that of the
start bit at the lowest failing pin; the engine was idle and is idle again. -/
theorem failedWriteAbortsPutchar : Obligations.FailedWriteAbortsPutchar := by
  intro s c b hc hinit htxen hst
  have ha : c.acceptsPutchar = true := Inst.acceptsPutchar_iff.mpr ⟨hinit, htxen, hst⟩
  rw [exec_putchar_answers hc, Inst.putchar_of_accepts ha]
  refine ⟨fun hh hf => ?_, fun p hdir hp hf hlow => ?_⟩
  · obtain ⟨dir, n, he⟩ := (c.txCapture s.now b).abort_dir_eq s.cur
    refine ⟨dir, n, ?_⟩
    rw [Inst.txAccept_of_dir_fails hh hf, he, ← hst]
    rfl
  · rw [Inst.txAccept_of_dir_ok hdir]
    obtain ⟨level, dir, n, he, hlevel, hdir'⟩ :=
      Inst.orAbort_writeTx_of_fails (c := { c with tx := { c.tx with
        start := s.now, data := b
        dirLevel := if c.cfg.hdx then s.params.dirAsserted else c.tx.dirLevel } })
      Config.START_LEVEL hp hf hlow s.cur _
    refine ⟨level, dir, n, ?_, hlevel, fun hh => (hdir' hh).trans (if_neg (by simp [hh]))⟩
    rw [Inst.txDriveStart, he, ← hst]

/-- Settles O48: each engine leaves the other's state alone and does not read it
(`txStep_rxStep_comm`); an instance the block does not have faults in either order. -/
theorem enginesDoNotInteract : Obligations.EnginesDoNotInteract := by
  intro s now now' level
  cases hc : s.inst? with
  | none =>
    simp only [exec, execRxStep, execTxStep, State.update_of_none hc]
    rfl
  | some c =>
    rw [exec_rxStep hc, exec_txStep hc, andThen_of_next, andThen_of_next,
      exec_txStep (State.inst?_setInst hc _), exec_rxStep (State.inst?_setInst hc _),
      State.setInst_setInst, State.setInst_setInst]
    exact congrArg (fun d => Host.Outcome.next (s.setInst d)) (Inst.txStep_rxStep_comm ..)

/-- Settles O49: the acceptance tick leaves the transmitter at the start of its frame
(`Sending.zero`), and every tick takes it one tick further (`txRun_sending`). -/
theorem transmitterSendsTheFrame : Obligations.TransmitterSendsTheFrame := by
  intro s s1 c b n hc hinit htxen hst hresp hT hw htx hdir hput hn
  obtain ⟨level, he, hlevel⟩ := Inst.putchar_of_writes_ok
    (Inst.acceptsPutchar_iff.mpr ⟨hinit, htxen, hst⟩) htx hdir s.cur s.params s.now b
  rw [exec_putchar_answers hc, he] at hput
  injection hput with hput
  subst hput
  have hstart := Sending.zero (p := s.params) (S := s.now) (b := b) hT hresp hlevel
  have hd0 := State.inst?_setInst hc
  obtain ⟨d, hrun, hd⟩ := txRun_sending (hd0 _) hstart rfl hT hw htx hdir n hn
  exact ⟨_, d, hrun, State.inst?_setInst (hd0 _) d, hd.lev, hd.lev2, hd.dir, hd.idle_iff hn,
    hd.resp⟩

/-- Settles O51: PUTS splits as its call does, on the running loop, the list of bytes and the
admission of the first; the settling splits on what the loop waits for and on the response. -/
theorem putsSendsByteAfterByte : Obligations.PutsSendsByteAfterByte := by
  refine ⟨fun s c hc hinit => ⟨fun hrun bs => ?_, fun hidle => ⟨?_, fun b rest htxen hst => ?_,
    fun b rest hcause => ?_⟩⟩,
    fun d => ⟨fun r rest ht hr => ?_, fun hquiet => Inst.putsSettle_eq_self hquiet⟩⟩
  · rw [exec_puts hc, Inst.putsBegin_of_running hrun]
    rfl
  · rw [exec_puts hc, Inst.putsBegin_nil hinit hidle]
  · refine ⟨_, _, exec_putchar_answers hc b, State.inst?_setInst hc _, ?_⟩
    rw [exec_puts hc, Inst.putsBegin_cons hinit hidle,
      Inst.putsIssue_of_accepts (Inst.acceptsPutchar_iff.mpr ⟨hinit, htxen, hst⟩)]
  · rw [exec_puts hc, Inst.putsBegin_cons hinit hidle,
      Inst.putsIssue_of_not_accepts (Inst.acceptsPutchar_eq_false (.inr hcause)), ← hidle]
    rfl
  · by_cases hok : r.status = .ok
    · rw [if_neg (not_not_intro hok)]
      cases rest with
      | nil => exact Inst.putsSettle_of_last ht hr hok
      | cons b bs => exact Inst.putsSettle_of_more ht hr hok
    · rw [if_pos hok]
      exact Inst.putsSettle_of_failed ht hr hok

end Sys2Proof.Machine
end

section
/-! PROOFS. Every host loop is served (R153, R154, R165). Within a tick a PUTS loop may wait for a
byte that has just ended; the settling at the end of the tick takes its response. -/

namespace Sys2Proof.Machine

/-! ## A byte that is accepted is in flight until it is answered (R140, R147, R151) -/

/-- The transmitter has a byte in flight, or has answered for one in this tick. -/
def Inst.OwesOrAnswers (c : Inst) : Prop := c.txBusy = true ∨ c.out.txResp ≠ none

theorem Inst.OwesOrAnswers.of_state {c : Inst} (h : c.tx.state ≠ .txIdle) : c.OwesOrAnswers :=
  .inl (Inst.txBusy_iff.mpr h)

theorem Inst.OwesOrAnswers.abort (c : Inst) (k : Nat) (o : OutPin) : (c.abort k o).OwesOrAnswers :=
  .inr (by rw [Inst.abort_txResp]; exact Option.some_ne_none _)

/-- A write that goes on to a state with that property, or aborts, has it. -/
theorem Inst.OwesOrAnswers.orAbort {k : Nat} {f : Inst → Inst} {r : Inst × Option OutPin}
    (hf : (f r.1).OwesOrAnswers) : (Inst.orAbort k r f).OwesOrAnswers := by
  unfold Inst.orAbort
  split
  · exact .abort _ k _
  · exact hf

theorem Inst.OwesOrAnswers.writeTx {c : Inst} (h : c.OwesOrAnswers) (wrFail : PinSet) (v : Bool) :
    (c.writeTx wrFail v).1.OwesOrAnswers := by
  obtain ⟨L, he⟩ := c.writeTx_eq_level wrFail v
  rw [he]; exact h

theorem Inst.OwesOrAnswers.txComplete (c : Inst) : c.txComplete.OwesOrAnswers :=
  .inr (Option.some_ne_none _)

theorem Inst.OwesOrAnswers.txAccept (k : Nat) (p : Params) (wrFail : PinSet) (now : Nat) (b : Byte)
    (c : Inst) : (c.txAccept k p wrFail now b).OwesOrAnswers := by
  have hstart : ∀ d : Inst, (d.txDriveStart k wrFail).OwesOrAnswers :=
    fun _ => .orAbort (.of_state nofun)
  rw [Inst.txAccept_eq]
  split
  · exact .orAbort (hstart _)
  · exact hstart _

theorem Inst.OwesOrAnswers.txStep {c : Inst} (h : c.OwesOrAnswers) (k : Nat) (p : Params)
    (wrFail : PinSet) (now : Nat) : (c.txStep k p wrFail now).OwesOrAnswers := by
  unfold Inst.txStep
  split
  · exact h
  · unfold Inst.txSend
    split
    · refine .orAbort ?_
      split
      · exact .of_state nofun
      · exact h.writeTx _ _
    · exact h
  · unfold Inst.txStop
    split
    · exact .orAbort (.of_state nofun)
    · exact h
  · unfold Inst.txGuard
    split
    · split
      · exact .orAbort (.txComplete _)
      · exact .txComplete c
    · exact h

/-! ## The invariant of the host loops within a tick -/

/-- `Inst.LoopsInv` before the settling: the byte that a PUTS loop waits for is in flight, or its
response is out. -/
structure Inst.LoopsUnsettled (c : Inst) : Prop where
  ready : c.putsTask ≠ .idle ∨ c.readTask ≠ .idle → c.cfg.inited = true
  puts : ∀ rest, c.putsTask = .waiting rest → c.OwesOrAnswers
  taking : ∀ line maxLen got, c.readTask = .taking line maxLen got →
    c.ring.head ≠ c.ring.tail ∧ got.length < maxLen - 1

theorem Inst.LoopsInv.unsettled {c : Inst} (h : c.LoopsInv) : c.LoopsUnsettled :=
  ⟨h.ready, fun rest hp => .inl (h.puts rest hp), h.taking⟩

/-- A change of the ring alone, beside what the loops do not look at. -/
theorem Inst.LoopsUnsettled.of_ring {c d : Inst} (h : c.LoopsUnsettled) (hcfg : d.cfg = c.cfg)
    (hputs : d.putsTask = c.putsTask) (hread : d.readTask = c.readTask) (htx : d.tx = c.tx)
    (hout : d.out.txResp = c.out.txResp)
    (hring : d.readTask ≠ .idle → c.ring.head ≠ c.ring.tail → d.ring.head ≠ d.ring.tail) :
    d.LoopsUnsettled := by
  refine ⟨?_, ?_, fun line maxLen got ht => ?_⟩
  · rw [hcfg, hputs, hread]; exact h.ready
  · rw [hputs, Inst.OwesOrAnswers, Inst.txBusy, htx, hout]; exact h.puts
  · obtain ⟨hne, hroom⟩ := h.taking line maxLen got (hread ▸ ht)
    exact ⟨hring (by simp [ht]) hne, hroom⟩

section ops
variable {c : Inst}

theorem Inst.LoopsUnsettled.respond (h : c.LoopsUnsettled) (st : Status) (v : Byte) :
    (c.respond st v).LoopsUnsettled :=
  h.of_ring rfl rfl rfl rfl rfl fun _ => id

/-- The commit of INIT: the loops of an instance that was not configured do not run. -/
theorem Inst.LoopsUnsettled.initCommit (h : c.LoopsUnsettled) (p : Params) (cfg : CfgRecord)
    (t : Nat) : (c.initCommit p cfg t).LoopsUnsettled :=
  ⟨fun _ => rfl, h.puts, h.taking⟩

/-- PUTCHAR is accepted only when no byte is in flight, so that no PUTS loop waits (R141). -/
theorem Inst.LoopsInv.putchar (h : c.LoopsInv) (k : Nat) (p : Params) (wrFail : PinSet) (now : Nat)
    (b : Byte) : (c.putchar k p wrFail now b).LoopsUnsettled := by
  cases ha : c.acceptsPutchar with
  | false =>
    rw [Inst.putchar_of_not_accepts ha]
    exact h.unsettled.respond _ _
  | true =>
    refine ⟨by simpa using h.ready, fun _ _ => ?_, by simpa using h.taking⟩
    rw [Inst.putchar_of_accepts ha]
    exact .txAccept k p wrFail now b c

/-- The loop waits only for a byte that was accepted (R153). -/
theorem Inst.LoopsInv.putsIssue (h : c.LoopsInv) (k : Nat) (p : Params) (wrFail : PinSet)
    (now : Nat) (b : Byte) (rest : List Byte) :
    (c.putsIssue k p wrFail now b rest).LoopsUnsettled := by
  cases ha : c.acceptsPutchar with
  | false =>
    rw [Inst.putsIssue_of_not_accepts ha]
    exact ⟨fun hrun => h.ready (.inr (hrun.resolve_left fun hne => hne rfl)), nofun, h.taking⟩
  | true =>
    obtain ⟨hinit, -, -⟩ := Inst.acceptsPutchar_iff.mp ha
    rw [Inst.putsIssue_of_accepts ha, Inst.putchar_of_accepts ha]
    exact ⟨fun _ => by simpa using hinit, fun _ _ => .txAccept k p wrFail now b c,
      by simpa using h.taking⟩

theorem Inst.LoopsInv.putsBegin (h : c.LoopsInv) (k : Nat) (p : Params) (wrFail : PinSet)
    (now : Nat) (bs : List Byte) : (c.putsBegin k p wrFail now bs).LoopsUnsettled := by
  unfold Inst.putsBegin
  split
  · exact h.unsettled.respond _ _
  · split
    · exact ⟨h.ready, h.unsettled.puts, h.taking⟩
    · exact h.putsIssue k p wrFail now _ _

/-- OVERRUN writes the flag alone (R107). -/
theorem Inst.LoopsUnsettled.overrun (h : c.LoopsUnsettled) : c.overrun.1.LoopsUnsettled :=
  h.of_ring rfl rfl rfl rfl rfl fun _ => id

theorem Inst.LoopsUnsettled.readBegin (h : c.LoopsUnsettled) (line : Bool) (maxLen : Nat) :
    (c.readBegin line maxLen).LoopsUnsettled := by
  unfold Inst.readBegin
  split
  · exact h.respond _ _
  · rename_i hcall
    have hadm : c.admitsConsumer = true := by simp at hcall; exact hcall.1
    dsimp only
    split
    · exact ⟨h.overrun.ready, h.overrun.puts, h.overrun.taking⟩
    · exact ⟨fun _ => (Inst.admitsConsumer_iff.mp hadm).1, h.overrun.puts, nofun⟩

/-- A loop that ends, or goes on to AVAILABLE, asks nothing of the ring. -/
theorem Inst.LoopsUnsettled.of_not_taking {d : Inst} (h : c.LoopsUnsettled) (hcfg : d.cfg = c.cfg)
    (hputs : d.putsTask = c.putsTask) (htx : d.tx = c.tx) (hout : d.out.txResp = c.out.txResp)
    (hrun : d.readTask ≠ .idle → c.readTask ≠ .idle)
    (hnot : ∀ line maxLen got, d.readTask ≠ .taking line maxLen got) : d.LoopsUnsettled := by
  refine ⟨?_, ?_, fun line maxLen got ht => absurd ht (hnot line maxLen got)⟩
  · rw [hcfg, hputs]; exact fun hor => h.ready (hor.imp_right hrun)
  · rw [hputs, Inst.OwesOrAnswers, Inst.txBusy, htx, hout]; exact h.puts

/-- The loop goes on to GETC only where AVAILABLE found a byte and there is room for it (R165). -/
theorem Inst.LoopsUnsettled.readAdvance (h : c.LoopsUnsettled) {p : Params} {c' : Inst}
    (hr : c.readAdvance p = .ok c') : c'.LoopsUnsettled := by
  cases ht : c.readTask with
  | idle =>
    simp only [Inst.readAdvance, ht] at hr
    injection hr with hr
    exact hr ▸ h
  | checking line maxLen got =>
    have hrun : c.readTask ≠ .idle := by simp [ht]
    rw [Inst.readAdvance_of_checking ht] at hr
    injection hr with hr
    subst hr
    split
    · rename_i hmore
      obtain ⟨hbyte, hroom⟩ := hmore
      refine ⟨fun _ => h.ready (.inr hrun), h.puts, fun line' maxLen' got' htake => ?_⟩
      injection htake with _ hmax hgot
      subst hmax hgot
      exact ⟨fun he => hbyte.ne' (c.ring.avail_eq_zero.mpr he), hroom⟩
    · exact h.of_not_taking rfl rfl rfl rfl (fun hne => absurd rfl hne) nofun
  | taking line maxLen got =>
    have hrun : c.readTask ≠ .idle := by simp [ht]
    rw [Inst.readAdvance_of_taking ht] at hr
    cases hg : c.getc with
    | error e => rw [hg] at hr; cases hr
    | ok q =>
      obtain ⟨d, b⟩ := q
      obtain ⟨r, o, -, -, rfl⟩ := Inst.getc_cases hg
      rw [hg] at hr
      injection hr with hr
      subst hr
      dsimp only
      split <;> exact h.of_not_taking rfl rfl rfl rfl (fun _ => hrun) nofun

/-- Every operation that a request can ask for keeps the host loops of the instance it names served:
a consumer's is refused while a reading loop runs (R65). -/
theorem Inst.LoopsInv.after (h : c.LoopsInv) {i : Instr} {s : State} {c' : Inst}
    (hi : i.opClass = .host ∨ i.opClass = .pseudo) (ha : Inst.after i s c = .ok c') :
    c'.LoopsUnsettled := by
  have hu := h.unsettled
  cases i with
  | init cfg =>
    obtain ⟨st, v, rfl⟩ | ⟨-, cl, t, -, rfl⟩ := Inst.after_init ha
    · exact hu.respond st v
    · exact (hu.initCommit s.params cfg t).respond _ _
  | putchar b => cases ha; exact h.putchar _ _ _ _ b
  | getc =>
    simp only [Inst.after] at ha
    split at ha
    · rename_i hadm
      obtain ⟨-, hidle⟩ := Inst.admitsConsumer_iff.mp hadm
      cases hg : c.getc with
      | error e => rw [hg] at ha; cases ha
      | ok q =>
        obtain ⟨d, b⟩ := q
        obtain ⟨r, o, -, -, rfl⟩ := Inst.getc_cases hg
        rw [hg] at ha
        cases ha
        exact hu.of_ring rfl rfl rfl rfl rfl fun hne => absurd hidle hne
    · cases ha
      exact hu.respond _ _
  | available =>
    cases ha
    split <;> exact hu.respond _ _
  | overrun =>
    cases ha
    split
    · exact hu.overrun
    · exact hu.respond _ _
  | puts bs => cases ha; exact h.putsBegin _ _ _ _ bs
  | read n => cases ha; exact hu.readBegin false n
  | readline n => cases ha; exact hu.readBegin true n
  | _ => simp [Instr.opClass] at hi

/-! ## The engines and the end of the tick -/

/-- PUSH leaves a byte to take (R100). -/
theorem Ring.push_nonempty {r : Ring} (h : r.head ≠ r.tail) (b : Byte) :
    (r.push b).1.head ≠ (r.push b).1.tail := by
  cases hf : r.full with
  | true => rw [Ring.push_full hf]; exact h
  | false =>
    rw [Ring.push_notFull hf]
    exact (beq_eq_false_iff_ne.mp hf).symm

theorem Inst.LoopsUnsettled.rxStep (h : c.LoopsUnsettled) (p : Params) (now : Nat) (level : Bool) :
    (c.rxStep p now level).LoopsUnsettled := by
  refine h.of_ring (by simp) (by simp) (by simp) (by simp) (by simp) fun _ hne => ?_
  obtain hr | ⟨b, hr⟩ := c.rxStep_ring_cases p now level
  · rw [hr]; exact hne
  · rw [hr]; exact Ring.push_nonempty hne b

theorem Inst.LoopsUnsettled.txStep (h : c.LoopsUnsettled) (k : Nat) (p : Params) (wrFail : PinSet)
    (now : Nat) : (c.txStep k p wrFail now).LoopsUnsettled :=
  ⟨by simpa using h.ready, fun rest hw => (h.puts rest (by simpa using hw)).txStep k p wrFail now,
    by simpa using h.taking⟩

/-- After the settling no PUTS loop waits for a byte that has been answered (R153). -/
theorem Inst.LoopsUnsettled.putsSettle (h : c.LoopsUnsettled) : c.putsSettle.LoopsInv := by
  by_cases hq : (∀ rest, c.putsTask ≠ .waiting rest) ∨ c.out.txResp = none
  · rw [Inst.putsSettle_eq_self hq]
    refine ⟨h.ready, fun rest hw => ?_, h.taking⟩
    exact (h.puts rest hw).resolve_right fun hr => hr (hq.resolve_left fun hn => hn rest hw)
  · push Not at hq
    obtain ⟨⟨rest, hw⟩, hr⟩ := hq
    obtain ⟨r, hr⟩ := Option.ne_none_iff_exists'.mp hr
    have hinit : c.putsSettle.cfg.inited = true := by
      rw [Inst.putsSettle_cfg]; exact h.ready (.inl (by simp [hw]))
    refine ⟨fun _ => hinit, fun rest' hw' => ?_, by simpa using h.taking⟩
    by_cases hok : r.status = .ok
    · cases rest with
      | nil => simp [Inst.putsSettle_of_last hw hr hok] at hw'
      | cons b bs => simp [Inst.putsSettle_of_more hw hr hok] at hw'
    · simp [Inst.putsSettle_of_failed hw hr hok] at hw'

theorem Inst.LoopsInv.lineExpire (h : c.LoopsInv) (tick : Nat) : (c.lineExpire tick).LoopsInv := by
  rw [Inst.lineExpire_eq]
  exact ⟨h.ready, h.puts, h.taking⟩

theorem Inst.LoopsUnsettled.engines (h : c.LoopsUnsettled) (s : State) (k : Nat) (before : Inst) :
    (c.engines s k before).LoopsInv := by
  have hprev : ∀ (d : Inst) (l : Bool), d.LoopsUnsettled →
      Inst.LoopsUnsettled { d with rx := { d.rx with prev := l } } :=
    fun d l hd => ⟨hd.ready, hd.puts, hd.taking⟩
  refine (hprev _ _ ?_).putsSettle.lineExpire _
  have hrx : (if before.cfg.inited then c.rxStep s.params s.now (c.pinRead s.pins s.ticks)
      else c).LoopsUnsettled := by
    split
    · exact h.rxStep _ _ _
    · exact h
  split
  · exact hrx.txStep _ _ _ _
  · exact hrx

end ops

/-! ## The phases of a tick -/

theorem Inst.LoopsInv.reset : Inst.reset.LoopsInv := ⟨by simp [Inst.reset], nofun, nofun⟩

theorem State.LoopsServed.latch {s : State} (h : s.LoopsServed) (i : TickInput) :
    (s.latch i).LoopsServed := by
  intro c hc
  obtain ⟨d, hd, rfl⟩ := List.mem_map.mp hc
  exact ⟨(h d hd).ready, (h d hd).puts, (h d hd).taking⟩

theorem State.LoopsServed.wirePhase {s t : State} {i : TickInput} (h : s.LoopsServed)
    (hw : wirePhase i s = .next t) : t.LoopsServed := by
  obtain rfl | ⟨k, bits, c, -, hc, rfl⟩ := wirePhase_cases hw
  · exact h
  · have hi := h c (List.mem_of_getElem? hc)
    exact Inst.forall_mem_set h ⟨hi.ready, hi.puts, hi.taking⟩

theorem State.LoopsServed.hostPhase {s t : State} {i : TickInput} (h : s.LoopsServed)
    (hp : hostPhase i s = .next t) : ∀ c ∈ t.insts, c.LoopsUnsettled := by
  have hu : ∀ c ∈ s.insts, c.LoopsUnsettled := fun c hc => (h c hc).unsettled
  obtain rfl | ⟨cmd, instr, -, hd, he⟩ | ⟨k, c, c', hc, rfl, hcase⟩ := hostPhase_cases hp
  · exact hu
  · obtain ⟨-, ⟨hsame, -⟩ | ⟨c, c', hc, ha, hset⟩⟩ := exec_cases he
    · rw [hsame]; exact hu
    · rw [hset]
      exact Inst.forall_mem_set hu
        ((h c (List.mem_of_getElem? hc)).after (HostReq.decode_opClass hd) ha)
  · refine Inst.forall_mem_set hu ?_
    have hi := h c (List.mem_of_getElem? hc)
    obtain rfl | ⟨b, rest, -, rfl⟩ | hr := hcase
    · exact hi.unsettled.respond _ _
    · exact hi.putsIssue _ _ _ _ _ _
    · exact hi.unsettled.readAdvance hr

/-- Settles O52: sampling and the far sender keep the invariant, the host's part keeps it up to a
byte that it aborts at once, and the settling of the engines' part restores it. -/
theorem loopsAreAlwaysServed : Obligations.LoopsAreAlwaysServed := by
  intro s t h hs
  obtain ⟨-, rfl⟩ | ⟨-, s1, s2, h1, h2, rfl⟩ := step_cases hs
  · intro c hc
    obtain ⟨d, -, rfl⟩ := List.mem_map.mp hc
    exact .reset
  · intro c hc
    obtain ⟨k, hk, rfl⟩ := List.mem_mapIdx.mp hc
    exact (((h.latch _).wirePhase h1).hostPhase h2 _ (List.getElem_mem hk)).engines s2 k _

end Sys2Proof.Machine
end

section
/-! PROOFS. READ and READLINE (45_line_reader.md): the call, and what its loop delivers when it runs
to its end. -/

namespace Sys2Proof.Machine

/-! ## The call (R165, R166, R168) -/

theorem Inst.readBegin_of_refused {c : Inst} {maxLen : Nat} (line : Bool)
    (h : maxLen = 0 ∨ c.readTask ≠ .idle) : c.readBegin line maxLen = c.refuse :=
  if_pos (by
    rw [Bool.or_eq_true, Bool.not_eq_true', Inst.admitsConsumer_eq_false_iff, beq_iff_eq]
    exact h.symm.imp_left .inr)

/-- An admitted call is OVERRUN, with its answer as the call's error or the loop's beginning. -/
theorem Inst.readBegin_of_admitted {c : Inst} {maxLen : Nat} (line : Bool)
    (ha : c.admitsConsumer = true) (hmax : 1 ≤ maxLen) : c.readBegin line maxLen =
      if c.ring.overrun then { c.overrun.1 with readResult := some .overrunError }
      else { c.overrun.1 with readTask := .checking line maxLen [], readResult := none } :=
  if_neg (by simpa [ha] using Nat.one_le_iff_ne_zero.mp hmax)

theorem exec_readOrReadline {s : State} {c : Inst} (hc : s.inst? = some c) (line : Bool)
    (maxLen : Nat) : exec (if line then .readline maxLen else .read maxLen) s =
      .next (s.setInst (c.readBegin line maxLen)) := by
  cases line <;> exact State.update_eq hc _

/-- Settles O53: a call that is not refused issues OVERRUN, which leaves a clear flag clear. -/
theorem readReportsTheOverrunFirst : Obligations.ReadReportsTheOverrunFirst := by
  intro s c line maxLen hc hinit
  dsimp only
  rw [exec_readOrReadline hc]
  have hadmitted (hmax : 1 ≤ maxLen) (hidle : c.readTask = .idle) :=
    Inst.readBegin_of_admitted line (Inst.admitsConsumer_iff.mpr ⟨hinit, hidle⟩) hmax
  refine ⟨fun hrefused => ?_, fun hmax hidle hset => ?_, fun hmax hidle hclear => ?_⟩
  · rw [Inst.readBegin_of_refused line hrefused]
    rfl
  · rw [hadmitted hmax hidle, if_pos hset, Inst.overrun, Ring.takeOverrun, hset]
    rfl
  · have hsame : { c.ring with overrun := false } = c.ring := by rw [← hclear]
    rw [hadmitted hmax hidle, if_neg (by simp [hclear]), Inst.overrun, Ring.takeOverrun, hsame,
      hclear]
    rfl

/-! ## The commands of the loop under the ring's invariant (R165, R166) -/

section loop
variable {p : Params} {c : Inst} {line : Bool} {maxLen : Nat} {got : List Byte}

theorem readRun_succ {d : Inst} (h : c.readAdvance p = .ok d) (n : Nat) :
    readRun p (n + 1) c = readRun p n d := by
  rw [readRun, h]
  rfl

/-- With no byte to take, or no room for one, AVAILABLE is the last command. -/
theorem Inst.readAdvance_last (h : c.readTask = .checking line maxLen got)
    (hlast : ¬ (0 < c.ring.avail ∧ got.length < maxLen - 1)) :
    c.readAdvance p = .ok (c.available.1.readFinish p got) := by
  rw [Inst.readAdvance_of_checking h, if_neg hlast]

/-- The instance after a GETC that answered `b`. -/
def Inst.takeHead (b : Byte) (c : Inst) : Inst :=
  { c with ring := { c.ring with head := c.ring.head + 1 } }.respond .ok b

/-- The byte that GETC takes ends the loop as READLINE's terminator, or is collected. -/
theorem Inst.readAdvance_takeHead {b : Byte} (h : c.readTask = .taking line maxLen got)
    (hpop : c.ring.pop = .ok ({ c.ring with head := c.ring.head + 1 }, some b)) :
    c.readAdvance p = .ok (if line = true ∧ b = p.lineTerm then (c.takeHead b).readFinish p got
      else { c.takeHead b with readTask := .checking line maxLen (got ++ [b]) }) := by
  rw [Inst.readAdvance_of_taking h, Inst.getc, hpop]
  rfl

/-- With a byte at the head and room for it the loop issues AVAILABLE and GETC. -/
theorem readRun_take {b : Byte} {rest : List Byte} (hr : c.ring.Inv)
    (hq : c.ring.contents = b :: rest) (h : c.readTask = .checking line maxLen got)
    (hroom : got.length < maxLen - 1) (n : Nat) :
    readRun p (n + 2) c = readRun p n (if line = true ∧ b = p.lineTerm
      then (c.takeHead b).readFinish p got
      else { c.takeHead b with readTask := .checking line maxLen (got ++ [b]) }) := by
  have hbyte : 0 < c.ring.avail := hr.avail_pos_iff.mpr (by simp [hq])
  have havailable : c.readAdvance p =
      .ok { c.available.1 with readTask := .taking line maxLen got } := by
    rw [Inst.readAdvance_of_checking h, if_pos ⟨hbyte, hroom⟩]
  obtain ⟨hpop, -, -⟩ := hr.pop_cons hq
  have hgetc := Inst.readAdvance_takeHead (p := p)
    (c := { c.available.1 with readTask := .taking line maxLen got }) rfl hpop
  rw [readRun_succ havailable, readRun_succ hgetc]
  rfl

end loop

/-! ## The loop run to its end (R165, R166) -/

/-- The instance `c` after a loop that ended with the bytes `all` collected, the ring's `head` at
`head` and the last response `r`. -/
def Inst.afterRead (p : Params) (all : List Byte) (head : SlotIx) (r : Option Response) (c : Inst) :
    Inst :=
  { c with ring := { c.ring with head := head }, out := { c.out with resp := r } }.readFinish p all

/-- The loop of `c`, with `got` collected and room for `room` bytes more, runs to its end: it adds
to `got` what `collect` takes from the queue, and leaves queued what `collect` leaves. -/
def Inst.Delivers (p : Params) (line : Bool) (room : Nat) (got : List Byte) (c : Inst) : Prop :=
  ∃ n head r,
    readRun p n c = .ok (c.afterRead p
      (got ++ (collect line p.lineTerm room c.ring.contents).1) head r) ∧
    ({ c.ring with head := head } : Ring).contents =
      (collect line p.lineTerm room c.ring.contents).2 ∧
    ({ c.ring with head := head } : Ring).Inv

section loop
variable {p : Params} {c : Inst} {line : Bool} {maxLen room : Nat} {got : List Byte}

theorem collect_of_terminator {term b : Byte} (h : line = true ∧ b = term) (q : List Byte) :
    collect line term (room + 1) (b :: q) = ([], q) := by
  simp [collect, h]

theorem collect_of_not_terminator {term b : Byte} (h : ¬ (line = true ∧ b = term))
    (q : List Byte) : collect line term (room + 1) (b :: q) =
      (b :: (collect line term room q).1, (collect line term room q).2) := by
  simp [collect, h]

/-- A loop that ends with AVAILABLE delivers what it has and leaves the queue as it is. -/
theorem Inst.Delivers.of_last (hr : c.ring.Inv) (h : c.readTask = .checking line maxLen got)
    (hlast : ¬ (0 < c.ring.avail ∧ got.length < maxLen - 1))
    (hcollect : collect line p.lineTerm room c.ring.contents = ([], c.ring.contents)) :
    c.Delivers p line room got := by
  refine ⟨1, c.ring.head, c.available.1.out.resp, ?_, by rw [hcollect], hr⟩
  rw [readRun_succ (Inst.readAdvance_last h hlast), hcollect, List.append_nil]
  rfl

/-- A loop that takes READLINE's terminator drops it and ends. -/
theorem Inst.Delivers.of_terminator {b : Byte} {rest : List Byte} (hr : c.ring.Inv)
    (hq : c.ring.contents = b :: rest) (h : c.readTask = .checking line maxLen got)
    (hroom : got.length < maxLen - 1) (hterm : line = true ∧ b = p.lineTerm) :
    c.Delivers p line (room + 1) got := by
  obtain ⟨-, hrest, hinv⟩ := hr.pop_cons hq
  refine ⟨2, c.ring.head + 1, some ⟨.ok, b⟩, ?_, ?_, hinv⟩
  · rw [readRun_take hr hq h hroom, if_pos hterm, hq, collect_of_terminator hterm, List.append_nil]
    rfl
  · rw [hrest, hq, collect_of_terminator hterm]

/-- A loop that takes another byte delivers it and what it delivers from then on. -/
theorem Inst.Delivers.of_collected {b : Byte} {rest : List Byte} (hr : c.ring.Inv)
    (hq : c.ring.contents = b :: rest) (h : c.readTask = .checking line maxLen got)
    (hroom : got.length < maxLen - 1) (hterm : ¬ (line = true ∧ b = p.lineTerm))
    (hnext : Inst.Delivers p line room (got ++ [b])
      { c.takeHead b with readTask := .checking line maxLen (got ++ [b]) }) :
    c.Delivers p line (room + 1) got := by
  obtain ⟨-, hrest, -⟩ := hr.pop_cons hq
  replace hrest : (c.takeHead b).ring.contents = rest := hrest
  obtain ⟨n, head, r, hrun, hleft, hinv⟩ := hnext
  rw [hrest] at hrun hleft
  refine ⟨n + 2, head, r, ?_, ?_, hinv⟩
  · rw [readRun_take hr hq h hroom, if_neg hterm, hrun, hq, collect_of_not_terminator hterm,
      List.append_assoc]
    rfl
  · rw [hq, collect_of_not_terminator hterm]
    exact hleft

/-- From AVAILABLE on, by induction on the room: without room, or without a byte, AVAILABLE is the
last command; a terminator ends the loop, and any other byte leaves one place less. -/
theorem Inst.delivers_of_checking (hr : c.ring.Inv) (h : c.readTask = .checking line maxLen got)
    (hroom : got.length + room = maxLen - 1) : c.Delivers p line room got := by
  induction room generalizing c got with
  | zero => exact .of_last hr h (by omega) rfl
  | succ room ih =>
    cases hq : c.ring.contents with
    | nil =>
      have hnone : ¬ 0 < c.ring.avail := fun hbyte => hr.avail_pos_iff.mp hbyte hq
      exact .of_last hr h (fun hmore => hnone hmore.1) (by rw [hq]; rfl)
    | cons b rest =>
      have hlt : got.length < maxLen - 1 := by omega
      by_cases hterm : line = true ∧ b = p.lineTerm
      · exact .of_terminator hr hq h hlt hterm
      · obtain ⟨-, -, hinv⟩ := hr.pop_cons hq
        refine .of_collected hr hq h hlt hterm (ih hinv rfl ?_)
        rw [List.length_append, List.length_singleton]
        omega

end loop

/-- Settles O54: the loop begins with nothing collected and room for `max_len - 1` bytes. -/
theorem readDeliversTheQueue : Obligations.ReadDeliversTheQueue := by
  intro p c line maxLen hr _ h
  exact Inst.delivers_of_checking hr h (Nat.zero_add _)

end Sys2Proof.Machine
end

section
/-! PROOFS. INIT (46_init.md): what is refused before it, the outcome of its tests, its commit, and
the tick in which it succeeds. -/

namespace Sys2Proof.Machine

/-! ## Before INIT (R180, R216) -/

theorem Inst.readBegin_of_not_inited {c : Inst} (hinit : c.cfg.inited = false) (line : Bool)
    (maxLen : Nat) : c.readBegin line maxLen = c.refuse := by
  simp [Inst.readBegin, Inst.admitsConsumer, hinit]

theorem Inst.putsBegin_of_not_inited {c : Inst} (hinit : c.cfg.inited = false) (k : Nat)
    (p : Params) (wrFail : PinSet) (now : Nat) (bs : List Byte) :
    c.putsBegin k p wrFail now bs = c.refuse := by
  simp [Inst.putsBegin, hinit]

/-- Each operation that a request can ask for but INIT looks at `inited` before all else. -/
theorem exec_of_not_inited {s : State} {c : Inst} {i : Instr} (hc : s.inst? = some c)
    (hinit : c.cfg.inited = false) (hi : i.opClass = .host ∨ i.opClass = .pseudo)
    (hn : ∀ cfg, i ≠ .init cfg) : exec i s = .next (s.setInst c.refuse) := by
  cases i with
  | init cfg => exact absurd rfl (hn cfg)
  | putchar b =>
    rw [exec_putchar_answers hc,
      Inst.putchar_of_not_accepts (Inst.acceptsPutchar_eq_false (.inl hinit))]
  | getc => exact exec_getc_of_not_admitted hc (Inst.admitsConsumer_eq_false_iff.mpr (.inl hinit))
  | available =>
    rw [exec_available_answers hc, hinit]
    rfl
  | overrun =>
    rw [exec_overrun_answers hc, Inst.admitsConsumer_eq_false_iff.mpr (.inl hinit)]
    rfl
  | puts bs => rw [exec_puts hc, Inst.putsBegin_of_not_inited hinit]
  | read n =>
    rw [← Inst.readBegin_of_not_inited hinit false n]
    exact exec_readOrReadline hc false n
  | readline n =>
    rw [← Inst.readBegin_of_not_inited hinit true n]
    exact exec_readOrReadline hc true n
  | frame | claim | compute | push | pop | avail | takeOverrun | rxStep | txStep =>
    simp [Instr.opClass] at hi

theorem Inst.rxStep_of_masked {c : Inst} (hie : c.rx.ie = false) (hidle : c.rx.state = .idle)
    (p : Params) (now : Nat) (level : Bool) : c.rxStep p now level = c := by
  rw [Inst.rxStep_of_idle hidle, Inst.rxIdle, hie]
  rfl

theorem Inst.txStep_of_txIdle {c : Inst} (hidle : c.tx.state = .txIdle) (k : Nat) (p : Params)
    (wrFail : PinSet) (now : Nat) : c.txStep k p wrFail now = c := by
  simp only [Inst.txStep, hidle]

/-! ## The tests of INIT (R175, R177) -/

/-- INIT of the record claims pin `p`: a TX pin, the RX pin, or in half-duplex the direction pin
(R175, R176). -/
def InitRequests (cfg : CfgRecord) (p : Nat) : Prop :=
  PinSet.has cfg.txPins p = true ∨ p = cfg.rxPin ∨ (cfg.hdx = true ∧ p = cfg.dirPin)

/-- The pins of the record are not mutually distinct (R92, R177). -/
def InitPinsOverlap (cfg : CfgRecord) : Prop :=
  PinSet.has cfg.txPins cfg.rxPin = true ∨
    (cfg.hdx = true ∧ (PinSet.has cfg.txPins cfg.dirPin = true ∨ cfg.dirPin = cfg.rxPin))

/-- The requested pins are those of the CLAIM that INIT makes (R176). -/
theorem initRequests_iff {cfg : CfgRecord} {p : Nat} :
    InitRequests cfg p ↔ PinSet.has (initTxSet cfg) p = true ∨ p = cfg.rxPin := by
  simp only [InitRequests, has_initTxSet, Bool.or_eq_true, Bool.and_eq_true, beq_iff_eq]
  tauto

theorem not_initPinsOverlap_iff {cfg : CfgRecord} : ¬ InitPinsOverlap cfg ↔
    PinSet.has cfg.txPins cfg.rxPin = false ∧
      (cfg.hdx = true → PinSet.has cfg.txPins cfg.dirPin = false ∧ cfg.dirPin ≠ cfg.rxPin) := by
  simp [InitPinsOverlap]

section tests
variable {n : Nat} {cfg : CfgRecord} {claimed : PinSet} {ok : Bool}

/-- INIT's own test finds a direction pin that overlaps, and that of CLAIM a TX pin that is the RX
pin. -/
theorem initTests_of_overlap (h : InitPinsOverlap cfg) :
    initTests n cfg claimed ok = .fails .pinOverlap := by
  unfold initTests
  split
  · rfl
  · rename_i hdir
    have hrx : PinSet.has (initTxSet cfg) cfg.rxPin = true := by
      rw [has_initTxSet, h.resolve_right (by simpa using hdir), Bool.true_or]
    rw [claimPins_overlap hrx]

/-- The TX pins and the direction pin of a record without overlap do not include its RX pin. -/
theorem has_initTxSet_rxPin (h : ¬ InitPinsOverlap cfg) :
    PinSet.has (initTxSet cfg) cfg.rxPin = false := by
  obtain ⟨hrx, hdir⟩ := not_initPinsOverlap_iff.mp h
  rw [has_initTxSet, hrx, Bool.false_or, Bool.and_eq_false_imp]
  exact fun hh => beq_eq_false_iff_ne.mpr (hdir hh).2.symm

/-- INIT's own test of the direction pin passes for a record without overlap. -/
theorem directionOverlap_eq_false (h : ¬ InitPinsOverlap cfg) :
    (cfg.hdx && (PinSet.has cfg.txPins cfg.dirPin || cfg.dirPin == cfg.rxPin)) = false := by
  obtain ⟨-, hdir⟩ := not_initPinsOverlap_iff.mp h
  simpa using hdir

theorem initTests_of_taken (h : ¬ InitPinsOverlap cfg)
    (htaken : ∃ p, InitRequests cfg p ∧ PinSet.has claimed p = true) :
    initTests n cfg claimed ok = .fails .pinClaimed := by
  simp only [initRequests_iff] at htaken
  rw [initTests, directionOverlap_eq_false h, claimPins_taken (has_initTxSet_rxPin h) htaken]
  rfl

/-- With the pins distinct and free, the bit period and the platform decide. -/
theorem initTests_of_free (h : ¬ InitPinsOverlap cfg)
    (hfree : ∀ p, InitRequests cfg p → PinSet.has claimed p = false) :
    initTests n cfg claimed ok =
      (computeBitTime cfg.baud.toInt).elim (.fails .invalidBaud) fun t =>
        if ok && initPinsExist n cfg then
          .commits (claimed ||| initTxSet cfg ||| PinSet.only cfg.rxPin) t
        else .fails .pinConfigRejected := by
  simp only [initRequests_iff] at hfree
  rw [initTests, directionOverlap_eq_false h, claimPins_ok (has_initTxSet_rxPin h) hfree]
  cases computeBitTime cfg.baud.toInt <;> rfl

/-- The platform is asked last, and rejects also a pin it does not have (log 28). -/
theorem initTests_of_rejected (h : ¬ InitPinsOverlap cfg)
    (hfree : ∀ p, InitRequests cfg p → PinSet.has claimed p = false) (hbaud : 0 < cfg.baud.toInt)
    (hrej : (ok && initPinsExist n cfg) = false) :
    initTests n cfg claimed ok = .fails .pinConfigRejected := by
  obtain ⟨t, ht, -⟩ := computeBitTime_fits cfg.baud hbaud
  rw [initTests_of_free h hfree, ht, hrej]
  rfl

end tests

/-! ## INIT as an operation of the block (R175, R181) -/

section exec
variable {s : State} {c : Inst} {cfg : CfgRecord}

theorem exec_init_of_refused (hc : s.inst? = some c) (h : c.cfg.inited = true ∨ cfg.zero ≠ 0) :
    exec (.init cfg) s = .next (s.setInst c.refuse) :=
  (State.onInst_eq hc _).trans (if_pos (by simpa using h))

theorem exec_init_of_fails {cause : Status} (hc : s.inst? = some c) (hinit : c.cfg.inited = false)
    (hzero : cfg.zero = 0)
    (ht : initTests s.params.npins cfg s.claimed s.pinCfgOk = .fails cause) :
    exec (.init cfg) s = .next (s.setInst (c.respond cause 0)) :=
  (State.onInst_eq hc _).trans (by simp [hinit, hzero, ht])

theorem exec_init_of_commits {claimed : PinSet} {t : Nat} (hc : s.inst? = some c)
    (hinit : c.cfg.inited = false) (hzero : cfg.zero = 0)
    (ht : initTests s.params.npins cfg s.claimed s.pinCfgOk = .commits claimed t) :
    exec (.init cfg) s = .next
      { s.setInst ((c.initCommit s.params cfg t).respond .ok 0) with claimed := claimed } :=
  (State.onInst_eq hc _).trans (by simp [hinit, hzero, ht])

end exec

theorem Inst.initCommit_rx (p : Params) (cfg : CfgRecord) (bitTime : Nat) (c : Inst) :
    (c.initCommit p cfg bitTime).rx = { c.rx with ie := cfg.rxen || c.rx.ie } := by
  cases h : cfg.rxen <;> simp [Inst.initCommit, h]

theorem Inst.has_level_initCommit (p : Params) (cfg : CfgRecord) (bitTime : Nat) (c : Inst)
    (q : Nat) : PinSet.has (c.initCommit p cfg bitTime).tx.level q =
      ((cfg.txen && PinSet.has cfg.txPins q) || PinSet.has c.tx.level q) := by
  cases h : cfg.txen <;> simp [Inst.initCommit, h, PinSet.has_or, Bool.or_comm]

/-- An INIT after which the instance is configured has committed. -/
theorem exec_init_of_inited_after {s t : State} {c d : Inst} {cfg : CfgRecord}
    (h : exec (.init cfg) s = .next t) (hc : s.inst? = some c) (hinit : c.cfg.inited = false)
    (hd : t.inst? = some d) (hdone : d.cfg.inited = true) :
    ∃ bitTime, d = (c.initCommit s.params cfg bitTime).respond .ok 0 := by
  obtain ⟨st, v, rfl⟩ | ⟨-, claimed, bt, -, rfl⟩ := Inst.after_init (exec_inst?_after h hc hd)
  · simp [hinit] at hdone
  · exact ⟨bt, rfl⟩

/-! ## The tick of a successful INIT (R178) -/

theorem exec_pins {i : Instr} {s t : State} (h : exec i s = .next t) : t.pins = s.pins := by
  obtain ⟨ht, -⟩ := exec_cases h
  rw [ht]

theorem wirePhase_pins {i : TickInput} {s t : State} (h : wirePhase i s = .next t) :
    t.pins = s.pins := by
  obtain rfl | ⟨k, bits, c, -, -, rfl⟩ := wirePhase_cases h <;> rfl

/-- The far sender's part of a tick changes nothing of an instance but its line, and without a far
sender that neither. -/
theorem wirePhase_getElem? {i : TickInput} {s t : State} {k : Nat} {c : Inst}
    (h : wirePhase i s = .next t) (hc : s.insts[k]? = some c) :
    ∃ line, t.insts[k]? = some { c with line := line } ∧ (i.line = none → line = c.line) := by
  obtain rfl | ⟨j, bits, b, hl, hb, rfl⟩ := wirePhase_cases h
  · exact ⟨c.line, hc, fun _ => rfl⟩
  · by_cases hj : j = k
    · subst hj
      obtain rfl : b = c := Option.some.inj (hb.symm.trans hc)
      exact ⟨_, State.inst?_setInst (s := s.address j) hc _, by simp [hl]⟩
    · exact ⟨c.line, by simpa [List.getElem?_set_ne hj] using hc, fun _ => rfl⟩

/-- An instance that was not configured as the tick began takes no RXSTEP in it (log 9). -/
theorem Inst.engines_rx_of_not_inited {before : Inst} (h : before.cfg.inited = false) (s : State)
    (k : Nat) (c : Inst) :
    (c.engines s k before).rx = { c.rx with prev := c.pinRead s.pins s.ticks } := by
  rw [Inst.engines, h]
  cases before.txBusy <;> simp

theorem endTick_getElem?_eq_some {s0 s : State} {k : Nat} {before d : Inst}
    (hb : s0.insts[k]? = some before) (hd : (s0.endTick s).insts[k]? = some d) :
    ∃ c, s.insts[k]? = some c ∧ d = c.engines s k before := by
  cases hc : s.insts[k]? with
  | none => simp [State.endTick, hc] at hd
  | some c => exact ⟨c, rfl, Option.some.inj (hd.symm.trans (endTick_getElem? hc hb))⟩

/-! ## The obligations -/

/-- Settles O14: every command is refused, a masked receiver takes no edge, and an idle transmitter
has nothing to send. -/
theorem onlyInitWorksBeforeInit : Obligations.OnlyInitWorksBeforeInit := by
  intro s c hc hinit
  refine ⟨fun i hi hn => exec_of_not_inited hc hinit hi hn, fun hie hidle now level => ?_,
    fun hidle now => ?_⟩
  · exact exec_rxStep_of_eq_self hc (Inst.rxStep_of_masked hie hidle ..)
  · exact exec_txStep_of_eq_self hc (Inst.txStep_of_txIdle hidle ..)

/-- Settles O16: the tests commit the union of the claimed set with the pins requested, and a bit
period that fits its register. -/
theorem initCommitsTheConfiguration : Obligations.InitCommitsTheConfiguration := by
  intro s c cfg hc hinit hzero hrx hdir hpins hbaud hok
  have hdistinct : ¬ InitPinsOverlap cfg := not_initPinsOverlap_iff.mpr ⟨hrx, hdir⟩
  obtain ⟨t, ht, hfits⟩ := computeBitTime_fits cfg.baud hbaud
  have htests : initTests s.params.npins cfg s.claimed s.pinCfgOk =
      .commits (s.claimed ||| initTxSet cfg ||| PinSet.only cfg.rxPin) t := by
    rw [initTests_of_free hdistinct fun p hp => (hpins p hp).1, ht, hok,
      initPinsExist_iff.mpr fun p hp => (hpins p hp).2]
    rfl
  refine ⟨s.claimed ||| initTxSet cfg ||| PinSet.only cfg.rxPin, BitVec.ofNat 20 t,
    (c.initCommit s.params cfg t).tx.level, ?_, ?_, fun p => ?_,
    c.has_level_initCommit s.params cfg t⟩
  · rw [exec_init_of_commits hc hinit hzero htests, ← Inst.initCommit_rx s.params cfg t c]
    rfl
  · rw [ht, BitVec.toNat_ofNat, Nat.mod_eq_of_lt hfits]
  · rw [has_claimed_union, has_initTxSet, ← Bool.or_assoc, Bool.or_right_comm]

/-- Settles O17: each clause is one outcome of the tests, and a failing test changes only the
response. -/
theorem initReportsTheFirstFailingTest : Obligations.InitReportsTheFirstFailingTest := by
  intro s c cfg hc hinit hzero answer overlap taken
  have hfree (h : ¬ taken) (p : Nat) (hp : InitRequests cfg p) : PinSet.has s.claimed p = false :=
    Bool.eq_false_of_not_eq_true fun hcl => h ⟨p, hp, hcl⟩
  refine ⟨fun hover => ?_, fun hover htaken => ?_, fun hover htaken hbaud => ?_,
    fun hover htaken hbaud hok => ?_⟩
  · exact exec_init_of_fails hc hinit hzero (initTests_of_overlap hover)
  · exact exec_init_of_fails hc hinit hzero (initTests_of_taken hover htaken)
  · refine exec_init_of_fails hc hinit hzero ?_
    rw [initTests_of_free hover (hfree htaken), computeBitTime_of_nonpos hbaud]
    rfl
  · exact exec_init_of_fails hc hinit hzero
      (initTests_of_rejected hover (hfree htaken) hbaud (by rw [hok, Bool.false_and]))

/-- Settles O18: a pin that does not exist fails the platform's test, the last one. -/
theorem initIsRefusedWhenItMayNotRun : Obligations.InitIsRefusedWhenItMayNotRun := by
  intro s c cfg hc answer requested
  refine ⟨exec_init_of_refused hc, fun hinit hzero hrx hdir hfree hbaud hmissing => ?_⟩
  obtain ⟨p, hp, hge⟩ := hmissing
  have hexist : initPinsExist s.params.npins cfg = false :=
    Bool.eq_false_of_not_eq_true fun h => hge.not_gt (initPinsExist_iff.mp h p hp)
  exact exec_init_of_fails hc hinit hzero (initTests_of_rejected
    (not_initPinsOverlap_iff.mpr ⟨hrx, hdir⟩) hfree hbaud (by rw [hexist, Bool.and_false]))

/-- Settles O19: an INIT that leaves the instance configured has committed, the engines' part of its
tick takes no RXSTEP, and without a far sender the level read last is that of the pin committed. -/
theorem initArmsFromTheNextTick : Obligations.InitArmsFromTheNextTick := by
  intro s t k cfg c d hr hhost hc hinit hs hd hdone
  obtain ⟨hr', -⟩ | ⟨-, s1, s2, h1, h2, rfl⟩ := step_cases hs
  · simp [hr] at hr'
  have hbefore : (s.latch s.nextInput).insts[k]? = some c.clearOutputs := by
    simp [State.latch, hc]
  obtain ⟨line, hc1, hkept⟩ := wirePhase_getElem? h1 hbefore
  have hparams : s1.params = s.params := wirePhase_params (s := s.latch s.nextInput) h1
  rw [hostPhase_of_decode_ok hhost (instr := .init (decodeCfg s.params.npins cfg))
    (by rw [hparams]; rfl)] at h2
  obtain ⟨c2, hc2, rfl⟩ := endTick_getElem?_eq_some hbefore hd
  rw [Inst.engines_cfg] at hdone
  have hc2' : s2.inst? = some c2 := by rw [State.inst?, exec_cur h2]; exact hc2
  obtain ⟨bt, rfl⟩ := exec_init_of_inited_after h2 hc1 hinit hc2' hdone
  rw [Inst.engines_rx_of_not_inited (before := c.clearOutputs) hinit, Inst.respond_rx,
    Inst.initCommit_rx]
  refine ⟨rfl, fun hl hline => ?_⟩
  have hpins : s2.pins = s.nextInput.pins := (exec_pins h2).trans (wirePhase_pins h1)
  dsimp only
  rw [Inst.pinRead_of_line_none ((hkept hl).trans hline), hpins]
  rfl

end Sys2Proof.Machine
end

section
/-! PROOFS. The external reset (R217). -/

namespace Sys2Proof.Machine

/-- A tick with the external reset does nothing else (log 20). -/
theorem step_of_reset {s : State} (h : s.nextInput.reset = true) :
    step s = .next s.externalReset := by
  simp only [step, tick, h, if_true]

/-- Whatever the instances held, what is left of them is their number. -/
theorem State.externalReset_insts (s : State) :
    s.externalReset.insts = List.replicate s.insts.length Inst.reset :=
  List.map_const' ..

/-- Settles O15: the tick is the external reset alone, and its instances are as many reset
instances as there were. -/
theorem externalResetResetsEverything : Obligations.ExternalResetResetsEverything := by
  intro s hr
  rw [step_of_reset hr, ← s.externalReset_insts]
  rfl

end Sys2Proof.Machine
end
